-- ==== Sys2Proof/Word.lean ====
section
/-! DEFINITION. The block's two word sizes (00_scope.md R10): disk bytes and 32-bit registers. -/

namespace Sys2Proof

/-- A disk byte or a buffer byte (R10: "A disk byte is 8 bits"). -/
abbrev Byte := BitVec 8

/-- A register, a command word, an offset into the decoded array (R10, R33). -/
abbrev Word := BitVec 32

end Sys2Proof
end

