-- ==== Sys2Proof/Syntax.lean ====
section
/-! DEFINITION. The commands of the opcode map (30_encoding.md R114), one constructor for each row of
spec/opcode_table.json, with the IMM operands of its format (R112). -/

namespace Sys2Proof

/-- A command. -/
inductive Instr where
  /-- CRST, cursor reset (R140). -/
  | crst
  /-- NBIT, next bit (R141). -/
  | nbit
  /-- NBYTE, next self-sync byte (R142). -/
  | nbyte
  /-- MAT, materialize the decoded array (R143). -/
  | mat
  /-- FIND P0 P1 P2, pattern search (R144). -/
  | find (p0 p1 p2 : Byte)
  /-- SELV, select variant (R171). -/
  | selv
  /-- SCAN, scan one track for sectors (R175). -/
  | scan
  /-- DA44, decode a 4-and-4 address field (R240). -/
  | da44
  /-- DA35, decode a 3.5" address field (R242). -/
  | da35
  /-- DD16, decode a 16-sector data field (R250). -/
  | dd16
  /-- ED16, encode a 16-sector data field (R255). -/
  | ed16
  /-- X62 v, 6-and-2 translate (R212); the format carries six bits of v. -/
  | x62 (v : Byte)
  /-- U62 b, 6-and-2 untranslate (R213). -/
  | u62 (b : Byte)
  /-- X44 b, 4-and-4 encode (R216). -/
  | x44 (b : Byte)
  /-- U44 bo be, 4-and-4 decode of the odds and evens bytes (R217). -/
  | u44 (bo be : Byte)
  /-- DD13, decode a 13-sector data field (R260). -/
  | dd13
  /-- DD35, decode a 3.5" data field (R262). -/
  | dd35
  deriving DecidableEq, Repr

end Sys2Proof
end

