-- ==== Sys2Proof/WellFormed.lean ====
section
/-! DEFINITION. Which terms of `Instr` a command word can carry (30_encoding.md R112, R113). Every operand
fills its field, but for V of format V6: six bits of IMM, held in a byte. -/

namespace Sys2Proof

/-- The check on a command's operands: V of X62 is a 6-bit value ("A value above 63 cannot reach the
rule", R212); no other format has a field narrower than its operand. -/
def Instr.wellFormed : Instr → Bool
  | .crst => true
  | .nbit => true
  | .nbyte => true
  | .mat => true
  | .find _ _ _ => true
  | .selv => true
  | .scan => true
  | .da44 => true
  | .da35 => true
  | .dd16 => true
  | .ed16 => true
  | .x62 v => decide (v.toNat < 64)
  | .u62 _ => true
  | .x44 _ => true
  | .u44 _ _ => true
  | .dd13 => true
  | .dd35 => true

end Sys2Proof
end

