-- ==== Sys2Proof/Decode.lean ====
section
/-! DEFINITION. Reading and writing command words (30_encoding.md R110 to R116): the fields, the formats'
must-be-zero checks, the opcode map, the decoder, the encoder and the table of match and mask. -/

namespace Sys2Proof

/-- Why a word is no command (R111): the two decode errors, by name. -/
inductive DecodeError where
  /-- OPC is 0x00 or 0x12 to 0xFF (R115). -/
  | illegalCommand
  /-- A must-be-zero IMM bit of the command's format is 1 (R111 step 2). -/
  | badOperand
  deriving DecidableEq, Repr

/-- OPC, bits [31:24] of a command word (R110). -/
def opcOf (w : Word) : Byte := w.extractLsb' 24 8

/-- IMM, bits [23:0] of a command word (R110). -/
def immOf (w : Word) : BitVec 24 := w.extractLsb' 0 24

/-- Byte k of IMM, counted from the least significant (R112: bits [8k+7:8k]). -/
def immByte (w : Word) (k : Nat) : Byte := (immOf w).extractLsb' (8 * k) 8

/-- The command `i`, unless IMM has a bit at or above `used`, the first bit the format marks as
must-be-zero: then BadOperand (R111 step 2, R112). -/
def withZeroFrom (w : Word) (used : Nat) (i : Instr) : Except DecodeError Instr :=
  if (immOf w) >>> used = 0 then .ok i else .error .badOperand

/-- The decoder (R111): the opcode map of R114, each command with its format's must-be-zero bits. -/
def decode (w : Word) : Except DecodeError Instr :=
  match (opcOf w).toNat with
  | 0x01 => withZeroFrom w 0 .crst
  | 0x02 => withZeroFrom w 0 .nbit
  | 0x03 => withZeroFrom w 0 .nbyte
  | 0x04 => withZeroFrom w 0 .mat
  | 0x05 => .ok (.find (immByte w 2) (immByte w 1) (immByte w 0))
  | 0x06 => withZeroFrom w 0 .selv
  | 0x07 => withZeroFrom w 0 .scan
  | 0x08 => withZeroFrom w 0 .da44
  | 0x09 => withZeroFrom w 0 .da35
  | 0x0A => withZeroFrom w 0 .dd16
  | 0x0B => withZeroFrom w 0 .ed16
  | 0x0C => withZeroFrom w 6 (.x62 (immByte w 0))
  | 0x0D => withZeroFrom w 8 (.u62 (immByte w 0))
  | 0x0E => withZeroFrom w 8 (.x44 (immByte w 0))
  | 0x0F => withZeroFrom w 16 (.u44 (immByte w 1) (immByte w 0))
  | 0x10 => withZeroFrom w 0 .dd13
  | 0x11 => withZeroFrom w 0 .dd35
  | _ => .error .illegalCommand

/-- The word of an opcode and three IMM bytes, the highest first (R110, R112). -/
def wordOf (opc i2 i1 i0 : Byte) : Word := opc ++ i2 ++ i1 ++ i0

/-- The encoder: the word `(OPC, IMM)` of a command (R110, R112, R114). -/
def encode : Instr → Word
  | .crst => wordOf 0x01 0 0 0
  | .nbit => wordOf 0x02 0 0 0
  | .nbyte => wordOf 0x03 0 0 0
  | .mat => wordOf 0x04 0 0 0
  | .find p0 p1 p2 => wordOf 0x05 p0 p1 p2
  | .selv => wordOf 0x06 0 0 0
  | .scan => wordOf 0x07 0 0 0
  | .da44 => wordOf 0x08 0 0 0
  | .da35 => wordOf 0x09 0 0 0
  | .dd16 => wordOf 0x0A 0 0 0
  | .ed16 => wordOf 0x0B 0 0 0
  | .x62 v => wordOf 0x0C 0 0 v
  | .u62 b => wordOf 0x0D 0 0 b
  | .x44 b => wordOf 0x0E 0 0 b
  | .u44 bo be => wordOf 0x0F 0 bo be
  | .dd13 => wordOf 0x10 0 0 0
  | .dd35 => wordOf 0x11 0 0 0

/-- The match and mask columns of R114's second table, row by row. A word w selects a row's command if
`w &&& mask = match`. -/
def opcodeRows : List (Word × Word) :=
  [(0x01000000, 0xFFFFFFFF), (0x02000000, 0xFFFFFFFF), (0x03000000, 0xFFFFFFFF),
   (0x04000000, 0xFFFFFFFF), (0x05000000, 0xFF000000), (0x06000000, 0xFFFFFFFF),
   (0x07000000, 0xFFFFFFFF), (0x08000000, 0xFFFFFFFF), (0x09000000, 0xFFFFFFFF),
   (0x0A000000, 0xFFFFFFFF), (0x0B000000, 0xFFFFFFFF), (0x0C000000, 0xFFFFFFC0),
   (0x0D000000, 0xFFFFFF00), (0x0E000000, 0xFFFFFF00), (0x0F000000, 0xFFFF0000),
   (0x10000000, 0xFFFFFFFF), (0x11000000, 0xFFFFFFFF)]

/-- Which row of `opcodeRows` a command belongs to: its place in R114's table. -/
def Instr.row : Instr → Nat
  | .crst => 0
  | .nbit => 1
  | .nbyte => 2
  | .mat => 3
  | .find _ _ _ => 4
  | .selv => 5
  | .scan => 6
  | .da44 => 7
  | .da35 => 8
  | .dd16 => 9
  | .ed16 => 10
  | .x62 _ => 11
  | .u62 _ => 12
  | .x44 _ => 13
  | .u44 _ _ => 14
  | .dd13 => 15
  | .dd35 => 16

/-- The command word whose low `nbits` bits are those of `w` and whose other bits are 0. -/
def tableWord (nbits w : Nat) : Word := BitVec.ofNat 32 (w % 2 ^ nbits)

/-- What the decoder reads from a word numbered as spec/opcode_table.json numbers it. -/
def decodeTableWord (nbits w : Nat) : Option Instr :=
  match decode (tableWord nbits w) with
  | .ok i => some i
  | .error _ => none

end Sys2Proof
end

