-- ==== Sys2Proof/Config.lean ====
section
/-! DEFINITION. What one implementation of the block fixes (00_scope.md R9, 92_eei_decisions.md "Open
parameters"), and the free values: constants with no body, of which no proof can see the value.
The default values of the parameters stand in Machine/Parameters.lean. -/

namespace Sys2Proof

/-- A three-byte field prologue, first byte first (R15, R173). -/
structure Pattern where
  b0 : Byte
  b1 : Byte
  b2 : Byte
  deriving DecidableEq, Repr

/-- The parameters a block is built with (R9). They are plain data and no step changes them. Every
statement about the machine holds for every value of them, unless it asks for `Params.Ok`. -/
structure Params where
  /-- TBUF_BYTES, the track buffer's capacity (R9, D35). -/
  tbufBytes : Nat
  /-- PRO16, the 16-sector address prologue (R173, D10). -/
  pro16 : Pattern
  /-- PRO13, the 13-sector address prologue (R173, D10). -/
  pro13 : Pattern
  /-- PRO35, the 3.5" address prologue (R173, D10). -/
  pro35 : Pattern
  /-- XLATE62, entry v being the disk byte that carries the 6-bit value v (R211, D15). -/
  xlate62 : Vector Byte 64
  /-- SPT35, the sectors per 3.5" track for each track index (R176, D22). -/
  spt35 : Vector Nat 256
  /-- Whether DECODE13 is present (R261, D18). -/
  hasDecode13 : Bool
  /-- Whether DECODE35 is present (R263, D19). -/
  hasDecode35 : Bool
  deriving DecidableEq, Repr

/-- How the decoding of one field can fail (R241, R243, R251; the contracts of R261 and R263 allow
exactly these). -/
inductive FieldError where
  /-- The field needs a byte at or beyond DLEN. -/
  | readPastEnd
  /-- A byte that must be 6-and-2 decoded is not in L62. -/
  | illegalNibble
  /-- The data-field checksum does not hold. -/
  | sectorChecksum
  deriving DecidableEq, Repr, Inhabited

/-- DECODE13, where it is present (R261): a free function. Its type is its contract: it reads the bytes
DBUF[d..DLEN) and nothing else, is a function of them, answers a 256-byte payload or one of the three
field errors, and writes no state. DESIGN CHOICE (log entry 7), safe. -/
opaque Config.decode13 : List Byte → Except FieldError (Vector Byte 256)

/-- DECODE35, where it is present (R263): a free function. Its type is its contract: it reads the bytes
DBUF[d..DLEN), is a function of them, and answers 524 bytes (12 tag bytes, then the 512-byte payload) or
one of the three field errors. DESIGN CHOICE (log entry 8), safe. -/
opaque Config.decode35 : List Byte → Except FieldError (Vector Byte 524)

/-- What a host read of a TBUF byte returns that nothing has written since the last reset (R50: "Reset
value: unspecified"): a free value for each reset and each block address. DESIGN CHOICE (log entry 4), safe. -/
opaque Config.tbufPowerOn : (resets addr : Nat) → Byte

/-- BLOCK_BASE, the platform's address of engine 0's offset 0 (R95, D4), which has no default. The host
accesses of the model carry addresses relative to it (log entry 15). -/
opaque Config.blockBase : Nat

/-- The platform's own address of a block-relative address (R95). -/
def Config.platformAddr (addr : Nat) : Nat := Config.blockBase + addr

end Sys2Proof
end

