-- ==== Sys2Proof/Machine/Parameters.lean ====
section
/-! DEFINITION. The fixed numbers of the block, the default values of its parameters, and what a legal set
of parameters is (00_scope.md R9, 41_track_parser.md R173 and R176, 42_nibble_translator.md R211 and R219). -/

namespace Sys2Proof.Machine

/-- GUARD, the bytes appended to the decoded array (R9). -/
def guardBytes : Nat := 600
/-- DATA_SKIP, where the data-prologue search starts after the address offset (R9). -/
def dataSkip : Nat := 11
/-- DATA_WINDOW, the furthest a data prologue may stand from the address offset (R9, R179). -/
def dataWindow : Nat := 200
/-- MAX_SECTORS, the entries of the sector table (R9). -/
def maxSectors : Nat := 16
/-- SPT16 (R9). -/
def spt16 : Nat := 16
/-- SPT13 (R9, conflict C4). -/
def spt13 : Nat := 13
/-- AUX16, the auxiliary bytes of a 16-sector data field (R9). -/
def aux16 : Nat := 86
/-- DATA16_NIBBLES, the translated bytes of a 16-sector data field (R9). -/
def data16Nibbles : Nat := 343
/-- PAYLOAD525, the payload of a 5.25" sector (R9). -/
def payload525 : Nat := 256
/-- PAYLOAD35, the payload of a 3.5" sector (R9). -/
def payload35 : Nat := 512
/-- The tag bytes before the payload of a 3.5" sector (R263). -/
def tag35 : Nat := 12

/-- DPRO, the data prologue of every variant (R9, R173). -/
def dataPrologue : Pattern := ⟨0xD5, 0xAA, 0xAD⟩

/-- The default XLATE62, row by row (R211). -/
def defaultXlate62 : Vector Byte 64 :=
  #v[0x96, 0x97, 0x9A, 0x9B, 0x9D, 0x9E, 0x9F, 0xA6,
     0xA7, 0xAB, 0xAC, 0xAD, 0xAE, 0xAF, 0xB2, 0xB3,
     0xB4, 0xB5, 0xB6, 0xB7, 0xB9, 0xBA, 0xBB, 0xBC,
     0xBD, 0xBE, 0xBF, 0xCB, 0xCD, 0xCE, 0xCF, 0xD3,
     0xD6, 0xD7, 0xD9, 0xDA, 0xDB, 0xDC, 0xDD, 0xDE,
     0xDF, 0xE5, 0xE6, 0xE7, 0xE9, 0xEA, 0xEB, 0xEC,
     0xED, 0xEE, 0xEF, 0xF2, 0xF3, 0xF4, 0xF5, 0xF6,
     0xF7, 0xF9, 0xFA, 0xFB, 0xFC, 0xFD, 0xFE, 0xFF]

/-- The parameters at the defaults of R9 and 92_eei_decisions.md: TBUF_BYTES 32768, the address prologues
of R173, XLATE62 of R211, SPT35(t) = 12 for every t, DECODE13 and DECODE35 absent. -/
def defaultParams : Params where
  tbufBytes := 32768
  pro16 := ⟨0xD5, 0xAA, 0x96⟩
  pro13 := ⟨0xD5, 0xAA, 0xB5⟩
  pro35 := ⟨0xD5, 0xAA, 0x96⟩
  xlate62 := defaultXlate62
  spt35 := Vector.replicate 256 12
  hasDecode13 := false
  hasDecode35 := false

end Sys2Proof.Machine

namespace Sys2Proof

/-- The parameters are legal: TBUF_BYTES in 6646..64936 (R9), SPT35(t) in 1..16 for every t (R176), and
XLATE62 with the properties of R219 items 1 to 4 that "a model with a different XLATE62 parameter must
keep". -/
abbrev Params.Ok (P : Params) : Prop :=
  (6646 ≤ P.tbufBytes ∧ P.tbufBytes ≤ 64936) ∧
  (∀ n ∈ P.spt35.toList, 1 ≤ n ∧ n ≤ Machine.maxSectors) ∧
  P.xlate62.toList.Pairwise (fun a b => a.toNat < b.toNat) ∧
  (∀ b ∈ P.xlate62.toList, b.getLsbD 7 = true ∧ b ≠ 0xD5 ∧ b ≠ 0xAA) ∧
  P.xlate62[0x0B] = 0xAD ∧ P.xlate62[0x00] = 0x96 ∧ P.xlate62[0x11] = 0xB5

end Sys2Proof
end

