-- ==== Sys2Proof/Machine/State.lean ====
section
/-! DEFINITION. Everything the spec gives the block to hold (10_state.md), as plain data, and the block
right after reset (R60). -/

namespace Sys2Proof.Machine

/-- The values STATUS.ERR takes (60_exceptions.md R290). The codes 0x0B and 0x0D are "never a command
error" and 0x0E to 0xFF "never written", so they are no values of it. -/
inductive ErrCode where
  | noError
  | illegalCommand
  | badOperand
  | badConfig
  | noTrack
  | trackOverflow
  | noFlux
  | prologueNotFound
  | readPastEnd
  | illegalNibble
  | sectorChecksumError
  | variantUnsupported
  deriving DecidableEq, Repr

/-- The values STATUS.STOP takes: why the last SCAN ended (10_state.md R59). -/
inductive StopCode where
  | noScan
  | count
  | noMatch
  | duplicate
  | noPrologue
  | noTrack
  | aborted
  deriving DecidableEq, Repr

/-- The values SST.code takes in a sector-table entry (60_exceptions.md R291). -/
inductive SectorStatus where
  | ok
  | readPastEnd
  | illegalNibble
  | sectorChecksumError
  | addrChecksumError
  | variantUnsupported
  | dataFieldAbsent
  deriving DecidableEq, Repr

/-- The format of a track (R15, R43). VARIANT = NONE is the absence of one. -/
inductive Variant where
  | s13
  | s16
  | gcr35
  deriving DecidableEq, Repr

/-- The buffers of one engine, as cells keyed by the byte's offset from the engine's base (20_memory.md
R81). Its canonical form is `Memory.wf` (Machine/Ops.lean). -/
abbrev Memory := List Host.Cell

/-- One engine: every register, flag and buffer of 10_state.md. TBUFSZ is the parameter
`Params.tbufBytes` (R47); CMD and STATUS.BUSY hold no state (R34, R35; log entry 11). -/
structure Engine where
  /-- STATUS[1] (R56). -/
  found : Bool
  /-- STATUS[2], DBUF holds the array of the current TBUF and BITCOUNT (R49). -/
  dvalid : Bool
  /-- STATUS[3], sticky (R57). -/
  anyErr : Bool
  /-- STATUS[4] (R58). -/
  sectFail : Bool
  /-- STATUS[15:8], the error of the last command (R35, R290). -/
  err : ErrCode
  /-- STATUS[19:16] (R59). -/
  stop : StopCode
  /-- RESULT (R36). -/
  result : Word
  /-- OPA, the operand address (R37). -/
  opa : Word
  /-- CFG[3:0] (R38). -/
  cfgVersion : BitVec 4
  /-- CFG[7:4] (R38). -/
  cfgDiskType : BitVec 4
  /-- CFG[11:8] (R38). -/
  cfgBootFmt : BitVec 4
  /-- CFG[12]: a 3.5" address checksum mismatch is a per-sector error (R38, R178). -/
  cfgA35pol : Bool
  /-- BITCOUNT (R39). -/
  bitcount : Word
  /-- TRKIDX[7:0] (R40). -/
  trkidx : Byte
  /-- BITPOS, the cursor (R41). -/
  bitpos : Word
  /-- DLEN (R42). -/
  dlen : Word
  /-- VARIANT (R43); none is NONE. -/
  variant : Option Variant
  /-- SCOUNT (R44). -/
  scount : Word
  /-- AFA (R45). -/
  afa : Word
  /-- AFB[16:0] (R46). -/
  afb : BitVec 17
  /-- REVS, the hidden revolution counter (R48). -/
  revs : Word
  /-- TBUF, DBUF, SECT, PBUF, WBUF and NBUF (R50 to R55). -/
  mem : Memory
  deriving DecidableEq, Repr

/-- Why a step stops for good. -/
inductive Fault where
  /-- Raised by a host access that no window supports (20_memory.md R82, R83): the host observes a
  BusError and no state changes; "a model treats it as a fault of the host's step". `addr` is the
  block-relative address. Safe: the block itself would go on with the host's next access. -/
  | busError (addr : Nat)
  /-- Raised by an engine read of a TBUF byte that the host has not written since reset
  (R50, R330, decision D50). `off` is the byte's offset in TBUF. Safe: the block would read some byte. -/
  | tbufUnwritten (off : Nat)
  deriving DecidableEq, Repr

/-- Why the model has no meaning for an instruction. -/
inductive Refusal where
  /-- Raised by `exec` alone, for an instruction that has no meaning yet. Every command has its
  meaning, so no step raises it. Safe. -/
  | notModelled (mnemonic : String)
  deriving DecidableEq, Repr

/-- What the outside does to the block (20_memory.md R80 to R83, 70_reset_and_hazards.md R330).
Addresses are relative to BLOCK_BASE (log entry 15). -/
inductive HostOp where
  /-- A host read of `n` bytes at `addr`. -/
  | read (n addr : Nat)
  /-- A host write of the low `n` bytes of `v` at `addr`. -/
  | write (n addr : Nat) (v : Word)
  /-- The platform asserts the reset input. -/
  | reset
  deriving DecidableEq, Repr

/-- The block and its host port. The engines are `below`, `cur` and `above` in the order of their
numbers, so there is at least one (N_ENGINES >= 1, R9) and the engine that runs a command, `cur`, always
exists (log entry 9). -/
structure State where
  /-- The parameters the block is built with (R9). No step changes them. -/
  params : Params
  /-- The engines numbered below the addressed one. -/
  below : List Engine
  /-- The engine that the latest host write or command addressed: number `below.length`. -/
  cur : Engine
  /-- The engines numbered above it. -/
  above : List Engine
  /-- The MODEL's own: the host's pending accesses, oldest first (log entry 1). -/
  inbox : List HostOp
  /-- The MODEL's own: what the last host read returned (log entry 2). -/
  rdata : Option Word
  /-- The MODEL's own: how many resets have been asserted; it indexes the free contents of TBUF
  (log entry 4). -/
  resets : Nat
  deriving DecidableEq, Repr

/-- One engine right after reset (R33, R60). -/
def Engine.reset : Engine where
  found := false
  dvalid := false
  anyErr := false
  sectFail := false
  err := .noError
  stop := .noScan
  result := 0
  opa := 0
  cfgVersion := 0
  cfgDiskType := 0
  cfgBootFmt := 0
  cfgA35pol := true
  bitcount := 0
  trkidx := 0
  bitpos := 0
  dlen := 0
  variant := none
  scount := 0
  afa := 0
  afb := 0
  revs := 0
  mem := []

/-- The block right after reset (R60, R330) with the default parameters (R9): one engine, no pending host
access. -/
def State.reset : State where
  params := defaultParams
  below := []
  cur := Engine.reset
  above := []
  inbox := []
  rdata := none
  resets := 0

end Sys2Proof.Machine
end

