-- ==== Sys2Proof/Machine/Ops.lean ====
section
/-! DEFINITION. The shared operations: an engine's memory (20_memory.md R81, R83), bytes of words (R86),
how a command ends and how it raises an error (60_exceptions.md R292, R293), and which engine an access
addresses (R81, R310). -/

namespace Sys2Proof.Machine

/-! ## Memory -/

/-- TBUF's offset from the engine's base (R81). -/
def tbufBase : Nat := 0x10000
/-- DBUF's offset (R81). -/
def dbufBase : Nat := 0x20000
/-- SECT's offset (R81). -/
def sectBase : Nat := 0x30000
/-- PBUF's offset (R81). -/
def pbufBase : Nat := 0x40000
/-- WBUF's offset (R81). -/
def wbufBase : Nat := 0x50000
/-- NBUF's offset (R81). -/
def nbufBase : Nat := 0x60000
/-- The bytes of one engine's address space (R81). -/
def engineStride : Nat := 0x100000

/-- What an offset reads as that the memory does not list: nothing in TBUF's 64 KiB, whose contents after
reset are unspecified, and 0 elsewhere, the reset contents of the other buffers (R60; log entry 3). -/
def Memory.unlisted (a : Nat) : Option Byte :=
  if tbufBase ≤ a ∧ a < dbufBase then none else some 0

/-- The byte at offset `a`: none if it is a TBUF byte that nothing has written since reset. -/
def Memory.read : Memory → Nat → Option Byte
  | [], a => Memory.unlisted a
  | c :: m, a => if c.1 = a then some c.2 else Memory.read m a

/-- The cells of the bytes `bs` from offset `a` on, without those that read the same unlisted. -/
def Memory.cells : Nat → List Byte → Memory
  | _, [] => []
  | a, b :: bs =>
    if Memory.unlisted a = some b then Memory.cells (a + 1) bs else (a, b) :: Memory.cells (a + 1) bs

/-- The bytes `bs` stored from offset `a` on (at most `n` of them), and the rest of the `n` bytes at `a` as
after reset. With `n` the length of `bs` it is a plain store. -/
def Memory.store (m : Memory) (a n : Nat) (bs : List Byte) : Memory :=
  m.filter (fun c => c.1 < a) ++ Memory.cells a (bs.take n) ++ m.filter (fun c => a + n ≤ c.1)

/-- The `n` bytes from offset `a` on, for the buffers whose every byte holds a value. -/
def Memory.bytes (m : Memory) (a n : Nat) : List Byte :=
  (List.range n).map fun i => (m.read (a + i)).getD 0

/-- The canonical form: offsets strictly rising, and no cell equal to what its offset reads as unlisted. -/
abbrev Memory.wf (m : Memory) : Prop :=
  m.Pairwise (fun c d => c.1 < d.1) ∧ ∀ c ∈ m, Memory.unlisted c.1 ≠ some c.2

/-! ## Bytes of words -/

/-- The four bytes of a word, least significant first (R86). -/
def wordBytes (w : Word) : List Byte :=
  [w.extractLsb' 0 8, w.extractLsb' 8 8, w.extractLsb' 16 8, w.extractLsb' 24 8]

/-- The word of up to four bytes, the first the least significant, the missing ones 0 (R83, R86). -/
def wordOfBytes : List Byte → Word
  | [] => 0
  | b :: bs => b.setWidth 32 ||| (wordOfBytes bs <<< 8)

/-- `bs` followed by zeros up to `n` bytes. -/
def padTo (n : Nat) (bs : List Byte) : List Byte := bs ++ List.replicate (n - bs.length) 0

/-! ## How a command ends -/

/-- The end of a command's own pseudocode: completion, an error with the writes made before it, or a
fault of the model. -/
inductive CmdEnd where
  | done (e : Engine)
  | raised (c : ErrCode) (e : Engine)
  | fault (f : Fault)
  deriving Repr

/-- A check or a helper of a command that does not go through: the error it raises, or a fault. -/
inductive Halt where
  | raise (c : ErrCode)
  | fault (f : Fault)
  deriving DecidableEq, Repr

/-- `raise E` (R292): ERR takes the code and ANYERR is set; every earlier write stands and nothing else is
written. The block's whole exception entry: it saves no state, changes no mode and goes nowhere (R296). -/
def Engine.raise (e : Engine) (c : ErrCode) : Engine := { e with err := c, anyErr := true }

/-- `STATUS.ERR <- 0x00`, with which every command starts (R293). ANYERR stays: there is no return from an
error and nothing to restore (R297). -/
def Engine.clearErr (e : Engine) : Engine := { e with err := .noError }

/-- The outcome of a command's end: the engine as the command left it, with the error recorded if there is
one. The command always completes (R292); only a model's fault stops. -/
def State.finish (s : State) : CmdEnd → Host.Outcome State Fault Refusal
  | .done e => .next { s with cur := e }
  | .raised c e => .next { s with cur := e.raise c }
  | .fault f => .fault f

/-- A command run on the addressed engine: ERR cleared first (R293), then the command's own pseudocode. -/
def State.command (s : State) (body : Params → Engine → CmdEnd) : Host.Outcome State Fault Refusal :=
  s.finish (body s.params s.cur.clearErr)

/-! ## Engines -/

/-- The engines in the order of their numbers (R310). -/
def State.engines (s : State) : List Engine := s.below ++ s.cur :: s.above

/-- The state with engine `k` as the addressed one; none if the block has no engine `k` (R81). -/
def State.focus (s : State) (k : Nat) : Option State :=
  match s.engines[k]? with
  | none => none
  | some e => some { s with below := s.engines.take k, cur := e, above := s.engines.drop (k + 1) }

/-- The block-relative address of the addressed engine's base (R81). -/
def State.base (s : State) : Nat := engineStride * s.below.length

end Sys2Proof.Machine
end

