-- ==== Sys2Proof/Machine/Flags.lean ====
section
/-! DEFINITION. The codes and the packed views of the registers (10_state.md R35, R38, R43, R45, R46, R52,
60_exceptions.md R290, R291), and every computation of a status flag (R56 to R59). -/

namespace Sys2Proof.Machine

/-! ## Codes -/

/-- The code of an error (R290). -/
def ErrCode.code : ErrCode → Byte
  | .noError => 0x00
  | .illegalCommand => 0x01
  | .badOperand => 0x02
  | .badConfig => 0x03
  | .noTrack => 0x04
  | .trackOverflow => 0x05
  | .noFlux => 0x06
  | .prologueNotFound => 0x07
  | .readPastEnd => 0x08
  | .illegalNibble => 0x09
  | .sectorChecksumError => 0x0A
  | .variantUnsupported => 0x0C

/-- The code of a sector status (R291). -/
def SectorStatus.code : SectorStatus → Byte
  | .ok => 0x00
  | .readPastEnd => 0x08
  | .illegalNibble => 0x09
  | .sectorChecksumError => 0x0A
  | .addrChecksumError => 0x0B
  | .variantUnsupported => 0x0C
  | .dataFieldAbsent => 0x0D

/-- The code of a reason for a SCAN's end (R59). -/
def StopCode.code : StopCode → BitVec 4
  | .noScan => 0
  | .count => 1
  | .noMatch => 2
  | .duplicate => 3
  | .noPrologue => 4
  | .noTrack => 5
  | .aborted => 6

/-- The code of VARIANT (R43). -/
def variantCode : Option Variant → BitVec 2
  | none => 0
  | some .s13 => 1
  | some .s16 => 2
  | some .gcr35 => 3

/-- The command error that a field error is (R290). -/
def errOfField : FieldError → ErrCode
  | .readPastEnd => .readPastEnd
  | .illegalNibble => .illegalNibble
  | .sectorChecksum => .sectorChecksumError

/-- The sector status that a field error is (R291). -/
def statusOfField : FieldError → SectorStatus
  | .readPastEnd => .readPastEnd
  | .illegalNibble => .illegalNibble
  | .sectorChecksum => .sectorChecksumError

/-! ## Packed registers -/

/-- STATUS as the host reads it (R35): STOP [19:16], ERR [15:8], SECTFAIL [4], ANYERR [3], DVALID [2],
FOUND [1]; BUSY [0] and the reserved bits read 0. -/
def statusWord (e : Engine) : Word :=
  (0 : BitVec 12) ++ e.stop.code ++ e.err.code ++ (0 : BitVec 3) ++ BitVec.ofBool e.sectFail ++
    BitVec.ofBool e.anyErr ++ BitVec.ofBool e.dvalid ++ BitVec.ofBool e.found ++ (0 : BitVec 1)

/-- CFG as the host reads it (R38): A35POL [12], BOOTFMT [11:8], DISKTYPE [7:4], VERSION [3:0]. -/
def cfgWord (e : Engine) : Word :=
  (0 : BitVec 19) ++ BitVec.ofBool e.cfgA35pol ++ e.cfgBootFmt ++ e.cfgDiskType ++ e.cfgVersion

/-- A host write of `w` to CFG (R38): every field takes its bits, the reserved bits are ignored. -/
def writeCfg (e : Engine) (w : Word) : Engine :=
  { e with
    cfgVersion := w.extractLsb' 0 4
    cfgDiskType := w.extractLsb' 4 4
    cfgBootFmt := w.extractLsb' 8 4
    cfgA35pol := w.getLsbD 12 }

/-- The fields of a decoded address field (R177, R241, R243). -/
structure AddrField where
  track : BitVec 16
  sector : Byte
  volSide : Byte
  stChk : Byte
  format : Byte
  chkOk : Bool
  deriving DecidableEq, Repr

/-- The layout of AFA and SAFA (R45): VOLSIDE, SECTOR, TRACK. -/
def afaOf (f : AddrField) : Word := f.volSide ++ f.sector ++ f.track

/-- The layout of AFB and SAFB (R46): CHKOK, FORMAT, STCHK. -/
def afbOf (f : AddrField) : BitVec 17 := BitVec.ofBool f.chkOk ++ f.format ++ f.stChk

/-- The layout of an entry's SST word (R52): PVALID [8], code [7:0]. PVALID is 1 exactly when the code is
OK (R291). -/
def sstOf (st : SectorStatus) : Word :=
  (0 : BitVec 23) ++ BitVec.ofBool (st = .ok) ++ st.code

/-! ## Flags -/

/-- FOUND is written by FIND, SELV and SCAN (R56). -/
def Engine.setFound (e : Engine) (b : Bool) : Engine := { e with found := b }

/-- DVALID and DLEN cleared: what a host write to TBUF or BITCOUNT does to the memo (R39, R88). -/
def Engine.invalidate (e : Engine) : Engine := { e with dvalid := false, dlen := 0 }

/-- RESULT written (R36). -/
def Engine.setResult (e : Engine) (w : Word) : Engine := { e with result := w }

/-- The cursor moved: BITPOS to `pos`, and REVS grown by the wraps, modulo 2^32 (R41, R48). -/
def Engine.moveCursor (e : Engine) (pos wraps : Nat) : Engine :=
  { e with bitpos := BitVec.ofNat 32 pos, revs := e.revs + BitVec.ofNat 32 wraps }

/-- The decoded address field reported in AFA and AFB (R45, R46). -/
def Engine.setField (e : Engine) (f : AddrField) : Engine := { e with afa := afaOf f, afb := afbOf f }

/-- VARIANT written (R43). -/
def Engine.setVariant (e : Engine) (v : Option Variant) : Engine := { e with variant := v }

/-- STOP written (R59). -/
def Engine.setStop (e : Engine) (c : StopCode) : Engine := { e with stop := c }

end Sys2Proof.Machine
end

