-- ==== Sys2Proof/Machine/Operands.lean ====
section
/-! DEFINITION. The operands of the commands: the immediate fields (30_encoding.md R112, R113), the offset
OPA, the track bits (20_memory.md R85), the decoded array (R87) and the payload in WBUF (R54). -/

namespace Sys2Proof.Machine

/-- V of format V6 as a 6-bit value (R112, R214: `v & 0x3F`). -/
def immV6 (v : Byte) : BitVec 6 := v.setWidth 6

/-- OPA as an offset into DBUF: a mathematical integer, so `OPA + k` never wraps (43_sector_codec.md, R113,
R148). -/
def opaOffset (e : Engine) : Nat := e.opa.toNat

/-- `TrackBit(i)` (R85): bit `7 - (i mod 8)` of TBUF[i >> 3]; a fault if nothing has written that byte
since reset (R50). -/
def trackBit (m : Memory) (i : Nat) : Except Fault Bool :=
  match m.read (tbufBase + i / 8) with
  | some b => .ok (b.getLsbD (7 - i % 8))
  | none => .error (.tbufUnwritten (i / 8))

/-- DBUF[0..DLEN), the bytes an engine read may reach (R87). -/
def decodedArray (e : Engine) : List Byte := e.mem.bytes dbufBase e.dlen.toNat

/-- WBUF[0..256), the payload that ED16 encodes (R54, R255). -/
def payloadIn (e : Engine) : List Byte := e.mem.bytes wbufBase payload525

/-- A decoded payload stored from WBUF[0] on (R54); the rest of WBUF stays. -/
def storePayload (e : Engine) (p : List Byte) : Engine :=
  { e with mem := e.mem.store wbufBase p.length p }

/-- The encoded disk bytes stored from NBUF[0] on (R55); the rest of NBUF stays. -/
def storeNibbles (e : Engine) (n : List Byte) : Engine :=
  { e with mem := e.mem.store nbufBase n.length n }

end Sys2Proof.Machine
end

