-- ==== Sys2Proof/Machine/Cursor.lean ====
section
/-! DEFINITION. The TrackCursor (40_track_cursor.md): TrackReady, NextBit, SyncByte, EnsureDBUF and FindFn, and
the commands CRST, NBIT, NBYTE, MAT and FIND. -/

namespace Sys2Proof.Machine

/-! ## Shared definitions -/

/-- `TrackReady()` (R145): the error it raises, or none. -/
def trackReady (P : Params) (e : Engine) : Option ErrCode :=
  if e.bitcount = 0 then some .noTrack
  else if 8 * P.tbufBytes < e.bitcount.toNat then some .trackOverflow
  else none

/-- A read of one track bit: the bit, the next position, and 1 if the read wrapped (R146). -/
structure BitRead where
  bit : Bool
  pos : Nat
  wraps : Nat
  deriving DecidableEq, Repr

/-- `NextBit(pos)` on a track of `bc` bits (R146). -/
def nextBit (m : Memory) (bc pos : Nat) : Except Fault BitRead :=
  match trackBit m pos with
  | .error f => .error f
  | .ok b => if pos + 1 = bc then .ok ⟨b, 0, 1⟩ else .ok ⟨b, pos + 1, 0⟩

/-- The end of a self-sync read (R146): the byte, the next position and the wraps; NoFlux with the position
and the wraps it reached; or a fault. -/
inductive Sync where
  | byte (v : Byte) (pos wraps : Nat)
  | noFlux (pos wraps : Nat)
  | fault (f : Fault)
  deriving DecidableEq, Repr

/-- The bits after the first 1 bit: `n` more of them shifted into `acc` (R146: "exactly 7 more bits
complete it"). -/
def syncShift (m : Memory) (bc : Nat) : (n pos wraps : Nat) → Byte → Sync
  | 0, pos, wraps, acc => .byte acc pos wraps
  | n + 1, pos, wraps, acc =>
    match nextBit m bc pos with
    | .error f => .fault f
    | .ok r => syncShift m bc n r.pos (wraps + r.wraps) ((acc <<< 1) ||| BitVec.setWidth 8 (BitVec.ofBool r.bit))

/-- The zero bits before the first 1 bit, at most `left` of them (R146: `z == BITCOUNT` fails with NoFlux). -/
def syncSkip (m : Memory) (bc : Nat) : (left pos wraps : Nat) → Sync
  | 0, pos, wraps => .noFlux pos wraps
  | left + 1, pos, wraps =>
    match nextBit m bc pos with
    | .error f => .fault f
    | .ok r =>
      if r.bit then syncShift m bc 7 r.pos (wraps + r.wraps) 1
      else syncSkip m bc left r.pos (wraps + r.wraps)

/-- `SyncByte(pos)` on a track of `bc` bits (R146), its loop cut where the accumulator becomes nonzero
(log entry 13). -/
def syncByte (m : Memory) (bc pos : Nat) : Sync := syncSkip m bc bc pos 0

/-- `n` self-sync bytes from position `pos` on, MAT's loop (R143). -/
def syncBytes (m : Memory) (bc : Nat) : (n pos : Nat) → Except Halt (List Byte)
  | 0, _ => .ok []
  | n + 1, pos =>
    match syncByte m bc pos with
    | .fault f => .error (.fault f)
    | .noFlux _ _ => .error (.raise .noFlux)
    | .byte v pos' _ =>
      match syncBytes m bc n pos' with
      | .error h => .error h
      | .ok ys => .ok (v :: ys)

/-- The length of the decoded array of a track of `bc` bits: ceil(bc / 8) + GUARD (R143). -/
def decodedLength (bc : Nat) : Nat := (bc + 7) / 8 + guardBytes

/-- What MAT writes once the array is read (R143): DBUF[0..L), zeros in the rest of DBUF, DLEN and DVALID. -/
def setDecoded (P : Params) (e : Engine) (ys : List Byte) : Engine :=
  { e with
    mem := e.mem.store dbufBase (P.tbufBytes + guardBytes) ys
    dlen := BitVec.ofNat 32 ys.length
    dvalid := true }

/-- `EnsureDBUF()` (R147), which is MAT's body (R143): nothing where DVALID = 1. -/
def ensureDbuf (P : Params) (e : Engine) : Except Halt Engine :=
  if e.dvalid then .ok e
  else
    match trackReady P e with
    | some c => .error (.raise c)
    | none =>
      match syncBytes e.mem e.bitcount.toNat (decodedLength e.bitcount.toNat) 0 with
      | .error h => .error h
      | .ok ys => .ok (setDecoded P e ys)

/-- `EnsureDBUF()`, its errors propagated, and then the rest of the command (R147). -/
def withDbuf (P : Params) (e : Engine) (rest : Engine → CmdEnd) : CmdEnd :=
  match ensureDbuf P e with
  | .error (.raise c) => .raised c e
  | .error (.fault f) => .fault f
  | .ok e' => rest e'

/-- The three bytes of a pattern stand at the head of `bs`. -/
def patternAtHead (p : Pattern) (bs : List Byte) : Bool := [p.b0, p.b1, p.b2].isPrefixOf bs

/-- The first offset of the pattern in `bs`, whose first byte has the offset `o`. -/
def findFrom (p : Pattern) : (o : Nat) → List Byte → Option Nat
  | _, [] => none
  | o, b :: bs => if patternAtHead p (b :: bs) then some o else findFrom p (o + 1) bs

/-- `FindFn(s, P0, P1, P2)` over the decoded array (R148). -/
def findFn (d : List Byte) (s : Nat) (p : Pattern) : Option Nat := findFrom p s (d.drop s)

/-! ## Commands -/

/-- CRST (R140): BITPOS and REVS to 0. -/
def execCrst (s : State) : Host.Outcome State Fault Refusal :=
  s.command fun _ e => .done { e with bitpos := 0, revs := 0 }

/-- NBIT (R141). -/
def execNbit (s : State) : Host.Outcome State Fault Refusal :=
  s.command fun P e =>
    match trackReady P e with
    | some c => .raised c e
    | none =>
      match nextBit e.mem e.bitcount.toNat e.bitpos.toNat with
      | .error f => .fault f
      | .ok r => .done ((e.moveCursor r.pos r.wraps).setResult (BitVec.setWidth 32 (BitVec.ofBool r.bit)))

/-- NBYTE (R142). -/
def execNbyte (s : State) : Host.Outcome State Fault Refusal :=
  s.command fun P e =>
    match trackReady P e with
    | some c => .raised c e
    | none =>
      match syncByte e.mem e.bitcount.toNat e.bitpos.toNat with
      | .fault f => .fault f
      | .noFlux pos wraps => .raised .noFlux (e.moveCursor pos wraps)
      | .byte v pos wraps => .done ((e.moveCursor pos wraps).setResult (v.setWidth 32))

/-- MAT (R143). -/
def execMat (s : State) : Host.Outcome State Fault Refusal :=
  s.command fun P e => withDbuf P e .done

/-- FIND P0 P1 P2 from OPA (R144). -/
def execFind (p0 p1 p2 : Byte) (s : State) : Host.Outcome State Fault Refusal :=
  s.command fun P e => withDbuf P e fun e =>
    match findFn (decodedArray e) (opaOffset e) ⟨p0, p1, p2⟩ with
    | none => .done ((e.setResult 0xFFFFFFFF).setFound false)
    | some o => .done ((e.setResult (BitVec.ofNat 32 o)).setFound true)

end Sys2Proof.Machine
end

