-- ==== Sys2Proof/Machine/Translator.lean ====
section
/-! DEFINITION. The NibbleTranslator (42_nibble_translator.md): the byte functions of the 6-and-2 and 4-and-4
variants, and the commands X62, U62, X44 and U44. -/

namespace Sys2Proof.Machine

/-! ## Byte functions -/

/-- `X62F(v)`, XLATE62's entry v (R214). -/
def x62f (P : Params) (v : BitVec 6) : Byte := P.xlate62[v.toNat]'v.isLt

/-- `UNX62(b)`, the value whose entry is b; IllegalNibble where b is not in L62 (R214). -/
def unx62 (P : Params) (b : Byte) : Except FieldError (BitVec 6) :=
  match P.xlate62.toList.findIdx? (· == b) with
  | some i => .ok (BitVec.ofNat 6 i)
  | none => .error .illegalNibble

/-- b is in L62, the 6-and-2 legal set (R210). -/
def legal62 (P : Params) (b : Byte) : Bool := P.xlate62.toList.contains b

/-- b is in L44, the 4-and-4 legal set (R210). -/
def legal44 (b : Byte) : Bool := b &&& 0xAA == 0xAA

/-- `Dec44(odds, evens)` (R215). -/
def dec44 (odds evens : Byte) : Byte := ((odds <<< 1) ||| 1) &&& evens

/-- The odds byte of `Enc44(v)` (R215). -/
def enc44Odds (v : Byte) : Byte := (v >>> 1) ||| 0xAA

/-- The evens byte of `Enc44(v)` (R215). -/
def enc44Evens (v : Byte) : Byte := v ||| 0xAA

/-- `Gather4(b)`, the four data bits of a 4-and-4 byte (R215). -/
def gather4 (b : Byte) : BitVec 4 :=
  BitVec.ofBool (b.getLsbD 6) ++ BitVec.ofBool (b.getLsbD 4) ++ BitVec.ofBool (b.getLsbD 2) ++
    BitVec.ofBool (b.getLsbD 0)

/-- `Spread4(n)`, the 4-and-4 byte of four data bits (R215). -/
def spread4 (n : BitVec 4) : Byte :=
  (1 : BitVec 1) ++ BitVec.ofBool (n.getLsbD 3) ++ (1 : BitVec 1) ++ BitVec.ofBool (n.getLsbD 2) ++
    (1 : BitVec 1) ++ BitVec.ofBool (n.getLsbD 1) ++ (1 : BitVec 1) ++ BitVec.ofBool (n.getLsbD 0)

/-! ## Commands -/

/-- X62 v (R212). -/
def execX62 (v : Byte) (s : State) : Host.Outcome State Fault Refusal :=
  s.command fun P e => .done (e.setResult ((x62f P (immV6 v)).setWidth 32))

/-- U62 b (R213): on an illegal byte RESULT is all ones before the error. -/
def execU62 (b : Byte) (s : State) : Host.Outcome State Fault Refusal :=
  s.command fun P e =>
    match unx62 P b with
    | .error f => .raised (errOfField f) (e.setResult 0xFFFFFFFF)
    | .ok v => .done (e.setResult (v.setWidth 32))

/-- X44 b (R216): odds in RESULT[15:8], evens in RESULT[7:0]. -/
def execX44 (b : Byte) (s : State) : Host.Outcome State Fault Refusal :=
  s.command fun _ e => .done (e.setResult ((0 : BitVec 16) ++ enc44Odds b ++ enc44Evens b))

/-- U44 bo be (R217). -/
def execU44 (bo be : Byte) (s : State) : Host.Outcome State Fault Refusal :=
  s.command fun _ e => .done (e.setResult ((dec44 bo be).setWidth 32))

end Sys2Proof.Machine
end

