-- ==== Sys2Proof/Machine/Codec.lean ====
section
/-! DEFINITION. The SectorCodec and the checksum validator (43_sector_codec.md): the address-field decoders,
the 16-sector data field in both directions, the open 13-sector and 3.5" data decoders, and the commands DA44,
DA35, DD16, ED16, DD13 and DD35. A field decoder reads the decoded array `d` = DBUF[0..DLEN) (R87). -/

namespace Sys2Proof.Machine

/-! ## Address fields -/

/-- `Decode44Addr(a)` (R241). Neither the prologue nor the epilogue is read (R244). -/
def decode44Addr (d : List Byte) (a : Nat) : Except FieldError AddrField :=
  if d.length < a + 11 then .error .readPastEnd
  else
    let vol := dec44 (d.getD (a + 3) 0) (d.getD (a + 4) 0)
    let trk := dec44 (d.getD (a + 5) 0) (d.getD (a + 6) 0)
    let sec := dec44 (d.getD (a + 7) 0) (d.getD (a + 8) 0)
    let chk := dec44 (d.getD (a + 9) 0) (d.getD (a + 10) 0)
    .ok { track := trk.setWidth 16
          sector := sec
          volSide := vol
          stChk := chk
          format := 0
          chkOk := vol ^^^ trk ^^^ sec == chk }

/-- The fields of the five 6-bit values of a 3.5" address field (R243). -/
def fieldOf35 (b1 sec b3 fmt chk : BitVec 6) : AddrField where
  track := (b1.setWidth 16 &&& 0x3F) ||| ((b3.setWidth 16 &&& 0x1F) <<< 6)
  sector := sec.setWidth 8
  volSide := (b3.setWidth 8 &&& 0x20) >>> 5
  stChk := chk.setWidth 8
  format := fmt.setWidth 8
  chkOk := b1 ^^^ sec ^^^ b3 ^^^ fmt == chk

/-- `Decode35Addr(a)` (R243): all five bytes are 6-and-2 decoded before any field is formed. -/
def decode35Addr (P : Params) (d : List Byte) (a : Nat) : Except FieldError AddrField :=
  if d.length < a + 8 then .error .readPastEnd
  else
    match unx62 P (d.getD (a + 3) 0), unx62 P (d.getD (a + 4) 0), unx62 P (d.getD (a + 5) 0),
      unx62 P (d.getD (a + 6) 0), unx62 P (d.getD (a + 7) 0) with
    | .ok b1, .ok sec, .ok b3, .ok fmt, .ok chk => .ok (fieldOf35 b1 sec b3 fmt chk)
    | _, _, _, _, _ => .error .illegalNibble

/-! ## The 16-sector data field -/

/-- `REV2`, the 2-bit reversal (R245). -/
def rev2 (g : BitVec 2) : BitVec 2 :=
  match g.toNat with
  | 0 => 0b00
  | 1 => 0b10
  | 2 => 0b01
  | _ => 0b11

/-- The 6-bit values of disk bytes; the first illegal byte fails (R251 step 1). -/
def unx62All (P : Params) : List Byte → Except FieldError (List (BitVec 6))
  | [] => .ok []
  | b :: bs =>
    match unx62 P b with
    | .error f => .error f
    | .ok v =>
      match unx62All P bs with
      | .error f => .error f
      | .ok vs => .ok (v :: vs)

/-- The translated byte of a 6-bit value (R251 step 1): shifted left by 2, its 2 low bits 0. -/
def translatedByte (v : BitVec 6) : Byte := v.setWidth 8 <<< 2

/-- The backward running XOR over t[1..342] (R251 step 2): entry i is t[i+1] ^ t[i+2] ^ ... ^ t[342]. -/
def backChain : List Byte → List Byte
  | [] => []
  | t :: ts => (t ^^^ (backChain ts).headD 0) :: backChain ts

/-- The low two bits of payload byte c, from the auxiliary bytes of the reconstructed buffer (R253). -/
def auxBits (r : List Byte) (c : Nat) : BitVec 2 :=
  if c < 86 then (r.getD c 0).extractLsb' 2 2
  else if c < 172 then (r.getD (c - 86) 0).extractLsb' 4 2
  else (r.getD (c - 172) 0).extractLsb' 6 2

/-- Payload byte c of the reconstructed buffer (R251 step 3). -/
def payloadByte (r : List Byte) (c : Nat) : Byte :=
  r.getD (aux16 + c) 0 ||| (rev2 (auxBits r c)).setWidth 8

/-- Steps 2 and 3 of R251 on the 343 translated values `t`: the checksum check (R252) and the payload. -/
def payloadOf (t : List Byte) : Except FieldError (List Byte) :=
  let r := backChain t.tail
  if r.headD 0 = t.headD 0 then .ok ((List.range payload525).map (payloadByte r))
  else .error .sectorChecksum

/-- `DecodeData16(d)` on the data field whose prologue starts at offset `a` (R251). -/
def decodeData16 (P : Params) (d : List Byte) (a : Nat) : Except FieldError (List Byte) :=
  if d.length < a + 3 + data16Nibbles then .error .readPastEnd
  else
    match unx62All P ((d.drop (a + 3)).take data16Nibbles) with
    | .error f => .error f
    | .ok vs => payloadOf (vs.map translatedByte)

/-- Auxiliary value k of the encoder (R256): the reversed low bits of payload bytes k, k + 86 and, where it
exists, k + 172. -/
def auxValue (p : List Byte) (k : Nat) : BitVec 6 :=
  (rev2 ((p.getD k 0).setWidth 2)).setWidth 6 |||
    ((rev2 ((p.getD (k + 86) 0).setWidth 2)).setWidth 6 <<< 2) |||
    (if k + 172 < 256 then (rev2 ((p.getD (k + 172) 0).setWidth 2)).setWidth 6 <<< 4 else 0)

/-- The 342 unshifted 6-bit values of a payload (R256). -/
def splitPayload (p : List Byte) : List (BitVec 6) :=
  (List.range aux16).map (auxValue p) ++ (List.range payload525).map fun c => (p.getD c 0).extractLsb' 2 6

/-- The forward running XOR and its appended checksum (R256). -/
def forwardChain : (prev : BitVec 6) → List (BitVec 6) → List (BitVec 6)
  | prev, [] => [prev]
  | prev, v :: vs => (v ^^^ prev) :: forwardChain v vs

/-- `EncodeData16(P)`, the 343 disk bytes of a 256-byte payload (R256). -/
def encodeData16 (P : Params) (p : List Byte) : List Byte := (forwardChain 0 (splitPayload p)).map (x62f P)

/-! ## The 13-sector and 3.5" data fields -/

/-- What an open data decoder answers: the parameter is absent, or its result (R260 to R263). -/
inductive OpenDecode where
  | absent
  | present (r : Except FieldError (List Byte))
  deriving DecidableEq

/-- The 13-sector data field at offset `a` (R261): DECODE13 reads DBUF[a..DLEN) alone. -/
def decodeData13 (P : Params) (d : List Byte) (a : Nat) : OpenDecode :=
  if P.hasDecode13 then .present ((Config.decode13 (d.drop a)).map Vector.toList) else .absent

/-- The 3.5" data field at offset `a` (R263): DECODE35 answers 524 bytes, of which the 12 tag bytes are
discarded. -/
def decodeData35 (P : Params) (d : List Byte) (a : Nat) : OpenDecode :=
  if P.hasDecode35 then
    .present ((Config.decode35 (d.drop a)).map fun v => v.toList.drop tag35)
  else .absent

/-! ## Commands -/

/-- The end of an address-field command (R240, R242): AFA and AFB, or the field's error. -/
def fieldEnd (e : Engine) : Except FieldError AddrField → CmdEnd
  | .ok f => .done (e.setField f)
  | .error f => .raised (errOfField f) e

/-- The end of a data-field command (R250, R260, R262): the payload in WBUF, or the field's error with WBUF
unchanged. -/
def payloadEnd (e : Engine) : Except FieldError (List Byte) → CmdEnd
  | .ok p => .done (storePayload e p)
  | .error f => .raised (errOfField f) e

/-- The end of a command over an open data decoder (R260, R262). -/
def openEnd (e : Engine) : OpenDecode → CmdEnd
  | .absent => .raised .variantUnsupported e
  | .present r => payloadEnd e r

/-- DA44 (R240). -/
def execDa44 (s : State) : Host.Outcome State Fault Refusal :=
  s.command fun P e => withDbuf P e fun e => fieldEnd e (decode44Addr (decodedArray e) (opaOffset e))

/-- DA35 (R242). -/
def execDa35 (s : State) : Host.Outcome State Fault Refusal :=
  s.command fun P e => withDbuf P e fun e => fieldEnd e (decode35Addr P (decodedArray e) (opaOffset e))

/-- DD16 (R250). -/
def execDd16 (s : State) : Host.Outcome State Fault Refusal :=
  s.command fun P e => withDbuf P e fun e => payloadEnd e (decodeData16 P (decodedArray e) (opaOffset e))

/-- ED16 (R255). -/
def execEd16 (s : State) : Host.Outcome State Fault Refusal :=
  s.command fun P e => .done (storeNibbles e (encodeData16 P (payloadIn e)))

/-- DD13 (R260). -/
def execDd13 (s : State) : Host.Outcome State Fault Refusal :=
  s.command fun P e => withDbuf P e fun e => openEnd e (decodeData13 P (decodedArray e) (opaOffset e))

/-- DD35 (R262). -/
def execDd35 (s : State) : Host.Outcome State Fault Refusal :=
  s.command fun P e => withDbuf P e fun e => openEnd e (decodeData35 P (decodedArray e) (opaOffset e))

end Sys2Proof.Machine
end

