-- ==== Sys2Proof/Machine/Parser.lean ====
section
/-! DEFINITION. The TrackParser (41_track_parser.md): CFG's check, the variant's selection, the sector scan,
and the commands SELV and SCAN. -/

namespace Sys2Proof.Machine

/-! ## Shared definitions -/

/-- `CfgCheck()` passes (R170). -/
def cfgOk (e : Engine) : Bool :=
  (e.cfgVersion == 1 || e.cfgVersion == 2) && (e.cfgDiskType == 1 || e.cfgDiskType == 2) &&
    !(e.cfgVersion == 2 && e.cfgDiskType == 1 && decide (3 < e.cfgBootFmt.toNat))

/-- `PRO(v)`, the address prologue of a variant (R173). -/
def prologueOf (P : Params) : Variant → Pattern
  | .s16 => P.pro16
  | .s13 => P.pro13
  | .gcr35 => P.pro35

/-- `SPT(v)`, the target sector count (R176). -/
def targetCount (P : Params) (e : Engine) : Variant → Nat
  | .s16 => spt16
  | .s13 => spt13
  | .gcr35 => P.spt35[e.trkidx.toNat]'e.trkidx.isLt

/-- `SelectVariant()` over the decoded array `d` (R172). -/
def selectVariant (P : Params) (e : Engine) (d : List Byte) : Option Variant :=
  if e.cfgDiskType = 2 then some .gcr35
  else if e.cfgVersion = 2 ∧ e.cfgBootFmt = 1 then some .s16
  else if e.cfgVersion = 2 ∧ e.cfgBootFmt = 2 then some .s13
  else if (findFn d 0 P.pro16).isSome then some .s16
  else if (findFn d 0 P.pro13).isSome then some .s13
  else none

/-- `DecodeAddr(v, a)` (R177). -/
def decodeAddr (P : Params) (v : Variant) (d : List Byte) (a : Nat) : Except FieldError AddrField :=
  match v with
  | .s16 => decode44Addr d a
  | .s13 => decode44Addr d a
  | .gcr35 => decode35Addr P d a

/-- The data-field search for the address field at `a` (R179): DOFF, or none for absent. -/
def dataOffset (d : List Byte) (a : Nat) : Option Nat :=
  match findFn d (a + dataSkip) dataPrologue with
  | none => none
  | some o => if dataWindow < o - a then none else some o

/-- One recorded sector: the source's Sector record (R52). `payload` is empty unless the status is OK. -/
structure SectorEntry where
  aoff : Nat
  doff : Option Nat
  field : AddrField
  status : SectorStatus
  payload : List Byte
  deriving DecidableEq, Repr

/-- The status and the payload of a data-field decode (R182). -/
def statusOf : Except FieldError (List Byte) → SectorStatus × List Byte
  | .ok p => (.ok, p)
  | .error f => (statusOfField f, [])

/-- The status and the payload of an open data decode (R182). -/
def statusOfOpen : OpenDecode → SectorStatus × List Byte
  | .absent => (.variantUnsupported, [])
  | .present r => statusOf r

/-- The data decode of an entry with data offset `doff` (R182). -/
def decodeEntry (P : Params) (v : Variant) (d : List Byte) (doff : Option Nat) :
    SectorStatus × List Byte :=
  match doff with
  | none => (.dataFieldAbsent, [])
  | some o =>
    match v with
    | .s16 => statusOf (decodeData16 P d o)
    | .s13 => statusOfOpen (decodeData13 P d o)
    | .gcr35 => statusOfOpen (decodeData35 P d o)

/-- The policy of R178 makes this field an AddrChecksumError: a 3.5" field with CHKOK = 0 and A35POL = 1. -/
def addrRejected (e : Engine) (v : Variant) (f : AddrField) : Bool :=
  v == .gcr35 && !f.chkOk && e.cfgA35pol

/-- The entry recorded for the address field `f` at offset `a` (R175, R178, R179, R182). -/
def entryOf (P : Params) (e : Engine) (v : Variant) (d : List Byte) (a : Nat) (f : AddrField) : SectorEntry :=
  let doff := dataOffset d a
  let end_ := if addrRejected e v f then (.addrChecksumError, []) else decodeEntry P v d doff
  { aoff := a, doff := doff, field := f, status := end_.1, payload := end_.2 }

/-- The sector number of `f` repeats one already recorded, whatever its status (R180). -/
def isDuplicate (entries : List SectorEntry) (f : AddrField) : Bool :=
  entries.any fun x => x.field.sector == f.sector

/-- SCAN's loop (R175): the offsets of `rest` in rising order, the first being `a`, of which those with the
address prologue are the matches the spec's repeated `FindFn(a + 1, PRO(v))` visits (log entry 14). A match
whose field does not decode is skipped (R177). -/
def scanFrom (P : Params) (e : Engine) (v : Variant) (d : List Byte) :
    (a : Nat) → (rest : List Byte) → List SectorEntry → List SectorEntry × StopCode
  | _, [], entries => (entries, .noMatch)
  | a, b :: rest, entries =>
    if patternAtHead (prologueOf P v) (b :: rest) then
      match decodeAddr P v d a with
      | .error _ => scanFrom P e v d (a + 1) rest entries
      | .ok f =>
        if isDuplicate entries f then (entries, .duplicate)
        else if entries.length + 1 = targetCount P e v then (entries ++ [entryOf P e v d a f], .count)
        else scanFrom P e v d (a + 1) rest (entries ++ [entryOf P e v d a f])
    else scanFrom P e v d (a + 1) rest entries

/-! ## The sector table -/

/-- The 32 bytes of an entry (R52), -1 in DOFF for an absent data field. -/
def entryBytes (x : SectorEntry) : List Byte :=
  wordBytes (BitVec.ofNat 32 x.aoff) ++
    wordBytes (match x.doff with | none => 0xFFFFFFFF | some o => BitVec.ofNat 32 o) ++
    wordBytes (afaOf x.field) ++ wordBytes ((afbOf x.field).setWidth 32) ++
    wordBytes (sstOf x.status) ++ List.replicate 12 0

/-- The bytes of the table's entries, in the order found (R52). -/
def tableBytes (entries : List SectorEntry) : List Byte := entries.flatMap entryBytes

/-- The bytes of the payload slots, each of 512 bytes (R53). -/
def slotBytes (entries : List SectorEntry) : List Byte := entries.flatMap fun x => padTo 512 x.payload

/-- SECT and PBUF hold exactly these entries, zeros after them (R52, R53, R175). -/
def storeTable (e : Engine) (entries : List SectorEntry) : Engine :=
  { e with
    mem := (e.mem.store sectBase 512 (tableBytes entries)).store pbufBase 8192 (slotBytes entries)
    scount := BitVec.ofNat 32 entries.length }

/-- SCAN's start (R175): an empty table, SECTFAIL 0, STOP ABORTED. -/
def startScan (e : Engine) : Engine :=
  { storeTable e [] with sectFail := false, stop := .aborted }

/-- SCAN's end (R175 `done`): the table, STOP, and SECTFAIL by R58. -/
def endScan (e : Engine) (r : List SectorEntry × StopCode) : Engine :=
  { storeTable e r.1 with stop := r.2, sectFail := r.1.any fun x => x.status != .ok }

/-! ## Commands -/

/-- SELV (R171). -/
def execSelv (s : State) : Host.Outcome State Fault Refusal :=
  s.command fun P e =>
    if cfgOk e then
      withDbuf P e fun e =>
        match selectVariant P e (decodedArray e) with
        | none => .raised .prologueNotFound ((e.setVariant none).setFound false)
        | some v =>
          match findFn (decodedArray e) 0 (prologueOf P v) with
          | none => .raised .prologueNotFound ((e.setVariant (some v)).setFound false)
          | some _ => .done ((e.setVariant (some v)).setFound true)
    else .raised .badConfig e

/-- SCAN's search once the decoded array is there (R175). -/
def scanTrack (P : Params) (e : Engine) : CmdEnd :=
  let d := decodedArray e
  match selectVariant P e d with
  | none => .raised .prologueNotFound (((e.setVariant none).setFound false).setStop .noPrologue)
  | some v =>
    match findFn d 0 (prologueOf P v) with
    | none => .raised .prologueNotFound (((e.setVariant (some v)).setFound false).setStop .noPrologue)
    | some _ => .done (endScan ((e.setVariant (some v)).setFound true) (scanFrom P e v d 0 d []))

/-- SCAN (R175). -/
def execScan (s : State) : Host.Outcome State Fault Refusal :=
  s.command fun P e =>
    let e := startScan e
    if cfgOk e then
      if e.bitcount = 0 then .done ((e.setVariant none).setStop .noTrack)
      else withDbuf P e (scanTrack P)
    else .raised .badConfig e

end Sys2Proof.Machine
end

