-- ==== Sys2Proof/Machine/Dispatch.lean ====
section
/-! DEFINITION. The one dispatch over the commands: an arm for each constructor of `Instr`. -/

namespace Sys2Proof.Machine

def exec (i : Instr) (s : State) : Host.Outcome State Fault Refusal :=
  match i with
  | .crst => Sys2Proof.Machine.execCrst s
  | .nbit => Sys2Proof.Machine.execNbit s
  | .nbyte => Sys2Proof.Machine.execNbyte s
  | .mat => Sys2Proof.Machine.execMat s
  | .find p0 p1 p2 => Sys2Proof.Machine.execFind p0 p1 p2 s
  | .selv => Sys2Proof.Machine.execSelv s
  | .scan => Sys2Proof.Machine.execScan s
  | .da44 => Sys2Proof.Machine.execDa44 s
  | .da35 => Sys2Proof.Machine.execDa35 s
  | .dd16 => Sys2Proof.Machine.execDd16 s
  | .ed16 => Sys2Proof.Machine.execEd16 s
  | .x62 v => Sys2Proof.Machine.execX62 v s
  | .u62 b => Sys2Proof.Machine.execU62 b s
  | .x44 b => Sys2Proof.Machine.execX44 b s
  | .u44 bo be => Sys2Proof.Machine.execU44 bo be s
  | .dd13 => Sys2Proof.Machine.execDd13 s
  | .dd35 => Sys2Proof.Machine.execDd35 s

end Sys2Proof.Machine
end

