-- ==== Sys2Proof/Machine/HostPort.lean ====
section
/-! DEFINITION. The host port (20_memory.md R80 to R90): the windows, the register window's reads and writes,
the buffer windows' reads and writes, the issue of a command word (30_encoding.md R110, R111), the reset input
(70_reset_and_hazards.md R330), and the host-program statements (R118, R119). -/

namespace Sys2Proof.Machine

/-! ## Windows -/

/-- The buffer windows (R81). -/
inductive Window where
  | tbuf
  | dbuf
  | sect
  | pbuf
  | wbuf
  | nbuf
  deriving DecidableEq, Repr

/-- A window's offset from the engine's base (R81). -/
def Window.base : Window → Nat
  | .tbuf => tbufBase
  | .dbuf => dbufBase
  | .sect => sectBase
  | .pbuf => pbufBase
  | .wbuf => wbufBase
  | .nbuf => nbufBase

/-- A window's size in bytes (R81). -/
def Window.size (P : Params) : Window → Nat
  | .tbuf => P.tbufBytes
  | .dbuf => P.tbufBytes + guardBytes
  | .sect => 512
  | .pbuf => 8192
  | .wbuf => 512
  | .nbuf => 512

/-- The host may write the window (R81). -/
def Window.writable : Window → Bool
  | .tbuf => true
  | .dbuf => false
  | .sect => false
  | .pbuf => false
  | .wbuf => true
  | .nbuf => true

/-- The window that holds all `n` bytes at `off`, if one does. -/
def windowOf (P : Params) (off n : Nat) : Option Window :=
  [Window.tbuf, .dbuf, .sect, .pbuf, .wbuf, .nbuf].find? fun w =>
    decide (w.base ≤ off ∧ off + n ≤ w.base + w.size P)

/-- The bytes of the REG window (R81). -/
def regWindow : Nat := 0x40

/-- The access is an aligned 32-bit access inside the REG window (R82). -/
def regAccess (n off : Nat) : Bool := decide (off < regWindow ∧ n = 4 ∧ off % 4 = 0)

/-- The access has one of the widths 1, 2 and 4 at a naturally aligned offset (R83). -/
def bufAccess (n off : Nat) : Bool := decide ((n = 1 ∨ n = 2 ∨ n = 4) ∧ off % n = 0)

/-! ## Reads -/

/-- What a read of the register at offset `off` returns (R33): CMD and the offsets not listed read 0. -/
def regRead (P : Params) (e : Engine) (off : Nat) : Word :=
  match off with
  | 0x00 => 0
  | 0x04 => statusWord e
  | 0x08 => e.result
  | 0x0C => e.opa
  | 0x10 => cfgWord e
  | 0x14 => e.bitcount
  | 0x18 => e.trkidx.setWidth 32
  | 0x1C => e.bitpos
  | 0x20 => e.dlen
  | 0x24 => (variantCode e.variant).setWidth 32
  | 0x28 => e.scount
  | 0x2C => e.afa
  | 0x30 => e.afb.setWidth 32
  | 0x34 => BitVec.ofNat 32 P.tbufBytes
  | _ => 0

/-- The byte a host read sees at offset `off` of the engine whose base is `base`: a TBUF byte never written
since reset has a free value (log entry 4). -/
def hostByte (s : State) (e : Engine) (base off : Nat) : Byte :=
  (e.mem.read off).getD (Config.tbufPowerOn s.resets (base + off))

/-- What a host read of `n` bytes at the block address `addr` returns; none for a BusError (R82, R83). -/
def hostRead (s : State) (n addr : Nat) : Option Word :=
  let off := addr % engineStride
  match s.engines[addr / engineStride]? with
  | none => none
  | some e =>
    if regAccess n off then some (regRead s.params e off)
    else if bufAccess n off && (windowOf s.params off n).isSome then
      some (wordOfBytes ((List.range n).map fun k => hostByte s e (addr - off) (off + k)))
    else none

/-! ## Writes -/

/-- A host write to BITCOUNT (R39): the memo is invalidated and the cursor reset. -/
def writeBitcount (e : Engine) (v : Word) : Engine :=
  { e.invalidate with bitcount := v, bitpos := 0, revs := 0 }

/-- A host write to a register other than CMD (R33): read-only registers and unlisted offsets ignore it. -/
def regWrite (e : Engine) (off : Nat) (v : Word) : Engine :=
  match off with
  | 0x0C => { e with opa := v }
  | 0x10 => writeCfg e v
  | 0x14 => writeBitcount e v
  | 0x18 => { e with trkidx := v.setWidth 8 }
  | _ => e

/-- A host write of the bytes `bs` at offset `off` of a buffer window (R83): into TBUF it also invalidates the
memo, whether or not a value changes (R88). -/
def bufWrite (e : Engine) (w : Window) (off : Nat) (bs : List Byte) : Engine :=
  let e' := { e with mem := e.mem.store off bs.length bs }
  if w = .tbuf then e'.invalidate else e'

/-- A command word that is no command (R111, R116): ERR and ANYERR alone. -/
def rejectWord (s : State) : DecodeError → Host.Outcome State Fault Refusal
  | .illegalCommand => s.command fun _ e => .raised .illegalCommand e
  | .badOperand => s.command fun _ e => .raised .badOperand e

/-- A host write of the word `w` to CMD of the addressed engine (R34, R111): the command runs to completion. -/
def issue (s : State) (w : Word) : Host.Outcome State Fault Refusal :=
  match decode w with
  | .ok i => exec i s
  | .error x => rejectWord s x

/-- A host write of the low `n` bytes of `v` at the block address `addr`. -/
def hostWrite (s : State) (n addr : Nat) (v : Word) : Host.Outcome State Fault Refusal :=
  let off := addr % engineStride
  match s.focus (addr / engineStride) with
  | none => .fault (.busError addr)
  | some s' =>
    if regAccess n off then
      if off = 0 then issue s' v else .next { s' with cur := regWrite s'.cur off v }
    else if bufAccess n off then
      match windowOf s.params off n with
      | none => .fault (.busError addr)
      | some w =>
        if w.writable then .next { s' with cur := bufWrite s'.cur w off ((wordBytes v).take n) }
        else .fault (.busError addr)
    else .fault (.busError addr)

/-! ## Reset and one access -/

/-- The reset input (R330): every engine as after reset, TBUF's contents unspecified again. The parameters
and the host's pending accesses are no part of what it resets (log entry 17). -/
def State.assertReset (s : State) : State :=
  { s with
    below := s.below.map fun _ => Engine.reset
    cur := Engine.reset
    above := s.above.map fun _ => Engine.reset
    rdata := none
    resets := s.resets + 1 }

/-- One access of the host port, or an assertion of reset. A read changes nothing of the block (R84). -/
def hostStep (s : State) : HostOp → Host.Outcome State Fault Refusal
  | .read n addr =>
    match hostRead s n addr with
    | none => .fault (.busError addr)
    | some v => .next { s with rdata := some v }
  | .write n addr v => hostWrite s n addr v
  | .reset => .next s.assertReset

/-- The host's next access is a write of the word `w` to CMD of the addressed engine. -/
def State.placeCommand (s : State) (w : Word) : State :=
  { s with inbox := .write 4 s.base w :: s.inbox }

/-! ## Host programs (R118, R119), for engine `k` -/

/-- The block address of offset `off` of engine `k` (R81). -/
def engineAddr (k off : Nat) : Nat := engineStride * k + off

/-- A command statement: the write of its word to CMD (R118). -/
def cmdOps (k : Nat) (i : Instr) : List HostOp := [.write 4 (engineAddr k 0) (encode i)]

/-- `WR <reg>, v` for the register at offset `off` (R118). -/
def wrOps (k off : Nat) (v : Word) : List HostOp := [.write 4 (engineAddr k off) v]

/-- `WB <window>+o, bytes`: 1-byte accesses at ascending offsets (R118). -/
def wbOps (k : Nat) (w : Window) : (o : Nat) → List Byte → List HostOp
  | _, [] => []
  | o, b :: bs => .write 1 (engineAddr k (w.base + o)) (b.setWidth 32) :: wbOps k w (o + 1) bs

/-- `RD <reg>` (R118). -/
def rdOps (k off : Nat) : List HostOp := [.read 4 (engineAddr k off)]

/-- `RB <window>+o, n` (R118). -/
def rbOps (k : Nat) (w : Window) (o n : Nat) : List HostOp :=
  (List.range n).map fun j => .read 1 (engineAddr k (w.base + o + j))

/-- `FINDAT P0 P1 P2, off` (R119). -/
def findAtOps (k : Nat) (p0 p1 p2 : Byte) (off : Word) : List HostOp :=
  wrOps k 0x0C off ++ cmdOps k (.find p0 p1 p2)

/-- `DECAT <cmd>, off` (R119), for one of the field decoders. -/
def decAtOps (k : Nat) (i : Instr) (off : Word) : List HostOp := wrOps k 0x0C off ++ cmdOps k i

/-- `LOADTRK bc, bytes` (R119): TBUF first, then BITCOUNT. -/
def loadTrkOps (k : Nat) (bc : Word) (bs : List Byte) : List HostOp :=
  wbOps k .tbuf 0 bs ++ wrOps k 0x14 bc

/-- `SETCFG ver, dt, bf, pol` (R119). -/
def setCfgOps (k : Nat) (ver dt bf pol : Word) : List HostOp :=
  wrOps k 0x10 ((pol <<< 12) ||| (bf <<< 8) ||| (dt <<< 4) ||| ver)

end Sys2Proof.Machine
end

