-- ==== Sys2Proof/Machine/Step.lean ====
section
/-! DEFINITION. One step of the machine: the next access of the host (10_state.md R30, R31). -/

namespace Sys2Proof.Machine

/-- One step: the host's oldest pending access. With none pending the block holds its state
(60_exceptions.md R314; log entry 1). -/
def step (s : State) : Host.Outcome State Fault Refusal :=
  match s.inbox with
  | [] => .next s
  | op :: ops => hostStep { s with inbox := ops } op

/-- The state whose next step issues the command word that opcode_table.json numbers as `w`: the host's
next access writes it to CMD (R31, R34). -/
def State.withFetchWord (s : State) (nbits w : Nat) : State := s.placeCommand (tableWord nbits w)

end Sys2Proof.Machine
end

