-- ==== Sys2Proof/Safety.lean ====
section
/-! DEFINITION. The words the claims are stated in: when the track can be read, what a consistent engine is, and
how a host reads a scan (41_track_parser.md R181). -/

namespace Sys2Proof.Machine

/-! ## Reading the track -/

/-- The track can be read: a bit count that TrackReady passes (R145), and every byte the bits stand in written
since reset (R333: "At least bytes [0..⌈bitCount/8⌉) must be written"). -/
def TrackLoaded (P : Params) (e : Engine) : Prop :=
  e.bitcount ≠ 0 ∧ e.bitcount.toNat ≤ 8 * P.tbufBytes ∧
    ∀ i < (e.bitcount.toNat + 7) / 8, (e.mem.read (tbufBase + i)).isSome = true

/-- Some bit of the track is 1: it is no track on which a self-sync read raises NoFlux (R146). -/
def HasFlux (e : Engine) : Prop := ∃ i < e.bitcount.toNat, trackBit e.mem i = .ok true

/-- A command that reads DBUF has a decoded array to read: the memo holds, or the track can be read (R147). -/
def DbufReady (P : Params) (e : Engine) : Prop := e.dvalid = true ∨ (TrackLoaded P e ∧ HasFlux e)

/-- The three bytes of `p` stand in `d` at offset `o`, wholly inside it (R148). -/
def OccursAt (p : Pattern) (d : List Byte) (o : Nat) : Prop :=
  d[o]? = some p.b0 ∧ d[o + 1]? = some p.b1 ∧ d[o + 2]? = some p.b2

/-- The pattern occurs somewhere in `d`. -/
def Occurs (p : Pattern) (d : List Byte) : Prop := ∃ o, OccursAt p d o

/-! ## Consistent engines -/

/-- BITPOS lies on the track: "always 0 <= BITPOS < max(BITCOUNT, 1)" (R41). -/
def CursorOk (e : Engine) : Prop := e.bitpos.toNat < max e.bitcount.toNat 1

/-- The memo (R42, R49, R51): with DVALID = 1 the track can be read, DLEN is the decoded array's length, DBUF
holds the array that MAT computes from the current TBUF and BITCOUNT, and zeros after it; with DVALID = 0,
DLEN is 0. -/
def MemoOk (P : Params) (e : Engine) : Prop :=
  (e.dvalid = false → e.dlen = 0) ∧
  (e.dvalid = true →
    TrackLoaded P e ∧
    e.dlen.toNat = decodedLength e.bitcount.toNat ∧
    syncBytes e.mem e.bitcount.toNat e.dlen.toNat 0 = .ok (decodedArray e) ∧
    ∀ j, e.dlen.toNat ≤ j → j < P.tbufBytes + guardBytes → e.mem.read (dbufBase + j) = some 0)

/-- Byte k of sector-table entry n (R52). -/
def sectByte (e : Engine) (n k : Nat) : Byte := (e.mem.read (sectBase + 32 * n + k)).getD 0

/-- Byte k of payload slot n (R53). -/
def slotByte (e : Engine) (n k : Nat) : Byte := (e.mem.read (pbufBase + 512 * n + k)).getD 0

/-- The sector table and the payload slots agree with SCOUNT and SECTFAIL (R44, R52, R53, R58, R180, R291):
at most 16 entries; zeros after them; reserved bytes 0; PVALID, byte 0x11, is 0 or 1, and 1 exactly for the
code OK, byte 0x10; a slot without PVALID is all zero; no two entries have one sector number, byte 0x0A; and
SECTFAIL says that some entry failed. -/
def TableOk (e : Engine) : Prop :=
  e.scount.toNat ≤ maxSectors ∧
  (∀ n < maxSectors, e.scount.toNat ≤ n → ∀ k < 32, sectByte e n k = 0) ∧
  (∀ n < maxSectors, ∀ k < 32, 0x12 ≤ k → sectByte e n k = 0) ∧
  (∀ n < e.scount.toNat, sectByte e n 0x11 = if sectByte e n 0x10 = 0 then 1 else 0) ∧
  (∀ n < maxSectors, sectByte e n 0x11 = 0 → ∀ k < 512, slotByte e n k = 0) ∧
  (∀ m n, m < n → n < e.scount.toNat → sectByte e m 0x0A ≠ sectByte e n 0x0A) ∧
  (e.sectFail = true ↔ ∃ n < e.scount.toNat, sectByte e n 0x10 ≠ 0)

/-- Every listed byte of the memory lies in a buffer window (R81). -/
def CellsMapped (P : Params) (m : Memory) : Prop :=
  ∀ c ∈ m, ∃ w : Window, w.base ≤ c.1 ∧ c.1 < w.base + w.size P

/-- An engine in which every consistency above holds. -/
def Engine.Inv (P : Params) (e : Engine) : Prop :=
  Memory.wf e.mem ∧ CellsMapped P e.mem ∧ CursorOk e ∧ MemoOk P e ∧ TableOk e ∧
    (e.err ≠ .noError → e.anyErr = true)

/-- A block with legal parameters whose engines are all consistent. -/
def State.Inv (s : State) : Prop := s.params.Ok ∧ ∀ e ∈ s.engines, e.Inv s.params

/-! ## How a host reads a scan -/

/-- The three outcomes the source requires callers to distinguish (R181). -/
inductive TrackOutcome where
  | fullyDecoded
  | partiallyDecoded
  | unreadable
  deriving DecidableEq, Repr

/-- The reading of one SCAN's outcome (R181): unreadable with an error or no track; else fully decoded with the
variant's target count of sectors and no failure; else partially decoded. -/
def trackOutcome (P : Params) (e : Engine) : TrackOutcome :=
  if e.err ≠ .noError ∨ e.stop = .noTrack then .unreadable
  else
    match e.variant with
    | none => .unreadable
    | some v =>
      if e.scount.toNat = targetCount P e v ∧ e.sectFail = false then .fullyDecoded else .partiallyDecoded

end Sys2Proof.Machine
end

