-- ==== Sys2Proof/Certificates/Slice0/Obligations.lean ====
section
/-! DEFINITION. The statements about the block, for the provers. Each is a `def Obligations.<Name> : Prop`. -/

open Sys2Proof Sys2Proof.Machine

namespace Sys2Proof.Certificates

/-! ## Words the statements are said in -/

/-- The engine with `raise E` done on it (R292). -/
def withError (e : Engine) (c : ErrCode) : Engine := { e with err := c, anyErr := true }

/-- The byte `k` of a word, counted from the least significant. -/
def byteOf (w : Word) (k : Nat) : Byte := w.extractLsb' (8 * k) 8

/-- CFG's fields are legal for a command that reads them (R38, R170). -/
def CfgLegal (e : Engine) : Prop :=
  (e.cfgVersion = 1 ∨ e.cfgVersion = 2) ∧ (e.cfgDiskType = 1 ∨ e.cfgDiskType = 2) ∧
    ¬(e.cfgVersion = 2 ∧ e.cfgDiskType = 1 ∧ 3 < e.cfgBootFmt.toNat)

/-- The command ends in error `c` and writes nothing else (R292, R293). -/
def EndsInError (o : Host.Outcome State Fault Refusal) (s : State) (c : ErrCode) : Prop :=
  o = .next { s with cur := withError s.cur c }

/-- The spec's own loop of SyncByte (R146), letter by letter: one bit read for each unit of fuel; none where
the fuel is used up. -/
def syncLoop (m : Memory) (bc : Nat) : (fuel pos z w : Nat) → (acc : Byte) → Option Sync
  | 0, _, _, _, _ => none
  | fuel + 1, pos, z, w, acc =>
    match nextBit m bc pos with
    | .error f => some (.fault f)
    | .ok r =>
      let w' := w + r.wraps
      let acc' := (acc <<< 1) ||| BitVec.setWidth 8 (BitVec.ofBool r.bit)
      if acc' = 0 ∧ z + 1 = bc then some (.noFlux r.pos w')
      else if acc'.getLsbD 7 then some (.byte acc' r.pos w')
      else syncLoop m bc fuel r.pos (if acc' = 0 then z + 1 else z) w' acc'

/-- The spec's own loop of SCAN (R175) from the match `a` on, with `FindFn(a + 1, PRO(v))` for the next
match: one match for each unit of fuel; none where the fuel is used up. -/
def scanLoop (P : Params) (e : Engine) (v : Variant) (d : List Byte) :
    (fuel a : Nat) → List SectorEntry → Option (List SectorEntry × StopCode)
  | 0, _, _ => none
  | fuel + 1, a, es =>
    match decodeAddr P v d a with
    | .error _ =>
      match findFn d (a + 1) (prologueOf P v) with
      | none => some (es, .noMatch)
      | some a' => scanLoop P e v d fuel a' es
    | .ok f =>
      if isDuplicate es f then some (es, .duplicate)
      else if es.length + 1 = targetCount P e v then some (es ++ [entryOf P e v d a f], .count)
      else
        match findFn d (a + 1) (prologueOf P v) with
        | none => some (es ++ [entryOf P e v d a f], .noMatch)
        | some a' => scanLoop P e v d fuel a' (es ++ [entryOf P e v d a f])

/-- The XOR of all values of a list. -/
def xorAll {n : Nat} (vs : List (BitVec n)) : BitVec n := vs.foldl (· ^^^ ·) 0

/-- The forward running XOR of the 343 values of a data field (R254). -/
def forwardAt (vs : List (BitVec 6)) (i : Nat) : BitVec 6 := xorAll (vs.take (i + 1))

/-- REV2 (R245): 00, 01, 10, 11 give 00, 10, 01, 11. -/
def swapBits (g : BitVec 2) : BitVec 2 := BitVec.ofBool (g.getLsbD 0) ++ BitVec.ofBool (g.getLsbD 1)

/-- D[k] of R256, the 6-bit value k of the payload whose bytes are `p`: for k below 86 the reversed low bit pairs
of bytes k, k + 86 and, where it exists, k + 172, the first lowest, the absent pair 0; then the six high bits of
byte k - 86. -/
def splitValue (p : Nat → Byte) (k : Nat) : BitVec 6 :=
  if k < 86 then
    (if k + 172 < 256 then swapBits ((p (k + 172)).setWidth 2) else 0) ++ swapBits ((p (k + 86)).setWidth 2) ++
      swapBits ((p k).setWidth 2)
  else (p (k - 86)).extractLsb' 2 6

/-- Payload byte c of a field whose forward running XOR is `r` (R253): six bits from value 86 + c, two reversed
bits from auxiliary value c mod 86. -/
def payloadFrom (r : Nat → BitVec 6) (c : Nat) : Byte :=
  ((r (86 + c)).setWidth 8 <<< 2) ||| (swapBits ((r (c % 86)).extractLsb' (2 * (c / 86)) 2)).setWidth 8

/-- Offset `x` lies outside the DBUF window (R81). -/
def OutsideDbuf (P : Params) (x : Nat) : Prop := x < dbufBase ∨ dbufBase + (P.tbufBytes + guardBytes) ≤ x

/-- A buffer range `[a, a + n)` does not hold the offset `x`. -/
def Outside (a n x : Nat) : Prop := x < a ∨ a + n ≤ x

/-- EnsureDBUF raises `c` (R147, R143, R145, R146): the memo does not hold, and the track is absent, larger than
TBUF, or written and all zero, where NoFlux is the spec's decision D8 (log entry 19). -/
def DbufError (P : Params) (e : Engine) (c : ErrCode) : Prop :=
  e.dvalid = false ∧
    ((c = .noTrack ∧ e.bitcount = 0) ∨
      (c = .trackOverflow ∧ 8 * P.tbufBytes < e.bitcount.toNat) ∨
      (c = .noFlux ∧ TrackLoaded P e ∧ ∀ i < e.bitcount.toNat, trackBit e.mem i = .ok false))

/-- The variant `o` that R172 selects for the decoded array `d` under CFG: DISKTYPE = 2 fixes GCR35, VERSION 2
with BOOTFMT 1 or 2 fixes S16 or S13, otherwise PRO16 anywhere in the array gives S16, else PRO13 gives S13, else
none. -/
def Selects (P : Params) (e : Engine) (d : List Byte) (o : Option Variant) : Prop :=
  let auto := e.cfgDiskType = 1 ∧ ¬(e.cfgVersion = 2 ∧ (e.cfgBootFmt = 1 ∨ e.cfgBootFmt = 2))
  (e.cfgDiskType = 2 → o = some .gcr35) ∧
  (e.cfgDiskType = 1 → e.cfgVersion = 2 → e.cfgBootFmt = 1 → o = some .s16) ∧
  (e.cfgDiskType = 1 → e.cfgVersion = 2 → e.cfgBootFmt = 2 → o = some .s13) ∧
  (auto → Occurs P.pro16 d → o = some .s16) ∧
  (auto → ¬Occurs P.pro16 d → Occurs P.pro13 d → o = some .s13) ∧
  (auto → ¬Occurs P.pro16 d → ¬Occurs P.pro13 d → o = none)

/-- PRO(v), the address prologue of a variant (R173). -/
def addressPrologue (P : Params) : Variant → Pattern
  | .s16 => P.pro16
  | .s13 => P.pro13
  | .gcr35 => P.pro35

/-- SPT(v), the target sector count of a variant on track index `trkidx` (R176). -/
def sectorTarget (P : Params) (trkidx : Byte) : Variant → Nat
  | .s16 => 16
  | .s13 => 13
  | .gcr35 => P.spt35[trkidx.toNat]'trkidx.isLt

/-- SECT from entry `n` on and PBUF from slot `n` on are all zero (R52, R53). -/
def TableZeroFrom (m : Memory) (n : Nat) : Prop :=
  (∀ k < 512, 32 * n ≤ k → m.read (sectBase + k) = some 0) ∧
    ∀ k < 8192, 512 * n ≤ k → m.read (pbufBase + k) = some 0

/-- Entry `n` of SECT holds the words of the sector record `x`, and slot `n` of PBUF its payload with zeros after
it (R52, R53, R291). -/
def EntryStored (m : Memory) (n : Nat) (x : SectorEntry) : Prop :=
  let word := fun k => wordOfBytes (m.bytes (sectBase + 32 * n + k) 4)
  word 0x00 = BitVec.ofNat 32 x.aoff ∧
  word 0x04 = (match x.doff with | none => 0xFFFFFFFF | some o => BitVec.ofNat 32 o) ∧
  word 0x08 = x.field.volSide ++ x.field.sector ++ x.field.track ∧
  word 0x0C = (BitVec.ofBool x.field.chkOk ++ x.field.format ++ x.field.stChk).setWidth 32 ∧
  (word 0x10).extractLsb' 0 8 = x.status.code ∧
  ((word 0x10).getLsbD 8 = true ↔ x.status = .ok) ∧
  (word 0x10).extractLsb' 9 23 = 0 ∧
  word 0x14 = 0 ∧ word 0x18 = 0 ∧ word 0x1C = 0 ∧
  m.bytes (pbufBase + 512 * n) 512 = x.payload ++ List.replicate (512 - x.payload.length) 0

/-- The status and the payload that the data decode `r` leaves in the sector record `x` (R182, R291). -/
def RecordsDecode (x : SectorEntry) : Except FieldError (List Byte) → Prop
  | .ok p => x.status = .ok ∧ x.payload = p
  | .error .readPastEnd => x.status = .readPastEnd ∧ x.payload = []
  | .error .illegalNibble => x.status = .illegalNibble ∧ x.payload = []
  | .error .sectorChecksum => x.status = .sectorChecksumError ∧ x.payload = []

/-- DBUF kept from `e` to `e'`: byte `x` is unchanged unless the command materialized the array (DVALID went
from 0 to 1) and `x` lies in DBUF. -/
def DbufStoredOnly (P : Params) (e e' : Engine) (x : Nat) : Prop :=
  e'.dvalid = e.dvalid ∨ OutsideDbuf P x

end Sys2Proof.Certificates

open Sys2Proof.Certificates

/-! ## Encoding -/

/-- Decoding the word of a well-formed command gives it back, with every operand at every value. -/
def Obligations.DecodeOfEncode : Prop :=
  ∀ i : Instr, i.wellFormed = true → decode (encode i) = .ok i

/-- Every word that decodes is the one word of its command. -/
def Obligations.EncodeOfDecode : Prop :=
  ∀ (w : Word) (i : Instr), decode w = .ok i → i.wellFormed = true ∧ encode i = w

/-- R114: a word selects the command of a row exactly when `w & mask == match`. -/
def Obligations.WordSelectsByMatchAndMask : Prop :=
  ∀ (w : Word) (k : Nat) (r : Word × Word), opcodeRows[k]? = some r →
    ((∃ i, decode w = .ok i ∧ i.row = k) ↔ w &&& r.2 = r.1)

/-- R115 and R116: OPC 0x00 and 0x12 to 0xFF raise IllegalCommand, a listed OPC whose mask fails raises
BadOperand, and either changes only ERR and ANYERR. -/
def Obligations.RejectedWordChangesOnlyErr : Prop :=
  ∀ (w : Word) (s : State),
    ((opcOf w).toNat = 0 ∨ 0x12 ≤ (opcOf w).toNat → EndsInError (issue s w) s .illegalCommand) ∧
    (1 ≤ (opcOf w).toNat → (opcOf w).toNat ≤ 0x11 → (∀ r ∈ opcodeRows, w &&& r.2 ≠ r.1) →
      EndsInError (issue s w) s .badOperand)

/-- Words written out from R114's patterns decode to the commands they stand for. -/
def Obligations.SampleWordsDecode : Prop :=
  decode 0b00000011000000000000000000000000#32 = .ok .nbyte ∧
  decode 0b00000101110101011010101010010110#32 = .ok (.find 0xD5 0xAA 0x96) ∧
  decode 0b00000111000000000000000000000000#32 = .ok .scan ∧
  decode 0b00001010000000000000000000000000#32 = .ok .dd16 ∧
  decode 0b00001100000000000000000000111111#32 = .ok (.x62 0x3F) ∧
  decode 0b00001111000000001111111110101110#32 = .ok (.u44 0xFF 0xAE)

/-! ## Steps -/

/-- A step whose host access writes a word to CMD of engine k runs the command the word decodes to, on engine
k: the step addresses the engine and takes the access off the host's list, and adds nothing else. A word placed
as the next access runs as the next step, on the state it was placed in (log entry 1; R31, R34, R111). -/
def Obligations.StepRunsDecodedCommand : Prop :=
  (∀ (s s' : State) (k : Nat) (w : Word) (i : Instr) (ops : List HostOp),
    s.inbox = .write 4 (engineAddr k 0) w :: ops → s.focus k = some s' → decode w = .ok i →
      step s = exec i { s' with inbox := ops }) ∧
  ∀ (s : State) (nbits w : Nat) (i : Instr), decode (tableWord nbits w) = .ok i →
    step (s.withFetchWord nbits w) = exec i s

/-- A command starts by clearing ERR (R293), so what it does never depends on the earlier error. -/
def Obligations.CommandIgnoresEarlierErr : Prop :=
  ∀ (i : Instr) (s : State) (c : ErrCode),
    exec i { s with cur := { s.cur with err := c } } = exec i s

/-- No command is refused, and the only stop is the engine's read of a track byte that nothing has written
since reset. The model's choices in it: the stop is D50's (log entry 3); that DD13 and DD35 with their parameter
absent, which R14, R260 and R262 call refusals, answer a next state is log entries 7 and 8; and that commands end
on a written all-zero track as well rests on the spec's decision D8, which it says (I9) the reference does not
share (log entry 19). -/
def Obligations.CommandsStopOnlyOnUnwrittenTrack : Prop :=
  ∀ (i : Instr) (s : State), CursorOk s.cur →
    (∀ r, exec i s ≠ .refused r) ∧
    ∀ f, exec i s = .fault f →
      ∃ off, f = .tbufUnwritten off ∧ off < (s.cur.bitcount.toNat + 7) / 8 ∧
        s.cur.mem.read (tbufBase + off) = none

/-- A command's outcome is a function of the parameters and of its own engine's state: two blocks that agree
there answer alike, whatever the rest. -/
def Obligations.CommandsReadTheirEngineAlone : Prop :=
  ∀ (i : Instr) (s r : State), s.params = r.params → s.cur = r.cur →
    (∃ e, exec i s = .next { s with cur := e } ∧ exec i r = .next { r with cur := e }) ∨
    ∃ f, exec i s = .fault f ∧ exec i r = .fault f

/-- R310: an access addressed to one engine changes no other engine; the parameters and the number of engines
never change. -/
def Obligations.EnginesAreIsolated : Prop :=
  ∀ (s t : State), step s = .next t →
    t.params = s.params ∧ t.engines.length = s.engines.length ∧
    (∀ n addr ops, s.inbox = .read n addr :: ops → t.engines = s.engines) ∧
    ∀ n addr v ops k, s.inbox = .write n addr v :: ops → k ≠ addr / engineStride →
      t.engines[k]? = s.engines[k]?

/-! ## The host port -/

/-- R82 and R83: a read is answered exactly for an aligned 32-bit access of the REG window and for a naturally
aligned access of 1, 2 or 4 bytes inside a buffer window of an engine that exists; a write goes through exactly
for the same accesses, the read-only windows excepted. Every other access is a BusError. -/
def Obligations.BusErrorExactlyOnUnsupportedAccess : Prop :=
  ∀ (s : State) (n addr : Nat) (v : Word), s.params.Ok →
    let off := addr % engineStride
    let reg := off < 0x40 ∧ n = 4 ∧ off % 4 = 0
    let buf := fun w : Window => (n = 1 ∨ n = 2 ∨ n = 4) ∧ off % n = 0 ∧ w.base ≤ off ∧
      off + n ≤ w.base + w.size s.params
    (hostStep s (.read n addr) = .fault (.busError addr) ↔
      ¬(addr / engineStride < s.engines.length ∧ (reg ∨ ∃ w, buf w))) ∧
    (hostStep s (.write n addr v) = .fault (.busError addr) ↔
      ¬(addr / engineStride < s.engines.length ∧ (reg ∨ ∃ w, w.writable = true ∧ buf w)))

/-- R84: a read has no side effect on the block. That the returned value stands in `rdata` is the model's choice
(log entry 2), and so is that the access leaves `inbox` (log entry 1). -/
def Obligations.ReadsHaveNoSideEffects : Prop :=
  ∀ (s : State) (n addr : Nat) (v : Word) (ops : List HostOp), s.inbox = .read n addr :: ops →
    hostRead s n addr = some v → step s = .next { s with inbox := ops, rdata := some v }

/-- R33: what a host read of each of the 16 registers of engine k returns (R81, R310): STATUS (R35) and CFG (R38) bit
by bit, VARIANT's code (R43), the stored bits of the others with zeros above, TBUFSZ the capacity (R47), and 0 for
CMD and the unlisted offsets. The codes that ERR (R290), STOP (R59) and SST (R291) hold are the rules' numbers. -/
def Obligations.StatusReadsItsFields : Prop :=
  (∀ (s : State) (k : Nat) (e : Engine), s.engines[k]? = some e →
    ∃ w, hostRead s 4 (engineAddr k 0x04) = some w ∧
    w.getLsbD 0 = false ∧ w.getLsbD 1 = e.found ∧ w.getLsbD 2 = e.dvalid ∧
    w.getLsbD 3 = e.anyErr ∧ w.getLsbD 4 = e.sectFail ∧ w.extractLsb' 5 3 = 0 ∧
    w.extractLsb' 8 8 = e.err.code ∧ w.extractLsb' 16 4 = e.stop.code ∧ w.extractLsb' 20 12 = 0) ∧
  (∀ (s : State) (k : Nat) (e : Engine), s.engines[k]? = some e →
    ∃ w, hostRead s 4 (engineAddr k 0x10) = some w ∧
    w.extractLsb' 0 4 = e.cfgVersion ∧ w.extractLsb' 4 4 = e.cfgDiskType ∧
    w.extractLsb' 8 4 = e.cfgBootFmt ∧ w.getLsbD 12 = e.cfgA35pol ∧ w.extractLsb' 13 19 = 0) ∧
  (∀ (s : State) (k : Nat) (e : Engine), s.engines[k]? = some e →
    ∀ r ∈ ([(0x00, 0), (0x08, e.result), (0x0C, e.opa), (0x14, e.bitcount),
      (0x18, e.trkidx.setWidth 32), (0x1C, e.bitpos), (0x20, e.dlen),
      (0x24, match e.variant with | none => 0 | some .s13 => 1 | some .s16 => 2 | some .gcr35 => 3),
      (0x28, e.scount), (0x2C, e.afa), (0x30, e.afb.setWidth 32),
      (0x34, BitVec.ofNat 32 s.params.tbufBytes), (0x38, 0), (0x3C, 0)] : List (Nat × Word)),
    hostRead s 4 (engineAddr k r.1) = some r.2) ∧
  [ErrCode.noError, .illegalCommand, .badOperand, .badConfig, .noTrack, .trackOverflow, .noFlux,
      .prologueNotFound, .readPastEnd, .illegalNibble, .sectorChecksumError, .variantUnsupported].map ErrCode.code =
    [0x00, 0x01, 0x02, 0x03, 0x04, 0x05, 0x06, 0x07, 0x08, 0x09, 0x0A, 0x0C] ∧
  [StopCode.noScan, .count, .noMatch, .duplicate, .noPrologue, .noTrack, .aborted].map StopCode.code =
    [0, 1, 2, 3, 4, 5, 6] ∧
  [SectorStatus.ok, .readPastEnd, .illegalNibble, .sectorChecksumError, .addrChecksumError, .variantUnsupported,
      .dataFieldAbsent].map SectorStatus.code = [0x00, 0x08, 0x09, 0x0A, 0x0B, 0x0C, 0x0D]

/-- R33, R37, R38, R40, R81, R84: a write to OPA, CFG or TRKIDX of engine k stores the register's bits in that
engine, drops the reserved ones and changes nothing else; a read then gives the stored bits; and a write to a read-only
register or an unlisted offset changes nothing. `s'` is `s` with engine k as the addressed one, which the first clause
says of every engine that exists: the same engines, in the same order (log entry 9). -/
def Obligations.RegisterWritesReadBack : Prop :=
  (∀ (s : State) (k : Nat), k < s.engines.length → ∃ s', s.focus k = some s' ∧ s'.engines = s.engines ∧
    s'.below.length = k ∧ s'.params = s.params ∧ s'.inbox = s.inbox ∧ s'.rdata = s.rdata ∧
    s'.resets = s.resets) ∧
  ∀ (s s' : State) (k : Nat) (v : Word), s.focus k = some s' →
    (∃ t, hostStep s (.write 4 (engineAddr k 0x0C) v) = .next t ∧
      t = { s' with cur := { s'.cur with opa := v } } ∧
      hostRead t 4 (engineAddr k 0x0C) = some v) ∧
    (∃ t, hostStep s (.write 4 (engineAddr k 0x10) v) = .next t ∧
      t = { s' with cur := { s'.cur with
        cfgVersion := v.extractLsb' 0 4, cfgDiskType := v.extractLsb' 4 4, cfgBootFmt := v.extractLsb' 8 4
        cfgA35pol := v.getLsbD 12 } } ∧
      hostRead t 4 (engineAddr k 0x10) = some (v &&& 0x1FFF)) ∧
    (∃ t, hostStep s (.write 4 (engineAddr k 0x18) v) = .next t ∧
      t = { s' with cur := { s'.cur with trkidx := v.extractLsb' 0 8 } } ∧
      hostRead t 4 (engineAddr k 0x18) = some (v &&& 0xFF)) ∧
    ∀ off ∈ [0x04, 0x08, 0x1C, 0x20, 0x24, 0x28, 0x2C, 0x30, 0x34, 0x38, 0x3C],
      hostStep s (.write 4 (engineAddr k off) v) = .next s'

/-- R39: a host write to BITCOUNT of engine k, of any value, invalidates the memo and resets the cursor of that
engine, and changes nothing else. `s'` is `s` with engine k as the addressed one (RegisterWritesReadBack). -/
def Obligations.BitcountWriteResetsCursor : Prop :=
  ∀ (s s' : State) (k : Nat) (v : Word), s.focus k = some s' →
    hostStep s (.write 4 (engineAddr k 0x14) v) =
      .next { s' with cur := { s'.cur with
        bitcount := v, dvalid := false, dlen := 0, bitpos := 0, revs := 0 } }

/-- R83 and R88: a supported write to a writable buffer window of engine k stores the low bytes, which the host reads
back, and changes no other byte; into TBUF it clears DVALID and DLEN, and it never moves the cursor. `s'` is `s` with
engine k as the addressed one (RegisterWritesReadBack). -/
def Obligations.BufferWriteReadsBack : Prop :=
  ∀ (s s' : State) (k n off : Nat) (v : Word) (w : Window), s.params.Ok → s.focus k = some s' →
    (n = 1 ∨ n = 2 ∨ n = 4) → off % n = 0 → w.writable = true → w.base ≤ off →
    off + n ≤ w.base + w.size s.params →
    ∃ t mem', hostStep s (.write n (engineAddr k off) v) = .next t ∧
      t = { s' with cur := { s'.cur with
          mem := mem'
          dvalid := if w = .tbuf then false else s'.cur.dvalid
          dlen := if w = .tbuf then 0 else s'.cur.dlen } } ∧
      (∀ j < n, mem'.read (off + j) = some (byteOf v j) ∧
        hostRead t 1 (engineAddr k (off + j)) = some ((byteOf v j).setWidth 32)) ∧
      ∀ x, Outside off n x → mem'.read x = s'.cur.mem.read x

/-- R83, R84 and R86: a 1-byte read of a buffer window returns the byte that the addressed engine's memory holds there,
and an n-byte read is the n byte reads, the first in bits [7:0]. That the bits of the 32-bit answer above them are 0 is
the model's reading (log entry 22). Of a byte of TBUF that nothing has written since reset the first clause says
nothing: what the host reads there is a free value (log entry 4). -/
def Obligations.BufferReadIsLittleEndian : Prop :=
  (∀ (s : State) (k off : Nat) (e : Engine) (w : Window) (b : Byte), s.params.Ok → s.engines[k]? = some e →
    w.base ≤ off → off < w.base + w.size s.params → e.mem.read off = some b →
    hostRead s 1 (engineAddr k off) = some (b.setWidth 32)) ∧
  ∀ (s : State) (n addr : Nat) (w : Word), s.params.Ok → 0x40 ≤ addr % engineStride →
    hostRead s n addr = some w →
    (∀ k < n, ∃ b, hostRead s 1 (addr + k) = some b ∧ b = (byteOf w k).setWidth 32) ∧
    ∀ k, n ≤ k → byteOf w k = 0

/-! ## Reset -/

/-- R60 with R33's table: what reset leaves in every register and in every byte of the buffers, TBUF excepted,
whose contents the rule leaves unspecified. TBUFSZ reads the parameter TBUF_BYTES. -/
def Obligations.ResetValues : Prop :=
  (∀ off ∈ [0x00, 0x04, 0x08, 0x0C, 0x14, 0x18, 0x1C, 0x20, 0x24, 0x28, 0x2C, 0x30, 0x38, 0x3C],
    hostRead State.reset 4 off = some 0) ∧
  hostRead State.reset 4 0x10 = some 0x00001000 ∧
  hostRead State.reset 4 0x34 = some (BitVec.ofNat 32 State.reset.params.tbufBytes) ∧
  State.reset.cur.revs = 0 ∧ State.reset.cur.dvalid = false ∧
  ∀ w : Window, w ≠ .tbuf → ∀ k < w.size State.reset.params,
    State.reset.cur.mem.read (w.base + k) = some 0

/-- R330: the reset input puts every engine into the reset state, whatever the state before. That the host's pending
accesses survive it is the model's reading (log entry 17). -/
def Obligations.ResetInputResetsEveryEngine : Prop :=
  ∀ (s : State) (ops : List HostOp), s.inbox = .reset :: ops →
    ∃ t, step s = .next t ∧ t.engines = List.replicate s.engines.length State.reset.cur ∧
      t.params = s.params ∧ t.inbox = ops

/-- The reset state is consistent. -/
def Obligations.ResetIsConsistent : Prop := State.reset.Inv

/-! ## Invariants of every step -/

/-- Every engine's memory keeps its canonical form and lists only bytes of buffer windows. -/
def Obligations.StepKeepsMemoryCanonical : Prop :=
  ∀ s t : State,
    (∀ e ∈ s.engines, Memory.wf e.mem ∧ CellsMapped s.params e.mem) → step s = .next t →
      ∀ e ∈ t.engines, Memory.wf e.mem ∧ CellsMapped t.params e.mem

/-- R41: BITPOS stays on the track. -/
def Obligations.StepKeepsCursorOnTrack : Prop :=
  ∀ s t : State, (∀ e ∈ s.engines, CursorOk e) → step s = .next t → ∀ e ∈ t.engines, CursorOk e

/-- R42, R49, R93: DVALID = 1 says that DBUF is the decoded array of the current TBUF and BITCOUNT, with DLEN its
length; no step makes it stale. -/
def Obligations.StepKeepsMemoCoherent : Prop :=
  ∀ s t : State, s.params.Ok → (∀ e ∈ s.engines, MemoOk s.params e) → step s = .next t →
    ∀ e ∈ t.engines, MemoOk t.params e

/-- R44, R52, R53, R58, R180, R291: the sector table, the payload slots, SCOUNT and SECTFAIL agree after every
step. -/
def Obligations.StepKeepsSectorTable : Prop :=
  ∀ s t : State, s.params.Ok → (∀ e ∈ s.engines, TableOk e) → step s = .next t →
    ∀ e ∈ t.engines, TableOk e

/-- R57: a command that ends with an error sets ANYERR, no command and no other access clears it, reset does, and
it is 0 from reset on. -/
def Obligations.AnyErrIsSticky : Prop :=
  State.reset.cur.anyErr = false ∧
  (∀ (i : Instr) (s t : State), exec i s = .next t →
    t.cur.anyErr = (s.cur.anyErr || decide (t.cur.err ≠ .noError))) ∧
  (∀ (s t : State) (op : HostOp) (ops : List HostOp) (k : Nat) (e e' : Engine),
    s.inbox = op :: ops → op ≠ .reset → step s = .next t → s.engines[k]? = some e →
    t.engines[k]? = some e' → e.anyErr = true → e'.anyErr = true) ∧
  ∀ (s t : State) (ops : List HostOp), s.inbox = .reset :: ops → step s = .next t →
    ∀ e ∈ t.engines, e.anyErr = false

/-! ## TrackCursor -/

/-- R140: CRST's word, and what CRST does. -/
def Obligations.CrstResetsCursor : Prop :=
  decode 0x01000000 = .ok .crst ∧
  ∀ s : State, exec .crst s = .next { s with cur := { s.cur with err := .noError, bitpos := 0, revs := 0 } }

/-- R141, with TrackReady (R145) and NextBit (R146): NBIT's word, its errors, and the bit it returns; and where nothing
has written the byte under the cursor since reset, the fault that R50 and R330 ask of a model (D50; log entry 3). -/
def Obligations.NbitReadsOneTrackBit : Prop :=
  decode 0x02000000 = .ok .nbit ∧
  ∀ s : State,
    (s.cur.bitcount = 0 → EndsInError (exec .nbit s) s .noTrack) ∧
    (8 * s.params.tbufBytes < s.cur.bitcount.toNat → EndsInError (exec .nbit s) s .trackOverflow) ∧
    (s.cur.bitcount ≠ 0 → s.cur.bitcount.toNat ≤ 8 * s.params.tbufBytes →
      s.cur.mem.read (tbufBase + s.cur.bitpos.toNat / 8) = none →
      exec .nbit s = .fault (.tbufUnwritten (s.cur.bitpos.toNat / 8))) ∧
    ∀ b, s.cur.bitcount ≠ 0 → s.cur.bitcount.toNat ≤ 8 * s.params.tbufBytes →
      s.cur.mem.read (tbufBase + s.cur.bitpos.toNat / 8) = some b →
      exec .nbit s = .next { s with cur := { s.cur with
        err := .noError
        bitpos := if s.cur.bitpos.toNat + 1 = s.cur.bitcount.toNat then 0 else s.cur.bitpos + 1
        revs := if s.cur.bitpos.toNat + 1 = s.cur.bitcount.toNat then s.cur.revs + 1 else s.cur.revs
        result := if b.getLsbD (7 - s.cur.bitpos.toNat % 8) then 1 else 0 } }

/-- R142 with SyncByte (R146): after k zero bits, k short of a revolution, NBYTE returns the eight bits from the
first 1 bit on, most significant first, and the cursor stands after them; it wraps wherever the bits do. -/
def Obligations.NbyteReadsNextSyncByte : Prop :=
  ∀ (s : State) (k : Nat), TrackLoaded s.params s.cur → CursorOk s.cur →
    k < s.cur.bitcount.toNat →
    (∀ j < k, trackBit s.cur.mem ((s.cur.bitpos.toNat + j) % s.cur.bitcount.toNat) = .ok false) →
    trackBit s.cur.mem ((s.cur.bitpos.toNat + k) % s.cur.bitcount.toNat) = .ok true →
    ∃ v : Byte,
      (∀ b < 8, trackBit s.cur.mem ((s.cur.bitpos.toNat + k + b) % s.cur.bitcount.toNat) =
        .ok (v.getLsbD (7 - b))) ∧
      exec .nbyte s = .next { s with cur := { s.cur with
        err := .noError
        bitpos := BitVec.ofNat 32 ((s.cur.bitpos.toNat + k + 8) % s.cur.bitcount.toNat)
        revs := s.cur.revs + BitVec.ofNat 32 ((s.cur.bitpos.toNat + k + 8) / s.cur.bitcount.toNat)
        result := v.setWidth 32 } }

/-- R142: NBYTE's errors. NoTrack and TrackOverflow change nothing but ERR and ANYERR; on an all-zero track
NoFlux leaves BITPOS where it was after one revolution, REVS grown by 1 and RESULT unchanged. That the block ends
there at all is the spec's decision D8 (log entry 19). Where nothing has written the byte under the cursor since
reset, it is the fault that R50 and R330 ask of a model (D50; log entry 3). -/
def Obligations.NbyteErrors : Prop :=
  ∀ s : State,
    (s.cur.bitcount = 0 → EndsInError (exec .nbyte s) s .noTrack) ∧
    (8 * s.params.tbufBytes < s.cur.bitcount.toNat → EndsInError (exec .nbyte s) s .trackOverflow) ∧
    (s.cur.bitcount ≠ 0 → s.cur.bitcount.toNat ≤ 8 * s.params.tbufBytes →
      s.cur.mem.read (tbufBase + s.cur.bitpos.toNat / 8) = none →
      exec .nbyte s = .fault (.tbufUnwritten (s.cur.bitpos.toNat / 8))) ∧
    (TrackLoaded s.params s.cur → CursorOk s.cur →
      (∀ i < s.cur.bitcount.toNat, trackBit s.cur.mem i = .ok false) →
      exec .nbyte s = .next { s with cur := { s.cur with
        err := .noFlux, anyErr := true, revs := s.cur.revs + 1 } })

/-- The model's SyncByte, cut in two where the accumulator becomes nonzero, is the loop of R146, which reads at
most BITCOUNT + 7 bits (R340; log entry 13). -/
def Obligations.SyncByteIsSpecLoop : Prop :=
  ∀ (m : Memory) (bc pos : Nat), 0 < bc →
    syncLoop m bc (bc + 7) pos 0 0 0 = some (syncByte m bc pos)

/-- R143: MAT does nothing with DVALID = 1; else it raises NoTrack, TrackOverflow or NoFlux with nothing written,
or it writes the self-sync bytes of the track from bit 0 on into DBUF, zeros after them, DLEN and DVALID, and no
other byte or register. Where nothing has written the track's first byte since reset, it is the fault that R50 and
R330 ask of a model (D50; log entry 3). -/
def Obligations.MatMaterializesTrack : Prop :=
  ∀ s : State,
    (s.cur.dvalid = true → exec .mat s = .next { s with cur := { s.cur with err := .noError } }) ∧
    (s.cur.dvalid = false → s.cur.bitcount = 0 → EndsInError (exec .mat s) s .noTrack) ∧
    (s.cur.dvalid = false → 8 * s.params.tbufBytes < s.cur.bitcount.toNat →
      EndsInError (exec .mat s) s .trackOverflow) ∧
    (s.cur.dvalid = false → s.cur.bitcount ≠ 0 → s.cur.bitcount.toNat ≤ 8 * s.params.tbufBytes →
      s.cur.mem.read tbufBase = none → exec .mat s = .fault (.tbufUnwritten 0)) ∧
    (s.cur.dvalid = false → TrackLoaded s.params s.cur →
      (∀ i < s.cur.bitcount.toNat, trackBit s.cur.mem i = .ok false) →
      EndsInError (exec .mat s) s .noFlux) ∧
    (s.cur.dvalid = false → TrackLoaded s.params s.cur → HasFlux s.cur →
      ∃ ys mem', ys.length = (s.cur.bitcount.toNat + 7) / 8 + 600 ∧
        syncBytes s.cur.mem s.cur.bitcount.toNat ys.length 0 = .ok ys ∧
        exec .mat s = .next { s with cur := { s.cur with
          err := .noError, dvalid := true, dlen := BitVec.ofNat 32 ys.length, mem := mem' } } ∧
        (∀ j < ys.length, mem'.read (dbufBase + j) = ys[j]?) ∧
        (∀ j, ys.length ≤ j → j < s.params.tbufBytes + 600 → mem'.read (dbufBase + j) = some 0) ∧
        ∀ x, OutsideDbuf s.params x → mem'.read x = s.cur.mem.read x)

/-- R143, R146 and R149 on the unwrapped bit stream: byte j of the decoded array is read from bit s_j on; it skips
zero bits, fewer than one revolution, and is the eight bits up to s_(j+1). Every byte takes at least eight bits,
so the two bytes after one that starts in the first revolution lie inside the array. The spec marks R149 as
derived. -/
def Obligations.DecodedArrayFollowsTrack : Prop :=
  ∀ (m : Memory) (bc : Nat) (ys : List Byte), 0 < bc →
    syncBytes m bc (decodedLength bc) 0 = .ok ys →
    ∃ start : Nat → Nat, start 0 = 0 ∧
      (∀ j < decodedLength bc,
        start j + 8 ≤ start (j + 1) ∧ start (j + 1) < start j + 8 + bc ∧
        (∀ i, start j ≤ i → i + 8 < start (j + 1) → trackBit m (i % bc) = .ok false) ∧
        ((ys.getD j 0).getLsbD 7 = true) ∧
        ∀ b < 8, trackBit m ((start (j + 1) - 8 + b) % bc) = .ok ((ys.getD j 0).getLsbD (7 - b))) ∧
      ∀ j < decodedLength bc, 8 * j ≤ start j ∧ (start j < bc → j + 2 < ys.length)

/-- R150: the decoded array is a function of BITCOUNT and of the track's bits alone. -/
def Obligations.DecodedArrayDependsOnTrackAlone : Prop :=
  ∀ (m r : Memory) (bc n : Nat), (∀ i < bc, trackBit m i = trackBit r i) → 0 < bc →
    syncBytes m bc n 0 = syncBytes r bc n 0

/-- R148: FindFn returns the first offset from s on at which the pattern stands wholly inside the array, and none
where there is none. -/
def Obligations.FindFnIsFirstOccurrence : Prop :=
  ∀ (d : List Byte) (s : Nat) (p : Pattern),
    (∀ o, findFn d s p = some o ↔
      s ≤ o ∧ OccursAt p d o ∧ ∀ x, s ≤ x → x < o → ¬OccursAt p d x) ∧
    (findFn d s p = none ↔ ∀ o, s ≤ o → ¬OccursAt p d o)

/-- R144: FIND, with the decoded array there or made, answers the first occurrence at or after OPA with FOUND = 1,
or all ones with FOUND = 0; where the array cannot be made it raises MAT's error, RESULT and FOUND unchanged. -/
def Obligations.FindReportsFirstOccurrence : Prop :=
  ∀ (s : State) (p0 p1 p2 : Byte),
   (∀ c, DbufError s.params s.cur c → EndsInError (exec (.find p0 p1 p2) s) s c) ∧
   (DbufReady s.params s.cur →
    ∃ e, ensureDbuf s.params { s.cur with err := .noError } = .ok e ∧
      ((∃ o, s.cur.opa.toNat ≤ o ∧ OccursAt ⟨p0, p1, p2⟩ (decodedArray e) o ∧
          (∀ x, s.cur.opa.toNat ≤ x → x < o → ¬OccursAt ⟨p0, p1, p2⟩ (decodedArray e) x) ∧
          exec (.find p0 p1 p2) s =
            .next { s with cur := { e with result := BitVec.ofNat 32 o, found := true } }) ∨
        ((∀ o, s.cur.opa.toNat ≤ o → ¬OccursAt ⟨p0, p1, p2⟩ (decodedArray e) o) ∧
          exec (.find p0 p1 p2) s =
            .next { s with cur := { e with result := 0xFFFFFFFF, found := false } })))

/-! ## TrackParser -/

/-- R170: with an illegal field in CFG, SELV and SCAN raise BadConfig; SELV writes nothing else, and SCAN leaves
an empty table and STOP = ABORTED. -/
def Obligations.BadConfigStopsSelvAndScan : Prop :=
  ∀ s : State, ¬CfgLegal s.cur →
    EndsInError (exec .selv s) s .badConfig ∧
    ∃ mem', exec .scan s = .next { s with cur := { s.cur with
        err := .badConfig, anyErr := true, scount := 0, sectFail := false, stop := .aborted, mem := mem' } } ∧
      (∀ k < 512, mem'.read (sectBase + k) = some 0) ∧
      (∀ k < 8192, mem'.read (pbufBase + k) = some 0) ∧
      ∀ x, Outside sectBase 512 x → Outside pbufBase 8192 x → mem'.read x = s.cur.mem.read x

/-- R171 and R172: which variant SELV selects, and when it finds its prologue: DISKTYPE = 2 fixes GCR35; VERSION 2
with BOOTFMT 1 or 2 fixes S16 or S13; otherwise PRO16 anywhere in the array gives S16, else PRO13 gives S13, else
NONE. A fixed variant stays in VARIANT even when its prologue is absent. Where the array cannot be made SELV raises
MAT's error, VARIANT and FOUND unchanged. -/
def Obligations.SelvSelectsVariant : Prop :=
  ∀ s : State, CfgLegal s.cur →
   (∀ c, DbufError s.params s.cur c → EndsInError (exec .selv s) s c) ∧
   (DbufReady s.params s.cur →
    ∃ e, ensureDbuf s.params { s.cur with err := .noError } = .ok e ∧
      let found := fun v => Host.Outcome.next
        ({ s with cur := { e with variant := some v, found := true } } : State)
      let absent := fun v => Host.Outcome.next
        ({ s with cur := withError { e with variant := v, found := false } .prologueNotFound } : State)
      let fixed := fun v p => (Occurs p (decodedArray e) → exec .selv s = found v) ∧
        (¬Occurs p (decodedArray e) → exec .selv s = absent (some v))
      let bySector := s.cur.cfgDiskType = 1
      let auto := bySector ∧ ¬(s.cur.cfgVersion = 2 ∧ (s.cur.cfgBootFmt = 1 ∨ s.cur.cfgBootFmt = 2))
      (s.cur.cfgDiskType = 2 → fixed .gcr35 s.params.pro35) ∧
      (bySector → s.cur.cfgVersion = 2 → s.cur.cfgBootFmt = 1 → fixed .s16 s.params.pro16) ∧
      (bySector → s.cur.cfgVersion = 2 → s.cur.cfgBootFmt = 2 → fixed .s13 s.params.pro13) ∧
      (auto → Occurs s.params.pro16 (decodedArray e) → exec .selv s = found .s16) ∧
      (auto → ¬Occurs s.params.pro16 (decodedArray e) → Occurs s.params.pro13 (decodedArray e) →
        exec .selv s = found .s13) ∧
      (auto → ¬Occurs s.params.pro16 (decodedArray e) → ¬Occurs s.params.pro13 (decodedArray e) →
        exec .selv s = absent none))

/-- R175: a SCAN of an absent track completes without an error, with an empty table, VARIANT NONE and STOP =
NOTRACK. -/
def Obligations.ScanOfAbsentTrackIsNoError : Prop :=
  ∀ s : State, CfgLegal s.cur → s.cur.bitcount = 0 →
    ∃ mem', exec .scan s = .next { s with cur := { s.cur with
        err := .noError, variant := none, scount := 0, sectFail := false, stop := .noTrack, mem := mem' } } ∧
      (∀ k < 512, mem'.read (sectBase + k) = some 0) ∧ ∀ k < 8192, mem'.read (pbufBase + k) = some 0

/-- R175: a SCAN of a present track. Where the decoded array cannot be made it raises TrackOverflow or NoFlux with
STOP = ABORTED and an empty table, and no other byte or register changes. Where it is there or made, SCAN completes.
If the selected variant's prologue does not occur, it raises PrologueNotFound with an empty table. If it occurs, the
scan records at most the target count of sectors without an error and says why it ended, with STOP = COUNT exactly at
the target count; SECT and PBUF then hold the scan's entries in the order found, entry n in place n, and zeros after
them (R52, R53); the variant is R172's, the target count R176's; and SECTFAIL is 1 exactly where some entry's status
is not OK (R58). `scanFrom` is the loop of R175 (ScanWalkIsSpecLoop; log entry 14). -/
def Obligations.ScanCompletes : Prop :=
  ∀ s : State, s.params.Ok → CfgLegal s.cur → s.cur.bitcount ≠ 0 →
    (∀ c, DbufError s.params s.cur c →
      ∃ mem', exec .scan s = .next { s with cur := { s.cur with
          err := c, anyErr := true, scount := 0, sectFail := false, stop := .aborted, mem := mem' } } ∧
        TableZeroFrom mem' 0 ∧
        ∀ x, Outside sectBase 512 x → Outside pbufBase 8192 x → mem'.read x = s.cur.mem.read x) ∧
    (MemoOk s.params s.cur → DbufReady s.params s.cur →
      ∃ t, exec .scan s = .next t ∧ t.cur.dvalid = true ∧
        let noPrologue := t.cur.err = .prologueNotFound ∧ t.cur.found = false ∧ t.cur.stop = .noPrologue ∧
          t.cur.scount = 0 ∧ t.cur.sectFail = false ∧ TableZeroFrom t.cur.mem 0
        Selects s.params s.cur (decodedArray t.cur) t.cur.variant ∧
        match t.cur.variant with
        | none => noPrologue
        | some v =>
          (¬Occurs (addressPrologue s.params v) (decodedArray t.cur) → noPrologue) ∧
          (Occurs (addressPrologue s.params v) (decodedArray t.cur) →
            let r := scanFrom s.params s.cur v (decodedArray t.cur) 0 (decodedArray t.cur) []
            t.cur.err = .noError ∧ t.cur.found = true ∧
              t.cur.scount.toNat = r.1.length ∧ t.cur.stop = r.2 ∧
              r.1.length ≤ sectorTarget s.params s.cur.trkidx v ∧
              (t.cur.stop = .count ∨ t.cur.stop = .noMatch ∨ t.cur.stop = .duplicate) ∧
              (t.cur.stop = .count ↔ r.1.length = sectorTarget s.params s.cur.trkidx v) ∧
              (∀ n x, r.1[n]? = some x → EntryStored t.cur.mem n x) ∧
              TableZeroFrom t.cur.mem r.1.length ∧
              (t.cur.sectFail = true ↔ ∃ x ∈ r.1, x.status ≠ .ok)))

/-- R175 and R184: the model's walk over the offsets of the array visits the matches that the spec's loop visits
by `FindFn(a + 1, PRO(v))`, and that loop ends within DLEN - 2 matches (log entry 14). -/
def Obligations.ScanWalkIsSpecLoop : Prop :=
  ∀ (P : Params) (e : Engine) (v : Variant) (d : List Byte) (a : Nat),
    findFn d 0 (prologueOf P v) = some a →
    scanLoop P e v d (d.length - 2) a [] = some (scanFrom P e v d 0 d [])

/-- R175, R177, R180: every recorded entry is the address field that decodes at its AOFF, where the variant's
prologue stands; the entries are in rising order of AOFF, no sector number repeats, and a scan that ends with
DUPLICATE met a field that repeats one. -/
def Obligations.ScanEntriesAreFields : Prop :=
  ∀ (P : Params) (e : Engine) (v : Variant) (d : List Byte) (es : List SectorEntry) (c : StopCode),
    scanFrom P e v d 0 d [] = (es, c) →
    (∀ x ∈ es, OccursAt (prologueOf P v) d x.aoff ∧ decodeAddr P v d x.aoff = .ok x.field ∧
      x = entryOf P e v d x.aoff x.field) ∧
    es.Pairwise (fun x y => x.aoff < y.aoff ∧ x.field.sector ≠ y.field.sector) ∧
    (c = .duplicate → ∃ a f, OccursAt (prologueOf P v) d a ∧ decodeAddr P v d a = .ok f ∧
      (∀ x ∈ es, x.aoff < a) ∧ ∃ x ∈ es, x.field.sector = f.sector)

/-- R179: the data prologue D5 AA AD is sought from the address offset + 11 on; one more than 200 bytes after the
address offset is absent. -/
def Obligations.DataSearchWindow : Prop :=
  ∀ (d : List Byte) (a : Nat),
    let here := OccursAt ⟨0xD5, 0xAA, 0xAD⟩ d
    (∀ o, dataOffset d a = some o ↔
      a + 11 ≤ o ∧ o - a ≤ 200 ∧ here o ∧ ∀ x, a + 11 ≤ x → x < o → ¬here x) ∧
    (dataOffset d a = none ↔ ∀ o, a + 11 ≤ o → o - a ≤ 200 → ¬here o)

/-- R178 and R182: what is recorded for the address field `f` at offset `a`. A 3.5" field with CHKOK = 0 is an
AddrChecksumError without a data decode under A35POL = 1. Every other field is decoded: DataFieldAbsent without a
data prologue, else by the data field of its variant, S16's by DecodeData16, S13's and GCR35's by the open decoder
where it is present, VariantUnsupported where it is absent; each failure under its own status, without a payload. DOFF
is recorded either way. What the open decoders answer is a free value (log entries 7 and 8). -/
def Obligations.AddressChecksumPolicy : Prop :=
  ∀ (P : Params) (e : Engine) (v : Variant) (d : List Byte) (a : Nat) (f : AddrField),
    let x := entryOf P e v d a f
    x.aoff = a ∧ x.doff = dataOffset d a ∧ x.field = f ∧
    (v = .gcr35 → f.chkOk = false → e.cfgA35pol = true →
      x.status = .addrChecksumError ∧ x.payload = []) ∧
    (v ≠ .gcr35 ∨ f.chkOk = true ∨ e.cfgA35pol = false →
      (dataOffset d a = none → x.status = .dataFieldAbsent ∧ x.payload = []) ∧
      ∀ o, dataOffset d a = some o →
        (v = .s16 → RecordsDecode x (decodeData16 P d o)) ∧
        (v = .s13 → P.hasDecode13 = false → x.status = .variantUnsupported ∧ x.payload = []) ∧
        (v = .s13 → P.hasDecode13 = true →
          RecordsDecode x ((Config.decode13 (d.drop o)).map Vector.toList)) ∧
        (v = .gcr35 → P.hasDecode35 = false → x.status = .variantUnsupported ∧ x.payload = []) ∧
        (v = .gcr35 → P.hasDecode35 = true →
          RecordsDecode x ((Config.decode35 (d.drop o)).map fun b => b.toList.drop 12)))

/-- R52 and R53: where each word of a recorded entry and its payload stand, and the zeros after the entries. -/
def Obligations.SectorTableLayout : Prop :=
  ∀ (e : Engine) (es : List SectorEntry), es.length ≤ 16 → (∀ y ∈ es, y.payload.length ≤ 512) →
    (∀ n x, es[n]? = some x → EntryStored (storeTable e es).mem n x) ∧
    TableZeroFrom (storeTable e es).mem es.length

/-! ## NibbleTranslator -/

/-- R212: X62's word carries a 6-bit value; X62 is total; RESULT is the table's entry, with bit 7 set, and never
0xD5 or 0xAA with a legal table. -/
def Obligations.X62Translates : Prop :=
  (∀ v : Byte, v.toNat < 64 → decode (0x0C000000 ||| v.setWidth 32) = .ok (.x62 v)) ∧
  ∀ (s : State) (v : Byte), v.toNat < 64 →
    exec (.x62 v) s = .next { s with cur := { s.cur with
      err := .noError, result := (x62f s.params (v.setWidth 6)).setWidth 32 } } ∧
    (s.params.Ok → (x62f s.params (v.setWidth 6)).getLsbD 7 = true ∧
      x62f s.params (v.setWidth 6) ≠ 0xD5 ∧ x62f s.params (v.setWidth 6) ≠ 0xAA)

/-- R213: U62's word; U62 of the byte that carries v gives v; of a byte outside L62 it sets RESULT to all ones and
raises IllegalNibble. -/
def Obligations.U62Untranslates : Prop :=
  (∀ b : Byte, decode (0x0D000000 ||| b.setWidth 32) = .ok (.u62 b)) ∧
  ∀ (s : State) (b : Byte), s.params.Ok →
    (∀ v : BitVec 6, x62f s.params v = b →
      exec (.u62 b) s = .next { s with cur := { s.cur with err := .noError, result := v.setWidth 32 } }) ∧
    ((∀ v : BitVec 6, x62f s.params v ≠ b) →
      exec (.u62 b) s = .next { s with cur := withError { s.cur with result := 0xFFFFFFFF } .illegalNibble })

/-- R216: X44's word; X44 is total; the odds byte in RESULT[15:8] and the evens byte in RESULT[7:0], both in L44. -/
def Obligations.X44Encodes : Prop :=
  (∀ b : Byte, decode (0x0E000000 ||| b.setWidth 32) = .ok (.x44 b)) ∧
  ∀ (s : State) (b : Byte),
    exec (.x44 b) s = .next { s with cur := { s.cur with
      err := .noError
      result := (((b >>> 1) ||| 0xAA).setWidth 32 <<< 8) ||| (b ||| 0xAA).setWidth 32 } } ∧
    legal44 ((b >>> 1) ||| 0xAA) = true ∧ legal44 (b ||| 0xAA) = true

/-- R217: U44's word, the odds byte in bits [15:8]; U44 applies the formula to any two bytes. -/
def Obligations.U44Decodes : Prop :=
  (∀ bo be : Byte, decode (0x0F000000 ||| (bo.setWidth 32 <<< 8) ||| be.setWidth 32) = .ok (.u44 bo be)) ∧
  ∀ (s : State) (bo be : Byte),
    exec (.u44 bo be) s = .next { s with cur := { s.cur with
      err := .noError, result := (((bo <<< 1) ||| 1) &&& be).setWidth 32 } }

/-- R218: the round trips of the byte functions. The spec marks the list as derived from R211 and R215. -/
def Obligations.TranslatorRoundTrips : Prop :=
  (∀ P : Params, P.Ok →
    (∀ b v, unx62 P b = .ok v → x62f P v = b) ∧
    (∀ b, legal62 P b = true → ∃ v, unx62 P b = .ok v) ∧
    ∀ v, unx62 P (x62f P v) = .ok v) ∧
  (∀ b, legal44 b = true → spread4 (gather4 b) = b) ∧ (∀ n, gather4 (spread4 n) = n) ∧
  (∀ v, dec44 (enc44Odds v) (enc44Evens v) = v) ∧
  ∀ o e, legal44 o = true → legal44 e = true → enc44Odds (dec44 o e) = o ∧ enc44Evens (dec44 o e) = e

/-! ## SectorCodec -/

/-- R240 and R241: DA44 reports the field after the prologue at OPA, whatever the bytes, with CHKOK advisory; it
raises ReadPastEnd where the array does not hold OPA + 11 bytes, and MAT's error where the array cannot be made, AFA
and AFB unchanged. -/
def Obligations.Da44ReportsAddressField : Prop :=
  ∀ s : State,
   (∀ c, DbufError s.params s.cur c → EndsInError (exec .da44 s) s c) ∧
   (DbufReady s.params s.cur →
    ∃ e, ensureDbuf s.params { s.cur with err := .noError } = .ok e ∧
      let d := decodedArray e
      let a := s.cur.opa.toNat
      let value := fun k => ((d.getD (a + k) 0 <<< 1) ||| 1) &&& d.getD (a + k + 1) 0
      (e.dlen.toNat < a + 11 → exec .da44 s = .next { s with cur := withError e .readPastEnd }) ∧
      (a + 11 ≤ e.dlen.toNat → exec .da44 s = .next { s with cur := { e with
        afa := value 3 ++ value 7 ++ (value 5).setWidth 16
        afb := BitVec.ofBool (value 3 ^^^ value 5 ^^^ value 7 == value 9) ++ (0 : Byte) ++ value 9 } }))

/-- R242 and R243: DA35 decodes the five bytes after the prologue at OPA through the 6-and-2 table before it forms
any field; one byte outside L62 raises IllegalNibble, an array that ends before raises ReadPastEnd, an array that
cannot be made raises MAT's error, AFA and AFB unchanged each time; and a checksum mismatch is only reported. -/
def Obligations.Da35ReportsAddressField : Prop :=
  ∀ s : State, s.params.Ok →
   (∀ c, DbufError s.params s.cur c → EndsInError (exec .da35 s) s c) ∧
   (DbufReady s.params s.cur →
    ∃ e, ensureDbuf s.params { s.cur with err := .noError } = .ok e ∧
      let d := decodedArray e
      let a := s.cur.opa.toNat
      (e.dlen.toNat < a + 8 → exec .da35 s = .next { s with cur := withError e .readPastEnd }) ∧
      (a + 8 ≤ e.dlen.toNat → (∃ k < 5, legal62 s.params (d.getD (a + 3 + k) 0) = false) →
        exec .da35 s = .next { s with cur := withError e .illegalNibble }) ∧
      (∀ b1 sec b3 fmt chk : BitVec 6, a + 8 ≤ e.dlen.toNat →
        [b1, sec, b3, fmt, chk].map (x62f s.params) = (d.drop (a + 3)).take 5 →
        exec .da35 s = .next { s with cur := { e with
          afa := (b3.extractLsb' 5 1).setWidth 8 ++ sec.setWidth 8 ++ ((b3.extractLsb' 0 5 ++ b1).setWidth 16)
          afb := BitVec.ofBool (b1 ^^^ sec ^^^ b3 ^^^ fmt == chk) ++ fmt.setWidth 8 ++ chk.setWidth 8 } }))

/-- R250 to R253, in the forward form that R254 derives: DD16 raises ReadPastEnd where the array does not hold the
343 bytes after the prologue at OPA, IllegalNibble where one of them is outside L62, SectorChecksumError where
their values do not XOR to 0, MAT's error where the array cannot be made, WBUF unchanged each time; and else stores
the payload in WBUF[0..256) and nothing else. -/
def Obligations.Dd16DecodesDataField : Prop :=
  ∀ s : State, s.params.Ok →
   (∀ c, DbufError s.params s.cur c → EndsInError (exec .dd16 s) s c) ∧
   (DbufReady s.params s.cur →
    ∃ e, ensureDbuf s.params { s.cur with err := .noError } = .ok e ∧
      let field := ((decodedArray e).drop (s.cur.opa.toNat + 3)).take 343
      (field.length < 343 → exec .dd16 s = .next { s with cur := withError e .readPastEnd }) ∧
      (field.length = 343 → (∃ b ∈ field, legal62 s.params b = false) →
        exec .dd16 s = .next { s with cur := withError e .illegalNibble }) ∧
      ∀ vs : List (BitVec 6), vs.length = 343 → vs.map (x62f s.params) = field →
        (xorAll vs ≠ 0 → exec .dd16 s = .next { s with cur := withError e .sectorChecksumError }) ∧
        (xorAll vs = 0 → ∃ mem', exec .dd16 s = .next { s with cur := { e with mem := mem' } } ∧
          (∀ c < 256, mem'.read (wbufBase + c) = some (payloadFrom (forwardAt vs) c)) ∧
          ∀ x, Outside wbufBase 256 x → mem'.read x = e.mem.read x))

/-- R255 and R256: ED16 is total; it stores in NBUF[0..343) the bytes of the forward XOR chain of the payload's 342
split values (`splitValue`, R256's D) and its appended checksum, all in L62, so that with a legal table none is D5 or
AA; no other byte and no other register but ERR changes. -/
def Obligations.Ed16EncodesPayload : Prop :=
  ∀ s : State,
    ∃ (ns : List Byte) (mem' : Memory), ns.length = 343 ∧
      exec .ed16 s = .next { s with cur := { s.cur with err := .noError, mem := mem' } } ∧
      (∀ k < 343, mem'.read (nbufBase + k) = ns[k]?) ∧
      (∀ x, Outside nbufBase 343 x → mem'.read x = s.cur.mem.read x) ∧
      (∀ b ∈ ns, legal62 s.params b = true ∧ (s.params.Ok → b ≠ 0xD5 ∧ b ≠ 0xAA)) ∧
      let value := splitValue fun c => (s.cur.mem.read (wbufBase + c)).getD 0
      ns[0]? = some (x62f s.params (value 0)) ∧
      (∀ k < 341, ns[k + 1]? = some (x62f s.params (value (k + 1) ^^^ value k))) ∧
      ns[342]? = some (x62f s.params (value 341))

/-- R257: for every 256-byte payload, the decoder gives back what the encoder wrote after a data prologue, and the
checksum validates. The spec marks the rule as derived from R251, R254 and R256. -/
def Obligations.SectorCodecRoundTrip : Prop :=
  ∀ (P : Params) (d p : List Byte) (a : Nat), P.Ok → p.length = 256 →
    (d.drop (a + 3)).take 343 = encodeData16 P p → decodeData16 P d a = .ok p

/-- R254: the backward chain of the decoder passes its check exactly when all 343 translated values XOR to 0, and
then it is the forward running XOR. The spec marks the rule as derived. -/
def Obligations.BackwardChainIsForwardChain : Prop :=
  ∀ t : List Byte, t.length = 343 →
    ((∃ p, payloadOf t = .ok p) ↔ xorAll t = 0) ∧
    (xorAll t = 0 → ∀ i < 342, (backChain t.tail).getD i 0 = xorAll (t.take (i + 1)))

/-- R260 to R263: DD13 and DD35 record VariantUnsupported where the decoder parameter is absent; where it is
present, they store its payload in WBUF (256 bytes, or the 512 after the 12 tag bytes) or raise the error it
fails with, WBUF unchanged; where the array cannot be made they raise MAT's error first, whatever the parameter. What
the parameter answers is a free value (log entries 7 and 8). -/
def Obligations.OpenDecodersFollowParameter : Prop :=
  ∀ s : State,
   (∀ c, DbufError s.params s.cur c →
      EndsInError (exec .dd13 s) s c ∧ EndsInError (exec .dd35 s) s c) ∧
   (DbufReady s.params s.cur →
    ∃ e, ensureDbuf s.params { s.cur with err := .noError } = .ok e ∧
      let bytes := (decodedArray e).drop s.cur.opa.toNat
      let stored := fun (i : Instr) (p : List Byte) =>
        ∃ mem', exec i s = .next { s with cur := { e with mem := mem' } } ∧
          (∀ c < p.length, mem'.read (wbufBase + c) = p[c]?) ∧
          ∀ x, Outside wbufBase p.length x → mem'.read x = e.mem.read x
      let raised := fun (i : Instr) (c : ErrCode) => exec i s = .next { s with cur := withError e c }
      (s.params.hasDecode13 = false → raised .dd13 .variantUnsupported) ∧
      (s.params.hasDecode13 = true →
        match Config.decode13 bytes with
        | .ok v => stored .dd13 v.toList
        | .error .readPastEnd => raised .dd13 .readPastEnd
        | .error .illegalNibble => raised .dd13 .illegalNibble
        | .error .sectorChecksum => raised .dd13 .sectorChecksumError) ∧
      (s.params.hasDecode35 = false → raised .dd35 .variantUnsupported) ∧
      (s.params.hasDecode35 = true →
        match Config.decode35 bytes with
        | .ok v => stored .dd35 (v.toList.drop 12)
        | .error .readPastEnd => raised .dd35 .readPastEnd
        | .error .illegalNibble => raised .dd35 .illegalNibble
        | .error .sectorChecksum => raised .dd35 .sectorChecksumError))

/-! ## Frames -/

/-- CRST, NBIT, NBYTE, X62, U62, X44 and U44 store nothing: no byte of memory changes, and no register but the ones
named. -/
def Obligations.RegisterCommandsFrame : Prop :=
  ∀ s t : State,
    (exec .crst s = .next t → t = { s with cur := { s.cur with
      err := .noError, bitpos := t.cur.bitpos, revs := t.cur.revs } }) ∧
    (exec .nbit s = .next t ∨ exec .nbyte s = .next t → t = { s with cur := { s.cur with
      err := t.cur.err, anyErr := t.cur.anyErr, bitpos := t.cur.bitpos, revs := t.cur.revs,
      result := t.cur.result } }) ∧
    (∀ v, exec (.x62 v) s = .next t → t = { s with cur := { s.cur with
      err := .noError, result := t.cur.result } }) ∧
    (∀ b, exec (.u62 b) s = .next t → t = { s with cur := { s.cur with
      err := t.cur.err, anyErr := t.cur.anyErr, result := t.cur.result } }) ∧
    (∀ b, exec (.x44 b) s = .next t → t = { s with cur := { s.cur with
      err := .noError, result := t.cur.result } }) ∧
    ∀ bo be, exec (.u44 bo be) s = .next t → t = { s with cur := { s.cur with
      err := .noError, result := t.cur.result } }

/-- MAT, FIND, SELV, DA44 and DA35 store nothing but the decoded array, and that only when they materialize it; no
register but the ones named changes. With an error FIND leaves RESULT and FOUND, DA44 and DA35 leave AFA and AFB, and
SELV leaves VARIANT and FOUND unless the error is PrologueNotFound (R144, R171, R240, R242). -/
def Obligations.DbufReadersFrame : Prop :=
  ∀ s t : State,
    (exec .mat s = .next t → t = { s with cur := { s.cur with
      err := t.cur.err, anyErr := t.cur.anyErr, dvalid := t.cur.dvalid, dlen := t.cur.dlen,
      mem := t.cur.mem } }) ∧
    (∀ p0 p1 p2, exec (.find p0 p1 p2) s = .next t → t = { s with cur := { s.cur with
      err := t.cur.err, anyErr := t.cur.anyErr, dvalid := t.cur.dvalid, dlen := t.cur.dlen,
      mem := t.cur.mem, found := t.cur.found, result := t.cur.result } }) ∧
    (exec .selv s = .next t → t = { s with cur := { s.cur with
      err := t.cur.err, anyErr := t.cur.anyErr, dvalid := t.cur.dvalid, dlen := t.cur.dlen,
      mem := t.cur.mem, found := t.cur.found, variant := t.cur.variant } }) ∧
    (exec .da44 s = .next t ∨ exec .da35 s = .next t → t = { s with cur := { s.cur with
      err := t.cur.err, anyErr := t.cur.anyErr, dvalid := t.cur.dvalid, dlen := t.cur.dlen,
      mem := t.cur.mem, afa := t.cur.afa, afb := t.cur.afb } }) ∧
    ((∃ p0 p1 p2, exec (.find p0 p1 p2) s = .next t) → t.cur.err ≠ .noError →
      t.cur.result = s.cur.result ∧ t.cur.found = s.cur.found) ∧
    (exec .selv s = .next t → t.cur.err ≠ .noError → t.cur.err ≠ .prologueNotFound →
      t.cur.variant = s.cur.variant ∧ t.cur.found = s.cur.found) ∧
    (exec .da44 s = .next t ∨ exec .da35 s = .next t → t.cur.err ≠ .noError →
      t.cur.afa = s.cur.afa ∧ t.cur.afb = s.cur.afb) ∧
    ((exec .mat s = .next t ∨ (∃ p0 p1 p2, exec (.find p0 p1 p2) s = .next t) ∨ exec .selv s = .next t ∨
        exec .da44 s = .next t ∨ exec .da35 s = .next t) →
      ∀ x, DbufStoredOnly s.params s.cur t.cur x → t.cur.mem.read x = s.cur.mem.read x)

/-- DD16, DD13, DD35 and ED16: no register but ERR, ANYERR and the memo's changes; bytes change only in DBUF when
the command materializes it, in WBUF[0..256) for DD16 and DD13 and WBUF[0..512) for DD35 when it ends without an
error, and in NBUF[0..343) for ED16. -/
def Obligations.PayloadCommandsFrame : Prop :=
  ∀ s t : State,
    (exec .dd16 s = .next t ∨ exec .dd13 s = .next t ∨ exec .dd35 s = .next t →
      t = { s with cur := { s.cur with
        err := t.cur.err, anyErr := t.cur.anyErr, dvalid := t.cur.dvalid, dlen := t.cur.dlen,
        mem := t.cur.mem } }) ∧
    (exec .dd16 s = .next t ∨ exec .dd13 s = .next t →
      ∀ x, DbufStoredOnly s.params s.cur t.cur x → (t.cur.err ≠ .noError ∨ Outside wbufBase 256 x) →
        t.cur.mem.read x = s.cur.mem.read x) ∧
    (exec .dd35 s = .next t →
      ∀ x, DbufStoredOnly s.params s.cur t.cur x → (t.cur.err ≠ .noError ∨ Outside wbufBase 512 x) →
        t.cur.mem.read x = s.cur.mem.read x) ∧
    (exec .ed16 s = .next t →
      t = { s with cur := { s.cur with err := .noError, mem := t.cur.mem } } ∧
      ∀ x, Outside nbufBase 343 x → t.cur.mem.read x = s.cur.mem.read x)

/-- SCAN writes no register but ERR, ANYERR, FOUND, SECTFAIL, STOP, VARIANT, SCOUNT and the memo's, and no byte
outside SECT, PBUF and, when it materializes, DBUF. -/
def Obligations.ScanFrame : Prop :=
  ∀ s t : State, exec .scan s = .next t →
    t = { s with cur := { s.cur with
      err := t.cur.err, anyErr := t.cur.anyErr, found := t.cur.found, sectFail := t.cur.sectFail,
      stop := t.cur.stop, variant := t.cur.variant, scount := t.cur.scount, dvalid := t.cur.dvalid,
      dlen := t.cur.dlen, mem := t.cur.mem } } ∧
    ∀ x, Outside sectBase 512 x → Outside pbufBase 8192 x → DbufStoredOnly s.params s.cur t.cur x →
      t.cur.mem.read x = s.cur.mem.read x
end

