-- ==== Sys2Proof/Laws/Cursor.lean ====
section
/-! SUPPORT. What the reads of the track do (40_track_cursor.md), said on the unwrapped bit stream: bit `u` of the
stream is bit `u % bc` of a track of `bc` bits. -/

namespace Sys2Proof.Machine

/-! ## One bit -/

theorem wraps_succ {bc u : Nat} (hbc : 0 < bc) :
    (u % bc + 1 = bc → (u + 1) % bc = 0 ∧ (u + 1) / bc = u / bc + 1) ∧
      (u % bc + 1 ≠ bc → (u + 1) % bc = u % bc + 1 ∧ (u + 1) / bc = u / bc) := by
  have hd := Nat.div_add_mod u bc
  have hm := Nat.mod_lt u hbc
  constructor
  · intro h
    have e : u + 1 = bc * (u / bc + 1) := by
      rw [Nat.mul_add, Nat.mul_one]
      omega
    rw [e]
    exact ⟨Nat.mul_mod_right _ _, Nat.mul_div_cancel_left _ hbc⟩
  · intro h
    have e : u + 1 = (u % bc + 1) + bc * (u / bc) := by omega
    have hlt : u % bc + 1 < bc := by omega
    constructor
    · rw [e, Nat.add_mul_mod_self_left, Nat.mod_eq_of_lt hlt]
    · rw [e, Nat.add_mul_div_left _ _ hbc, Nat.div_eq_of_lt hlt, Nat.zero_add]

/-- `NextBit` at bit `u` of the stream: the bit, the place of bit `u + 1`, and the wraps between them. -/
theorem nextBit_stream {m : Memory} {bc u : Nat} {b : Bool} (hbc : 0 < bc)
    (h : trackBit m (u % bc) = .ok b) :
    nextBit m bc (u % bc) = .ok ⟨b, (u + 1) % bc, (u + 1) / bc - u / bc⟩ := by
  unfold nextBit
  rw [h]
  obtain ⟨hw, hn⟩ := wraps_succ (u := u) hbc
  by_cases e : u % bc + 1 = bc
  · obtain ⟨h1, h2⟩ := hw e
    simp [e, h1, h2]
  · obtain ⟨h1, h2⟩ := hn e
    simp [e, h1, h2]

/-- `NextBit` faults exactly where the bit's byte has not been written. -/
theorem nextBit_error {m : Memory} {bc pos : Nat} {f : Fault} :
    nextBit m bc pos = .error f ↔ trackBit m pos = .error f := by
  unfold nextBit
  cases h : trackBit m pos with
  | error g => simp
  | ok b =>
    simp only []
    split <;> simp

/-- Wraps add up along the stream. -/
theorem wraps_add {bc : Nat} (u v w : Nat) (huv : u ≤ v) (hvw : v ≤ w) :
    (v / bc - u / bc) + (w / bc - v / bc) = w / bc - u / bc := by
  have h1 := Nat.div_le_div_right (c := bc) huv
  have h2 := Nat.div_le_div_right (c := bc) hvw
  omega

/-! ## Eight bits -/

/-- The accumulator after one more bit. -/
theorem shiftIn_getLsbD (acc : Byte) (b : Bool) (k : Nat) (hk : k < 8) :
    ((acc <<< 1) ||| BitVec.setWidth 8 (BitVec.ofBool b)).getLsbD k =
      if k = 0 then b else acc.getLsbD (k - 1) := by
  cases b <;> interval_cases k <;> simp

/-- `n` bits shifted in from bit `u` of the stream on. -/
theorem syncShift_stream {m : Memory} {bc : Nat} (hbc : 0 < bc) (bits : Nat → Bool) :
    ∀ (n u w : Nat) (acc : Byte),
      (∀ i < n, trackBit m ((u + i) % bc) = .ok (bits (u + i))) →
      ∃ v : Byte, syncShift m bc n (u % bc) w acc = .byte v ((u + n) % bc) (w + ((u + n) / bc - u / bc)) ∧
        ∀ k < 8, v.getLsbD k = if k < n then bits (u + n - 1 - k) else acc.getLsbD (k - n)
  | 0, u, w, acc, _ => ⟨acc, by simp [syncShift], by simp⟩
  | n + 1, u, w, acc, h => by
    have h0 : trackBit m (u % bc) = .ok (bits u) := by simpa using h 0 (by omega)
    unfold syncShift
    rw [nextBit_stream hbc h0]
    obtain ⟨v, hv, hb⟩ := syncShift_stream hbc bits n (u + 1) (w + ((u + 1) / bc - u / bc))
      ((acc <<< 1) ||| BitVec.setWidth 8 (BitVec.ofBool (bits u)))
      (fun i hi => by simpa [Nat.add_comm, Nat.add_left_comm, Nat.add_assoc] using h (i + 1) (by omega))
    refine ⟨v, ?_, fun k hk => ?_⟩
    · simp only []
      rw [hv]
      have := wraps_add (bc := bc) u (u + 1) (u + 1 + n) (by omega) (by omega)
      have e : u + (n + 1) = u + 1 + n := by omega
      rw [e]
      congr 1
      omega
    · rw [hb k hk]
      by_cases hkn : k < n
      · rw [if_pos hkn, if_pos (by omega)]
        congr 1
        omega
      · rw [if_neg hkn, shiftIn_getLsbD _ _ _ (by omega)]
        by_cases hk' : k = n
        · subst hk'
          rw [if_pos (by omega), if_pos (by omega)]
          congr 1
          omega
        · rw [if_neg (by omega), if_neg (by omega)]
          congr 1

/-- `syncShift` is a byte or a fault. -/
theorem syncShift_not_noFlux {m : Memory} {bc : Nat} :
    ∀ (n pos w : Nat) (acc : Byte) (p x : Nat), syncShift m bc n pos w acc ≠ .noFlux p x
  | 0, _, _, _, _, _ => by simp [syncShift]
  | n + 1, pos, w, acc, p, x => by
    unfold syncShift
    split
    · simp
    · exact syncShift_not_noFlux n _ _ _ _ _

/-- The bits that a `syncShift` which ends in a byte has read. -/
theorem syncShift_reads {m : Memory} {bc : Nat} (hbc : 0 < bc) :
    ∀ (n u w : Nat) (acc v : Byte) (p x : Nat), syncShift m bc n (u % bc) w acc = .byte v p x →
      ∀ i < n, ∃ b, trackBit m ((u + i) % bc) = .ok b
  | 0, _, _, _, _, _, _, _ => by simp
  | n + 1, u, w, acc, v, p, x, h => by
    intro i hi
    cases h0 : trackBit m (u % bc) with
    | error f =>
      unfold syncShift at h
      rw [nextBit_error.mpr h0] at h
      simp at h
    | ok b =>
      unfold syncShift at h
      rw [nextBit_stream hbc h0] at h
      rcases i with _ | i
      · exact ⟨b, by simpa using h0⟩
      · have := syncShift_reads hbc n (u + 1) _ _ _ _ _ h i (by omega)
        simpa [Nat.add_comm, Nat.add_left_comm, Nat.add_assoc] using this

/-! ## A self-sync byte -/

/-- `k` zero bits skipped. -/
theorem syncSkip_zeros {m : Memory} {bc : Nat} (hbc : 0 < bc) :
    ∀ (k left u w : Nat), k ≤ left → (∀ j < k, trackBit m ((u + j) % bc) = .ok false) →
      syncSkip m bc left (u % bc) w =
        syncSkip m bc (left - k) ((u + k) % bc) (w + ((u + k) / bc - u / bc))
  | 0, left, u, w, _, _ => by simp
  | k + 1, 0, u, w, hk, _ => absurd hk (by omega)
  | k + 1, left + 1, u, w, hk, h => by
    have h0 : trackBit m (u % bc) = .ok false := by simpa using h 0 (by omega)
    have hs : syncSkip m bc (left + 1) (u % bc) w =
        syncSkip m bc left ((u + 1) % bc) (w + ((u + 1) / bc - u / bc)) := by
      rw [syncSkip, nextBit_stream hbc h0]
      rfl
    rw [hs, syncSkip_zeros hbc k left (u + 1) _ (by omega)
      (fun j hj => by simpa [Nat.add_comm, Nat.add_left_comm, Nat.add_assoc] using h (j + 1) (by omega))]
    have := wraps_add (bc := bc) u (u + 1) (u + 1 + k) (by omega) (by omega)
    have e : u + (k + 1) = u + 1 + k := by omega
    have e' : left + 1 - (k + 1) = left - k := by omega
    rw [e, e']
    congr 1
    omega

/-- A self-sync byte read from bit `u` of the stream: `k` zero bits, fewer than a revolution, then the eight bits
of the byte, the first of them 1. -/
def SyncAt (m : Memory) (bc u k : Nat) (v : Byte) : Prop :=
  k < bc ∧ (∀ j < k, trackBit m ((u + j) % bc) = .ok false) ∧ v.getLsbD 7 = true ∧
    ∀ b < 8, trackBit m ((u + k + b) % bc) = .ok (v.getLsbD (7 - b))

/-- What `SyncByte` answers where a byte starts. -/
theorem syncByte_stream {m : Memory} {bc u k : Nat} {v : Byte} (hbc : 0 < bc) (h : SyncAt m bc u k v) :
    syncByte m bc (u % bc) = .byte v ((u + k + 8) % bc) ((u + k + 8) / bc - u / bc) := by
  obtain ⟨hk, hz, h7, hb⟩ := h
  unfold syncByte
  rw [syncSkip_zeros hbc k bc u 0 (by omega) hz]
  obtain ⟨r, hr⟩ : ∃ r, bc - k = r + 1 := ⟨bc - k - 1, by omega⟩
  rw [hr]
  have h1 : trackBit m ((u + k) % bc) = .ok true := h7 ▸ hb 0 (by omega)
  unfold syncSkip
  rw [nextBit_stream hbc h1]
  simp only [if_true]
  obtain ⟨x, hx, hxb⟩ := syncShift_stream (m := m) hbc (fun i => v.getLsbD (7 - (i - (u + k)))) 7 (u + k + 1)
    (0 + ((u + k) / bc - u / bc) + ((u + k + 1) / bc - (u + k) / bc)) 1
    (fun i hi => by
      have := hb (i + 1) (by omega)
      rw [show u + k + 1 + i = u + k + (i + 1) by omega]
      simpa using this)
  rw [hx]
  have hxv : x = v := by
    apply BitVec.eq_of_getLsbD_eq
    intro i hi
    rw [hxb i hi]
    by_cases hi7 : i < 7
    · rw [if_pos hi7]
      congr 1
      omega
    · obtain rfl : i = 7 := by omega
      simp [h7]
  have e1 := wraps_add (bc := bc) u (u + k) (u + k + 1) (by omega) (by omega)
  have e2 := wraps_add (bc := bc) u (u + k + 1) (u + k + 1 + 7) (by omega) (by omega)
  rw [hxv]
  have e : u + k + 1 + 7 = u + k + 8 := by omega
  rw [e] at e2 ⊢
  congr 1
  omega

/-- The bytes that `SyncByte` answers are those that start on the stream. -/
theorem syncByte_inv {m : Memory} {bc u p x : Nat} {v : Byte} (hbc : 0 < bc)
    (h : syncByte m bc (u % bc) = .byte v p x) : ∃ k, SyncAt m bc u k v := by
  suffices H : ∀ (left w u : Nat), syncSkip m bc left (u % bc) w = .byte v p x →
      ∃ k, k < left ∧ (∀ j < k, trackBit m ((u + j) % bc) = .ok false) ∧ v.getLsbD 7 = true ∧
        ∀ b < 8, trackBit m ((u + k + b) % bc) = .ok (v.getLsbD (7 - b)) by
    obtain ⟨k, h1, h2, h3, h4⟩ := H bc 0 u h
    exact ⟨k, h1, h2, h3, h4⟩
  intro left
  induction left with
  | zero => intro w u h; simp [syncSkip] at h
  | succ left ih =>
    intro w u h
    cases h0 : trackBit m (u % bc) with
    | error f =>
      unfold syncSkip at h
      rw [nextBit_error.mpr h0] at h
      simp at h
    | ok b =>
      unfold syncSkip at h
      rw [nextBit_stream hbc h0] at h
      cases b with
      | false =>
        obtain ⟨k, h1, h2, h3, h4⟩ := ih _ (u + 1) (by simpa using h)
        refine ⟨k + 1, by omega, fun j hj => ?_, h3, fun b hb => ?_⟩
        · rcases j with _ | j
          · simpa using h0
          · simpa [Nat.add_comm, Nat.add_left_comm, Nat.add_assoc] using h2 j (by omega)
        · rw [show u + (k + 1) + b = u + 1 + k + b by omega]
          exact h4 b hb
      | true =>
        simp only [if_true] at h
        have hr := syncShift_reads hbc 7 (u + 1) _ _ _ _ _ h
        obtain ⟨x', hx, hxb⟩ := syncShift_stream (m := m) hbc
          (fun i => (trackBit m (i % bc)).toOption.getD false) 7 (u + 1)
          (w + ((u + 1) / bc - u / bc)) 1
          (fun i hi => by
            obtain ⟨b, hb⟩ := hr i hi
            rw [hb]
            rfl)
        rw [hx] at h
        simp only [Sync.byte.injEq] at h
        obtain ⟨rfl, -, -⟩ := h
        have h7 : x'.getLsbD 7 = true := by rw [hxb 7 (by omega)]; simp
        refine ⟨0, by omega, by omega, h7, fun b hb => ?_⟩
        rcases b with _ | b
        · exact h7.symm ▸ h0
        · obtain ⟨c, hc⟩ := hr b (by omega)
          rw [hxb (7 - (b + 1)) (by omega), if_pos (by omega)]
          rw [show u + 0 + (b + 1) = u + 1 + b by omega, hc]
          rw [show u + 1 + 7 - 1 - (7 - (b + 1)) = u + 1 + b by omega, hc]
          rfl

/-- One revolution of zero bits is NoFlux, back at the same place after one wrap. -/
theorem syncByte_noFlux {m : Memory} {bc u : Nat} (hbc : 0 < bc)
    (hz : ∀ i < bc, trackBit m i = .ok false) : syncByte m bc (u % bc) = .noFlux (u % bc) 1 := by
  unfold syncByte
  rw [syncSkip_zeros hbc bc bc u 0 (Nat.le_refl _) (fun j _ => hz _ (Nat.mod_lt _ hbc))]
  simp [syncSkip, Nat.add_div_right _ hbc]

/-- NoFlux is raised on an all-zero track alone. -/
theorem syncByte_noFlux_inv {m : Memory} {bc u p x : Nat} (hbc : 0 < bc)
    (h : syncByte m bc (u % bc) = .noFlux p x) : ∀ j < bc, trackBit m ((u + j) % bc) = .ok false := by
  suffices H : ∀ (left w u : Nat), syncSkip m bc left (u % bc) w = .noFlux p x →
      ∀ j < left, trackBit m ((u + j) % bc) = .ok false from H bc 0 u h
  intro left
  induction left with
  | zero => intro w u _ j hj; omega
  | succ left ih =>
    intro w u h j hj
    cases h0 : trackBit m (u % bc) with
    | error f =>
      unfold syncSkip at h
      rw [nextBit_error.mpr h0] at h
      simp at h
    | ok b =>
      unfold syncSkip at h
      rw [nextBit_stream hbc h0] at h
      cases b with
      | false =>
        rcases j with _ | j
        · exact h0
        · have := ih _ (u + 1) (by simpa using h) j (by omega)
          simpa [Nat.add_comm, Nat.add_left_comm, Nat.add_assoc] using this
      | true => exact absurd (by simpa using h) (syncShift_not_noFlux 7 _ _ _ _ _)

/-- A fault of `SyncByte` is that of a track bit. -/
theorem syncByte_fault {m : Memory} {bc u : Nat} {f : Fault} (hbc : 0 < bc)
    (h : syncByte m bc (u % bc) = .fault f) : ∃ i < bc, trackBit m i = .error f := by
  have hshift : ∀ (n u w : Nat) (acc : Byte), syncShift m bc n (u % bc) w acc = .fault f →
      ∃ i < bc, trackBit m i = .error f := by
    intro n
    induction n with
    | zero => intro u w acc h; simp [syncShift] at h
    | succ n ih =>
      intro u w acc h
      cases h0 : trackBit m (u % bc) with
      | error g =>
        unfold syncShift at h
        rw [nextBit_error.mpr h0] at h
        exact ⟨_, Nat.mod_lt u hbc, h0.trans (congrArg _ (Sync.fault.inj h))⟩
      | ok b =>
        unfold syncShift at h
        rw [nextBit_stream hbc h0] at h
        exact ih _ _ _ h
  suffices H : ∀ (left w u : Nat), syncSkip m bc left (u % bc) w = .fault f →
      ∃ i < bc, trackBit m i = .error f from H bc 0 u h
  intro left
  induction left with
  | zero => intro w u h; simp [syncSkip] at h
  | succ left ih =>
    intro w u h
    cases h0 : trackBit m (u % bc) with
    | error g =>
      unfold syncSkip at h
      rw [nextBit_error.mpr h0] at h
      exact ⟨_, Nat.mod_lt u hbc, h0.trans (congrArg _ (Sync.fault.inj h))⟩
    | ok b =>
      unfold syncSkip at h
      rw [nextBit_stream hbc h0] at h
      cases b with
      | false => exact ih _ _ (by simpa using h)
      | true => exact hshift 7 _ _ _ (by simpa using h)

/-! ## The decoded array -/

/-- The array of `n` bytes has `n` bytes. -/
theorem syncBytes_length {m : Memory} {bc : Nat} :
    ∀ {n pos : Nat} {ys : List Byte}, syncBytes m bc n pos = .ok ys → ys.length = n
  | 0, _, ys, h => by
    obtain rfl : [] = ys := by simpa [syncBytes] using h
    rfl
  | n + 1, pos, ys, h => by
    unfold syncBytes at h
    split at h
    · cases h
    · cases h
    · split at h
      · cases h
      · rename_i hs
        obtain rfl := Except.ok.inj h
        simp [syncBytes_length hs]

/-- The first byte of an array and the rest, on the stream. -/
theorem syncBytes_cons {m : Memory} {bc n u : Nat} {ys : List Byte} (hbc : 0 < bc)
    (h : syncBytes m bc (n + 1) (u % bc) = .ok ys) :
    ∃ k v zs, SyncAt m bc u k v ∧ ys = v :: zs ∧ syncBytes m bc n ((u + k + 8) % bc) = .ok zs := by
  unfold syncBytes at h
  split at h
  · cases h
  · cases h
  · rename_i v p x hv
    obtain ⟨k, hk⟩ := syncByte_inv hbc hv
    rw [syncByte_stream hbc hk] at hv
    simp only [Sync.byte.injEq] at hv
    obtain ⟨-, rfl, -⟩ := hv
    split at h
    · cases h
    · exact ⟨k, v, _, hk, (Except.ok.inj h).symm, ‹_›⟩

/-- With some 1 bit and every bit readable, a byte starts at or after every place of the stream. -/
theorem syncAt_exists {m : Memory} {bc u : Nat} (hbc : 0 < bc) (hr : ∀ i < bc, ∃ b, trackBit m i = .ok b)
    (h1 : ∃ i < bc, trackBit m i = .ok true) : ∃ k v, SyncAt m bc u k v := by
  cases h : syncByte m bc (u % bc) with
  | byte v p x =>
    obtain ⟨k, hk⟩ := syncByte_inv hbc h
    exact ⟨k, v, hk⟩
  | noFlux p x =>
    obtain ⟨i, hi, hb⟩ := h1
    have hz := syncByte_noFlux_inv hbc h ((i + (bc - u % bc)) % bc) (Nat.mod_lt _ hbc)
    have e : (u + (i + (bc - u % bc)) % bc) % bc = i := by
      have hm := Nat.mod_lt u hbc
      have hd := Nat.div_add_mod u bc
      rw [Nat.add_mod, Nat.mod_mod, ← Nat.add_mod]
      have e' : u + (i + (bc - u % bc)) = i + bc * (u / bc + 1) := by
        rw [Nat.mul_add, Nat.mul_one]
        omega
      rw [e', Nat.add_mul_mod_self_left, Nat.mod_eq_of_lt hi]
    rw [e, hb] at hz
    cases hz
  | fault f =>
    obtain ⟨i, hi, hf⟩ := syncByte_fault hbc h
    obtain ⟨b, hb⟩ := hr i hi
    rw [hb] at hf
    cases hf

/-- On a readable track with some 1 bit the array is read to its end. -/
theorem syncBytes_ok {m : Memory} {bc : Nat} (hbc : 0 < bc) (hr : ∀ i < bc, ∃ b, trackBit m i = .ok b)
    (h1 : ∃ i < bc, trackBit m i = .ok true) :
    ∀ n u, ∃ ys, syncBytes m bc n (u % bc) = .ok ys
  | 0, _ => ⟨[], rfl⟩
  | n + 1, u => by
    obtain ⟨k, v, hk⟩ := syncAt_exists (u := u) hbc hr h1
    obtain ⟨zs, hz⟩ := syncBytes_ok hbc hr h1 n (u + k + 8)
    refine ⟨v :: zs, ?_⟩
    unfold syncBytes
    rw [syncByte_stream hbc hk]
    simp only []
    rw [hz]

/-- Two tracks of the same bits read alike. -/
theorem syncByte_congr {m r : Memory} {bc u : Nat} (hbc : 0 < bc)
    (h : ∀ i < bc, trackBit m i = trackBit r i) : syncByte m bc (u % bc) = syncByte r bc (u % bc) := by
  have hn : ∀ u, nextBit m bc (u % bc) = nextBit r bc (u % bc) := fun u => by
    unfold nextBit
    rw [h _ (Nat.mod_lt u hbc)]
  have hs : ∀ (n u w : Nat) (acc : Byte), syncShift m bc n (u % bc) w acc = syncShift r bc n (u % bc) w acc := by
    intro n
    induction n with
    | zero => intros; rfl
    | succ n ih =>
      intro u w acc
      unfold syncShift
      rw [hn u]
      cases h0 : trackBit r (u % bc) with
      | error f => rw [nextBit_error.mpr h0]
      | ok b =>
        rw [nextBit_stream hbc h0]
        exact ih _ _ _
  suffices H : ∀ (left u w : Nat), syncSkip m bc left (u % bc) w = syncSkip r bc left (u % bc) w from H bc u 0
  intro left
  induction left with
  | zero => intros; rfl
  | succ left ih =>
    intro u w
    unfold syncSkip
    rw [hn u]
    cases h0 : trackBit r (u % bc) with
    | error f => rw [nextBit_error.mpr h0]
    | ok b =>
      rw [nextBit_stream hbc h0]
      simp only []
      rw [hs, ih]

/-! ## The memo -/

/-- The bits of a loaded track can be read. -/
theorem TrackLoaded.bits {P : Params} {e : Engine} (h : TrackLoaded P e) :
    ∀ i < e.bitcount.toNat, ∃ b, trackBit e.mem i = .ok b := by
  intro i hi
  have := h.2.2 (i / 8) (by omega)
  obtain ⟨b, hb⟩ := Option.isSome_iff_exists.1 this
  exact ⟨_, by unfold trackBit; rw [hb]⟩

/-- A loaded track has bits. -/
theorem TrackLoaded.pos {P : Params} {e : Engine} (h : TrackLoaded P e) : 0 < e.bitcount.toNat := by
  refine Nat.pos_of_ne_zero fun h0 => h.1 ?_
  exact BitVec.eq_of_toNat_eq (by simpa using h0)

/-- A loaded track passes TrackReady. -/
theorem TrackLoaded.ready {P : Params} {e : Engine} (h : TrackLoaded P e) : trackReady P e = none := by
  unfold trackReady
  rw [if_neg h.1, if_neg (by have := h.2.1; omega)]

/-- Where the memo holds or the track can be read, EnsureDBUF goes through. -/
theorem DbufReady.ok {P : Params} {e : Engine} (h : DbufReady P e) : ∃ e', ensureDbuf P e = .ok e' := by
  rcases h with h | ⟨h, hf⟩
  · exact ⟨e, by rw [ensureDbuf, if_pos h]⟩
  · cases hd : e.dvalid with
    | true => exact ⟨e, by rw [ensureDbuf, if_pos hd]⟩
    | false =>
      obtain ⟨ys, hys⟩ := syncBytes_ok h.pos h.bits hf (decodedLength e.bitcount.toNat) 0
      refine ⟨setDecoded P e ys, ?_⟩
      rw [Nat.zero_mod] at hys
      unfold ensureDbuf
      rw [hd, h.ready, hys]
      rfl

end Sys2Proof.Machine
end

