-- ==== Sys2Proof/Laws/Memory.lean ====
section
/-! SUPPORT. The laws of an engine's memory: a read after a store inside and outside the stored bytes, and
that every memory operation keeps the canonical form. -/

namespace Sys2Proof.Machine

theorem Memory.read_append_of_not_mem (m r : Memory) (a : Nat) (h : ∀ c ∈ m, c.1 ≠ a) :
    Memory.read (m ++ r) a = r.read a := by
  induction m with
  | nil => rfl
  | cons c m ih =>
    rw [List.cons_append, Memory.read, if_neg (h c (by simp))]
    exact ih fun d hd => h d (by simp [hd])

theorem Memory.read_of_not_mem (m : Memory) (a : Nat) (h : ∀ c ∈ m, c.1 ≠ a) :
    m.read a = Memory.unlisted a := by
  simpa [Memory.read] using Memory.read_append_of_not_mem m [] a h

theorem Memory.read_filter (m : Memory) (a : Nat) (p : Host.Cell → Bool)
    (h : ∀ c ∈ m, c.1 = a → p c = true) : Memory.read (m.filter p) a = m.read a := by
  induction m with
  | nil => rfl
  | cons c m ih =>
    have ih' := ih fun d hd => h d (by simp [hd])
    by_cases hc : c.1 = a
    · rw [List.filter_cons_of_pos (h c (by simp) hc), Memory.read, Memory.read, if_pos hc, if_pos hc]
    · by_cases hp : p c = true
      · rw [List.filter_cons_of_pos hp, Memory.read, Memory.read, if_neg hc, if_neg hc, ih']
      · rw [List.filter_cons_of_neg hp, Memory.read, if_neg hc, ih']

/-- A cell of a listed offset decides the read, whatever follows. -/
theorem Memory.read_append_of_mem (m r : Memory) (a : Nat) (h : ∃ c ∈ m, c.1 = a) :
    Memory.read (m ++ r) a = m.read a := by
  induction m with
  | nil => simp at h
  | cons c m ih =>
    by_cases hc : c.1 = a
    · rw [List.cons_append, Memory.read, Memory.read, if_pos hc, if_pos hc]
    · rw [List.cons_append, Memory.read, Memory.read, if_neg hc, if_neg hc]
      obtain ⟨d, hd, rfl⟩ := h
      rcases List.mem_cons.1 hd with rfl | hd
      · exact absurd rfl hc
      · exact ih ⟨d, hd, rfl⟩

theorem Memory.mem_cells {a : Nat} {bs : List Byte} {c : Host.Cell} (h : c ∈ Memory.cells a bs) :
    a ≤ c.1 ∧ c.1 < a + bs.length ∧ Memory.unlisted c.1 ≠ some c.2 := by
  induction bs generalizing a with
  | nil => simp [Memory.cells] at h
  | cons b bs ih =>
    rw [Memory.cells] at h
    split at h
    · obtain ⟨h1, h2, h3⟩ := ih h
      exact ⟨by omega, by simp; omega, h3⟩
    · rename_i hb
      rcases List.mem_cons.1 h with rfl | h
      · exact ⟨Nat.le_refl _, by simp, hb⟩
      · obtain ⟨h1, h2, h3⟩ := ih h
        exact ⟨by omega, by simp; omega, h3⟩

theorem Memory.cells_pairwise (a : Nat) (bs : List Byte) :
    (Memory.cells a bs).Pairwise (fun c d => c.1 < d.1) := by
  induction bs generalizing a with
  | nil => exact List.Pairwise.nil
  | cons b bs ih =>
    rw [Memory.cells]
    split
    · exact ih _
    · refine List.Pairwise.cons (fun c hc => ?_) (ih _)
      have := (Memory.mem_cells hc).1
      show a < c.1
      omega

/-- Inside the range of `cells` the read gives the byte, provided nothing after it lists the offset. -/
theorem Memory.read_cells_append (a : Nat) (bs : List Byte) (r : Memory) (x : Nat) (h1 : a ≤ x)
    (h2 : x < a + bs.length) (hr : ∀ c ∈ r, c.1 ≠ x) :
    Memory.read (Memory.cells a bs ++ r) x = some (bs.getD (x - a) 0) := by
  induction bs generalizing a with
  | nil => simp at h2; omega
  | cons b bs ih =>
    rw [Memory.cells]
    by_cases hx : x = a
    · subst hx
      simp only [Nat.sub_self, List.getD_cons_zero]
      split
      · rename_i hb
        rw [Memory.read_append_of_not_mem _ _ _ fun c hc => ?_, Memory.read_of_not_mem _ _ hr, hb]
        have := (Memory.mem_cells hc).1
        omega
      · simp [Memory.read]
    · have hs : x - a = (x - (a + 1)) + 1 := by omega
      have ih' := ih (a + 1) (by omega) (by simp at h2; omega)
      rw [hs, List.getD_cons_succ]
      split
      · exact ih'
      · rw [List.cons_append, Memory.read, if_neg (by simp; omega), ih']

/-- Outside the `n` bytes at `a` a store changes no byte. -/
theorem Memory.read_store_outside (m : Memory) (a n : Nat) (bs : List Byte) (x : Nat)
    (h : x < a ∨ a + n ≤ x) : (m.store a n bs).read x = m.read x := by
  have hcells : ∀ c ∈ Memory.cells a (bs.take n), c.1 ≠ x := fun c hc => by
    obtain ⟨h1, h2, -⟩ := Memory.mem_cells hc
    have := List.length_take_le n bs
    omega
  rw [Memory.store, List.append_assoc]
  rcases h with h | h
  · by_cases hm : ∃ c ∈ m, c.1 = x
    · obtain ⟨c, hc, rfl⟩ := hm
      rw [Memory.read_append_of_mem _ _ _ ⟨c, by simp [hc, h], rfl⟩]
      exact Memory.read_filter _ _ _ fun d _ hd => by simp; omega
    · push Not at hm
      rw [Memory.read_of_not_mem m x hm, Memory.read_of_not_mem]
      intro c hc
      rcases List.mem_append.1 hc with hc | hc
      · exact hm c (List.mem_of_mem_filter hc)
      · rcases List.mem_append.1 hc with hc | hc
        · exact hcells c hc
        · exact hm c (List.mem_of_mem_filter hc)
  · rw [Memory.read_append_of_not_mem, Memory.read_append_of_not_mem _ _ _ hcells]
    · exact Memory.read_filter _ _ _ fun d _ hd => by simp; omega
    · intro c hc
      have := (List.mem_filter.1 hc).2
      simp at this
      omega

/-- Inside the `n` bytes at `a` a store gives its bytes, and past them what the offset reads as unlisted. -/
theorem Memory.read_store_inside (m : Memory) (a n : Nat) (bs : List Byte) (x : Nat) (h1 : a ≤ x)
    (h2 : x < a + n) :
    (m.store a n bs).read x =
      if x < a + bs.length then some (bs.getD (x - a) 0) else Memory.unlisted x := by
  have hlow : ∀ c ∈ m.filter (fun c => c.1 < a), c.1 ≠ x := fun c hc => by
    have := (List.mem_filter.1 hc).2
    simp at this
    omega
  have hhigh : ∀ c ∈ m.filter (fun c => a + n ≤ c.1), c.1 ≠ x := fun c hc => by
    have := (List.mem_filter.1 hc).2
    simp at this
    omega
  rw [Memory.store, List.append_assoc, Memory.read_append_of_not_mem _ _ _ hlow]
  split
  · rename_i hx
    have hlen : x - a < n := by omega
    rw [Memory.read_cells_append _ _ _ _ h1 (by simp; omega) hhigh]
    simp [List.getD_eq_getElem?_getD, hlen]
  · rename_i hx
    rw [Memory.read_append_of_not_mem, Memory.read_of_not_mem _ _ hhigh]
    intro c hc
    have := (Memory.mem_cells hc).2.1
    have := List.length_take_le' n bs
    omega

/-- A plain store: the bytes read back. -/
theorem Memory.read_store_self (m : Memory) (a : Nat) (bs : List Byte) (k : Nat) (h : k < bs.length) :
    (m.store a bs.length bs).read (a + k) = some (bs.getD k 0) := by
  rw [Memory.read_store_inside _ _ _ _ _ (by omega) (by omega), if_pos (by omega)]
  congr 2
  omega

theorem Memory.mem_store {m : Memory} {a n : Nat} {bs : List Byte} {c : Host.Cell}
    (h : c ∈ m.store a n bs) :
    (c ∈ m ∧ (c.1 < a ∨ a + n ≤ c.1)) ∨ (a ≤ c.1 ∧ c.1 < a + n ∧ Memory.unlisted c.1 ≠ some c.2) := by
  rw [Memory.store, List.mem_append, List.mem_append] at h
  rcases h with (h | h) | h
  · rw [List.mem_filter] at h
    exact .inl ⟨h.1, .inl (by simpa using h.2)⟩
  · obtain ⟨h1, h2, h3⟩ := Memory.mem_cells h
    have := List.length_take_le n bs
    exact .inr ⟨h1, by omega, h3⟩
  · rw [List.mem_filter] at h
    exact .inl ⟨h.1, .inr (by simpa using h.2)⟩

/-- Every store keeps the canonical form. -/
theorem Memory.store_wf (m : Memory) (a n : Nat) (bs : List Byte) (h : Memory.wf m) :
    Memory.wf (m.store a n bs) := by
  refine ⟨?_, fun c hc => ?_⟩
  · rw [Memory.store, List.pairwise_append, List.pairwise_append]
    refine ⟨⟨h.1.filter _, Memory.cells_pairwise _ _, ?_⟩, h.1.filter _, ?_⟩
    · intro c hc d hd
      have hc := (List.mem_filter.1 hc).2
      have hd := (Memory.mem_cells hd).1
      simp at hc
      omega
    · intro c hc d hd
      have hd := (List.mem_filter.1 hd).2
      have := List.length_take_le n bs
      rcases List.mem_append.1 hc with hc | hc
      · have hc := (List.mem_filter.1 hc).2
        simp at hc hd
        omega
      · have hc := (Memory.mem_cells hc).2.1
        simp at hd
        omega
  · rcases Memory.mem_store hc with ⟨hc, -⟩ | ⟨-, -, hc⟩
    · exact h.2 c hc
    · exact hc

/-- The empty memory, which every buffer has after reset, is canonical. -/
theorem Memory.wf_nil : Memory.wf [] := ⟨List.Pairwise.nil, by simp⟩

/-- The reset state's memory is canonical. -/
theorem Memory.wf_reset : Memory.wf State.reset.cur.mem := Memory.wf_nil

/-- Equal reads give equal canonical memories: the canonical form is one list for each contents. -/
theorem Memory.wf_ext (m r : Memory) (hm : Memory.wf m) (hr : Memory.wf r)
    (h : ∀ a, m.read a = r.read a) : m = r := by
  induction m generalizing r with
  | nil =>
    cases r with
    | nil => rfl
    | cons d r =>
      exfalso
      have hd := h d.1
      rw [Memory.read, Memory.read, if_pos rfl] at hd
      exact hr.2 d (by simp) hd
  | cons c m ih =>
    have hcm := List.pairwise_cons.1 hm.1
    have hc : Memory.read r c.1 = some c.2 := by
      rw [← h, Memory.read, if_pos rfl]
    cases r with
    | nil => exact absurd hc (hm.2 c (by simp))
    | cons d r =>
      have hdr := List.pairwise_cons.1 hr.1
      have hd : Memory.read (c :: m) d.1 = some d.2 := by
        rw [h, Memory.read, if_pos rfl]
      have hcd : c.1 = d.1 := by
        rcases Nat.lt_trichotomy c.1 d.1 with hlt | heq | hgt
        · exfalso
          apply hm.2 c (by simp)
          rw [← hc, Memory.read_of_not_mem]
          intro x hx
          rcases List.mem_cons.1 hx with rfl | hx
          · omega
          · have := hdr.1 x hx
            omega
        · exact heq
        · exfalso
          apply hr.2 d (by simp)
          rw [← hd, Memory.read_of_not_mem]
          intro x hx
          rcases List.mem_cons.1 hx with rfl | hx
          · omega
          · have := hcm.1 x hx
            omega
      rw [Memory.read, if_pos hcd.symm] at hc
      have hcd' : c = d := by
        apply Prod.ext hcd
        exact (Option.some.inj hc).symm
      subst hcd'
      congr 1
      refine ih r ⟨hcm.2, fun x hx => hm.2 x (by simp [hx])⟩ ⟨hdr.2, fun x hx => hr.2 x (by simp [hx])⟩ fun a => ?_
      by_cases ha : c.1 = a
      · subst ha
        rw [Memory.read_of_not_mem m _ fun x hx => by have := hcm.1 x hx; omega,
          Memory.read_of_not_mem r _ fun x hx => by have := hdr.1 x hx; omega]
      · have := h a
        rwa [Memory.read, Memory.read, if_neg ha, if_neg ha] at this

/-- A byte list read from memory has the length asked for. -/
@[simp] theorem Memory.length_bytes (m : Memory) (a n : Nat) : (m.bytes a n).length = n := by
  simp [Memory.bytes]

/-- Reading bytes sees the bytes' contents alone. -/
theorem Memory.bytes_congr (m r : Memory) (a n : Nat) (h : ∀ x, a ≤ x → x < a + n → m.read x = r.read x) :
    m.bytes a n = r.bytes a n := by
  unfold Memory.bytes
  refine List.map_congr_left fun i hi => ?_
  rw [List.mem_range] at hi
  rw [h (a + i) (by omega) (by omega)]

/-- The bytes of a store, read back. -/
theorem Memory.bytes_store_self (m : Memory) (a n : Nat) (bs : List Byte) (h : bs.length ≤ n) :
    (m.store a n bs).bytes a bs.length = bs := by
  apply List.ext_getElem
  · simp
  · intro i h1 h2
    simp only [Memory.bytes, List.getElem_map, List.getElem_range]
    rw [Memory.read_store_inside _ _ _ _ _ (by omega) (by omega), if_pos (by omega)]
    simp [List.getD_eq_getElem?_getD, h2]

/-- A store elsewhere leaves the bytes of a range. -/
theorem Memory.bytes_store_outside (m : Memory) (a n b k : Nat) (bs : List Byte)
    (h : b + k ≤ a ∨ a + n ≤ b) : (m.store a n bs).bytes b k = m.bytes b k :=
  Memory.bytes_congr _ _ _ _ fun x h1 h2 => Memory.read_store_outside _ _ _ _ _ (by omega)

end Sys2Proof.Machine
end

