-- ==== Sys2Proof/Laws/Ops.lean ====
section
/-! SUPPORT. What the shared operations can do, said once: the end of a command, the materialization behind a
command, and the choice of the addressed engine. -/

namespace Sys2Proof.Machine

/-! ## The end of a command -/

theorem State.finish_next {s t : State} {x : CmdEnd} (h : s.finish x = .next t) :
    (∃ e, x = .done e ∧ t = { s with cur := e }) ∨
      ∃ c e, x = .raised c e ∧ t = { s with cur := e.raise c } := by
  cases x with
  | done e => exact .inl ⟨e, rfl, (Host.Outcome.next.inj h).symm⟩
  | raised c e => exact .inr ⟨c, e, rfl, (Host.Outcome.next.inj h).symm⟩
  | fault f => cases h

/-- A command that answers a next state completed or raised one error; it touched the addressed engine
alone. -/
theorem State.command_next {s t : State} {body : Params → Engine → CmdEnd} (h : s.command body = .next t) :
    (∃ e, body s.params s.cur.clearErr = .done e ∧ t = { s with cur := e }) ∨
      ∃ c e, body s.params s.cur.clearErr = .raised c e ∧ t = { s with cur := e.raise c } :=
  State.finish_next h

theorem State.command_done {s : State} {body : Params → Engine → CmdEnd} {e : Engine}
    (h : body s.params s.cur.clearErr = .done e) : s.command body = .next { s with cur := e } := by
  rw [State.command, h]
  rfl

theorem State.command_raised {s : State} {body : Params → Engine → CmdEnd} {c : ErrCode} {e : Engine}
    (h : body s.params s.cur.clearErr = .raised c e) :
    s.command body = .next { s with cur := e.raise c } := by
  rw [State.command, h]
  rfl

theorem State.command_fault {s : State} {body : Params → Engine → CmdEnd} {f : Fault}
    (h : s.command body = .fault f) : body s.params s.cur.clearErr = .fault f := by
  rw [State.command] at h
  cases hb : body s.params s.cur.clearErr with
  | done e => rw [hb] at h; cases h
  | raised c e => rw [hb] at h; cases h
  | fault g =>
    rw [hb] at h
    exact congrArg CmdEnd.fault (Host.Outcome.fault.inj h)

theorem State.command_not_refused (s : State) (body : Params → Engine → CmdEnd) (r : Refusal) :
    s.command body ≠ .refused r := by
  rw [State.command]
  cases body s.params s.cur.clearErr <;> exact fun h => by cases h

/-! ## EnsureDBUF -/

/-- What EnsureDBUF does where it does not stop (R147, R143): nothing, or one materialization. -/
theorem ensureDbuf_ok {P : Params} {e e' : Engine} (h : ensureDbuf P e = .ok e') :
    (e.dvalid = true ∧ e' = e) ∨
      (e.dvalid = false ∧ trackReady P e = none ∧
        ∃ ys, syncBytes e.mem e.bitcount.toNat (decodedLength e.bitcount.toNat) 0 = .ok ys ∧
          e' = setDecoded P e ys) := by
  unfold ensureDbuf at h
  split at h
  · exact .inl ⟨‹_›, (Except.ok.inj h).symm⟩
  · split at h
    · cases h
    · split at h
      · cases h
      · exact .inr ⟨Bool.eq_false_iff.2 ‹_›, ‹_›, _, ‹_›, (Except.ok.inj h).symm⟩

/-- With DVALID = 1 EnsureDBUF does nothing. -/
theorem ensureDbuf_of_dvalid {P : Params} {e : Engine} (h : e.dvalid = true) : ensureDbuf P e = .ok e := by
  rw [ensureDbuf, if_pos h]

/-- A command that reads DBUF goes on with the engine EnsureDBUF left, or raises its error on the engine as
it was. -/
theorem withDbuf_cases {P : Params} {e : Engine} {rest : Engine → CmdEnd} {x : CmdEnd}
    (h : withDbuf P e rest = x) :
    (∃ e', ensureDbuf P e = .ok e' ∧ rest e' = x) ∨
      (∃ c, ensureDbuf P e = .error (.raise c) ∧ x = .raised c e) ∨
      ∃ f, ensureDbuf P e = .error (.fault f) ∧ x = .fault f := by
  unfold withDbuf at h
  split at h
  · exact .inr (.inl ⟨_, ‹_›, h.symm⟩)
  · exact .inr (.inr ⟨_, ‹_›, h.symm⟩)
  · exact .inl ⟨_, ‹_›, h⟩

theorem withDbuf_ok {P : Params} {e e' : Engine} {rest : Engine → CmdEnd} (h : ensureDbuf P e = .ok e') :
    withDbuf P e rest = rest e' := by
  rw [withDbuf, h]

/-! ## Engines -/

@[simp] theorem State.engines_length (s : State) : s.engines.length = s.below.length + 1 + s.above.length := by
  simp [State.engines]
  omega

@[simp] theorem State.engines_cur (s : State) : s.engines[s.below.length]? = some s.cur := by
  simp [State.engines]

/-- Addressing an engine renumbers nothing. -/
theorem State.focus_some {s s' : State} {k : Nat} (h : s.focus k = some s') :
    s'.engines = s.engines ∧ s'.below.length = k ∧ s.engines[k]? = some s'.cur ∧ s'.params = s.params ∧
      s'.inbox = s.inbox ∧ s'.rdata = s.rdata ∧ s'.resets = s.resets := by
  unfold State.focus at h
  split at h
  · cases h
  · rename_i e he
    obtain rfl := Option.some.inj h
    obtain ⟨hk, rfl⟩ := List.getElem?_eq_some_iff.1 he
    refine ⟨?_, ?_, he, rfl, rfl, rfl, rfl⟩
    · show s.engines.take k ++ s.engines[k] :: s.engines.drop (k + 1) = s.engines
      rw [List.getElem_cons_drop, List.take_append_drop]
    · show (s.engines.take k).length = k
      rw [List.length_take]
      omega

/-- The addressed engine stays addressed. -/
theorem State.focus_self (s : State) : s.focus s.below.length = some s := by
  unfold State.focus
  rw [State.engines_cur]
  simp [State.engines]

theorem State.focus_none {s : State} {k : Nat} (h : s.focus k = none) : s.engines.length ≤ k := by
  unfold State.focus at h
  split at h
  · exact List.getElem?_eq_none_iff.1 ‹_›
  · cases h

/-- Setting the addressed engine changes that engine alone. -/
theorem State.engines_setCur (s : State) (e : Engine) (k : Nat) (hk : k ≠ s.below.length) :
    (State.engines { s with cur := e })[k]? = s.engines[k]? := by
  simp only [State.engines]
  rcases Nat.lt_or_ge k s.below.length with h | h
  · rw [List.getElem?_append_left h, List.getElem?_append_left h]
  · rw [List.getElem?_append_right h, List.getElem?_append_right h]
    obtain ⟨j, hj⟩ : ∃ j, k - s.below.length = j + 1 := ⟨k - s.below.length - 1, by omega⟩
    rw [hj, List.getElem?_cons_succ, List.getElem?_cons_succ]

end Sys2Proof.Machine
end

