-- ==== Sys2Proof/Laws/Exec.lean ====
section
/-! SUPPORT. What every command, every host access and every search can do, said once: a command's outcome touches
the addressed engine alone, a host access touches the engine it addresses, a search is decided at each offset. -/

namespace Sys2Proof.Machine

/-! ## Commands -/

/-- Every command is pseudocode of its own, run on the addressed engine with ERR cleared. -/
theorem exec_command (i : Instr) : ∃ body, ∀ s, exec i s = s.command body := by
  cases i <;> refine ⟨?_, fun s => ?_⟩ <;>
    first
    | (simp only [exec, execCrst, execNbit, execNbyte, execMat, execFind, execSelv, execScan, execDa44, execDa35,
        execDd16, execEd16, execX62, execU62, execX44, execU44, execDd13, execDd35]
       rfl)
    | skip

/-- A command that answers a next state changed the addressed engine alone. -/
theorem exec_next {i : Instr} {s t : State} (h : exec i s = .next t) : t = { s with cur := t.cur } := by
  obtain ⟨body, hb⟩ := exec_command i
  rw [hb] at h
  rcases State.command_next h with ⟨e, -, rfl⟩ | ⟨c, e, -, rfl⟩ <;> rfl

/-- No command is refused. -/
theorem exec_not_refused (i : Instr) (s : State) (r : Refusal) : exec i s ≠ .refused r := by
  obtain ⟨body, hb⟩ := exec_command i
  rw [hb]
  exact State.command_not_refused s _ r

/-- A field error is an error. -/
theorem errOfField_ne (f : FieldError) : errOfField f ≠ .noError := by
  cases f <;> simp [errOfField]

/-- TrackReady raises NoTrack or TrackOverflow (R145). -/
theorem trackReady_some {P : Params} {e : Engine} {c : ErrCode} (h : trackReady P e = some c) :
    (c = .noTrack ∧ e.bitcount = 0) ∨
      (c = .trackOverflow ∧ e.bitcount ≠ 0 ∧ 8 * P.tbufBytes < e.bitcount.toNat) := by
  unfold trackReady at h
  split at h
  · exact .inl ⟨(Option.some.inj h).symm, ‹_›⟩
  · split at h
    · exact .inr ⟨(Option.some.inj h).symm, ‹_›, ‹_›⟩
    · cases h

/-- TrackReady passes on a bit count from 1 to the buffer's bits (R145). -/
theorem trackReady_none {P : Params} {e : Engine} (h : trackReady P e = none) :
    e.bitcount ≠ 0 ∧ e.bitcount.toNat ≤ 8 * P.tbufBytes := by
  unfold trackReady at h
  split at h
  · cases h
  · split at h
    · cases h
    · exact ⟨‹_›, by omega⟩

/-! ## Searches -/

/-- The three bytes at the head of the array from offset `o` on are the pattern's, wholly inside it. -/
theorem patternAtHead_drop (p : Pattern) (d : List Byte) (o : Nat) :
    patternAtHead p (d.drop o) = true ↔ OccursAt p d o := by
  have e0 : (d.drop o)[0]? = d[o]? := by rw [List.getElem?_drop, Nat.add_zero]
  have e1 : (d.drop o)[1]? = d[o + 1]? := by rw [List.getElem?_drop]
  have e2 : (d.drop o)[2]? = d[o + 2]? := by rw [List.getElem?_drop]
  unfold OccursAt patternAtHead
  rw [← e0, ← e1, ← e2]
  rcases d.drop o with _ | ⟨a, _ | ⟨b, _ | ⟨c, t⟩⟩⟩ <;> simp [List.isPrefixOf]
  constructor <;> rintro ⟨rfl, rfl, rfl⟩ <;> exact ⟨rfl, rfl, rfl⟩

/-- A pattern needs three bytes. -/
theorem OccursAt.lt {p : Pattern} {d : List Byte} {o : Nat} (h : OccursAt p d o) : o + 2 < d.length := by
  obtain ⟨hlt, -⟩ := List.getElem?_eq_some_iff.1 h.2.2
  exact hlt

/-- The decoded array has DLEN bytes. -/
@[simp] theorem decodedArray_length (e : Engine) : (decodedArray e).length = e.dlen.toNat := by
  simp [decodedArray, Memory.bytes]

/-! ## The host port -/

theorem engineStride_pos : 0 < engineStride := by decide

/-- The engine and the offset of a block address (R81). -/
theorem engineAddr_split (k : Nat) {off : Nat} (h : off < engineStride) :
    engineAddr k off / engineStride = k ∧ engineAddr k off % engineStride = off := by
  unfold engineAddr
  constructor
  · rw [Nat.add_comm, Nat.add_mul_div_left _ _ engineStride_pos, Nat.div_eq_of_lt h, Nat.zero_add]
  · rw [Nat.mul_add_mod, Nat.mod_eq_of_lt h]

/-- The engine and the offset of an address of the addressed engine. -/
theorem State.base_add (s : State) {off : Nat} (h : off < engineStride) :
    (s.base + off) / engineStride = s.below.length ∧ (s.base + off) % engineStride = off :=
  engineAddr_split s.below.length h

/-- With legal parameters every byte of a window lies inside its engine's addresses. -/
theorem Window.lt_stride {P : Params} (hP : P.Ok) {w : Window} {off : Nat} (h : off < w.base + w.size P) :
    off < engineStride := by
  have hb := hP.1.2
  refine Nat.lt_of_lt_of_le h ?_
  cases w with
  | tbuf => show 0x10000 + P.tbufBytes ≤ 0x100000; omega
  | dbuf => show 0x20000 + (P.tbufBytes + 600) ≤ 0x100000; omega
  | sect => show 0x30000 + 512 ≤ 0x100000; omega
  | pbuf => show 0x40000 + 8192 ≤ 0x100000; omega
  | wbuf => show 0x50000 + 512 ≤ 0x100000; omega
  | nbuf => show 0x60000 + 512 ≤ 0x100000; omega

/-- Everything a host write can do where it goes through: a command word issued on the addressed engine, one of
its registers written, or bytes of one of its writable buffers. -/
theorem hostWrite_next {s t : State} {n addr : Nat} {v : Word} (h : hostWrite s n addr v = .next t) :
    ∃ s', s.focus (addr / engineStride) = some s' ∧
      ((addr % engineStride = 0 ∧ n = 4 ∧ issue s' v = .next t) ∨
        (addr % engineStride ≠ 0 ∧ addr % engineStride < regWindow ∧ n = 4 ∧
          t = { s' with cur := regWrite s'.cur (addr % engineStride) v }) ∨
        ∃ w, windowOf s.params (addr % engineStride) n = some w ∧ w.writable = true ∧
          (n = 1 ∨ n = 2 ∨ n = 4) ∧
          t = { s' with cur := bufWrite s'.cur w (addr % engineStride) ((wordBytes v).take n) }) := by
  unfold hostWrite at h
  simp only [] at h
  split at h
  · cases h
  · rename_i s' hs'
    refine ⟨s', hs', ?_⟩
    split at h
    · rename_i hreg
      have hreg : addr % engineStride < regWindow ∧ n = 4 ∧ addr % engineStride % 4 = 0 := by
        simpa [regAccess] using hreg
      split at h
      · exact .inl ⟨‹_›, hreg.2.1, h⟩
      · exact .inr (.inl ⟨‹_›, hreg.1, hreg.2.1, (Host.Outcome.next.inj h).symm⟩)
    · split at h
      · rename_i hbuf
        have hbuf : (n = 1 ∨ n = 2 ∨ n = 4) ∧ addr % engineStride % n = 0 := by simpa [bufAccess] using hbuf
        split at h
        · cases h
        · split at h
          · exact .inr (.inr ⟨_, ‹_›, ‹_›, hbuf.1, (Host.Outcome.next.inj h).symm⟩)
          · cases h
      · cases h

/-- What a step can do where it answers a next state. -/
theorem step_next {s t : State} (h : step s = .next t) :
    (s.inbox = [] ∧ t = s) ∨ ∃ op ops, s.inbox = op :: ops ∧ hostStep { s with inbox := ops } op = .next t := by
  unfold step at h
  split at h
  · exact .inl ⟨‹_›, (Host.Outcome.next.inj h).symm⟩
  · exact .inr ⟨_, _, ‹_›, h⟩

/-- The window an access falls into holds all its bytes. -/
theorem windowOf_some {P : Params} {off n : Nat} {w : Window} (h : windowOf P off n = some w) :
    w.base ≤ off ∧ off + n ≤ w.base + w.size P := by
  have := List.find?_some h
  simpa using this

/-- With legal parameters the windows do not overlap, so the window that holds an access's bytes is its
window. -/
theorem windowOf_eq {P : Params} (hP : P.Ok) {off n : Nat} {w : Window} (hn : 0 < n) (h1 : w.base ≤ off)
    (h2 : off + n ≤ w.base + w.size P) : windowOf P off n = some w := by
  have hb := hP.1
  cases h : windowOf P off n with
  | none =>
    have hw : w ∈ [Window.tbuf, .dbuf, .sect, .pbuf, .wbuf, .nbuf] := by cases w <;> simp
    have := List.find?_eq_none.1 h w hw
    simp at this
    omega
  | some x =>
    obtain ⟨h3, h4⟩ := windowOf_some h
    cases w <;> cases x <;>
      first
      | rfl
      | (simp only [Window.base, Window.size, tbufBase, dbufBase, sectBase, pbufBase, wbufBase, nbufBase,
          guardBytes] at h1 h2 h3 h4
         omega)

end Sys2Proof.Machine
end

