-- ==== Sys2Proof/Laws/Fields.lean ====
section
/-! SUPPORT. The sizes of what the field decoders, the encoder and the scan produce, and what a scan depends on. -/

namespace Sys2Proof.Machine

/-! ## Data fields -/

@[simp] theorem backChain_length : ∀ ts : List Byte, (backChain ts).length = ts.length
  | [] => rfl
  | t :: ts => by simp [backChain, backChain_length ts]

@[simp] theorem forwardChain_length : ∀ (p : BitVec 6) (vs : List (BitVec 6)),
    (forwardChain p vs).length = vs.length + 1
  | _, [] => rfl
  | _, v :: vs => by simp [forwardChain, forwardChain_length v vs]

@[simp] theorem splitPayload_length (p : List Byte) : (splitPayload p).length = 342 := by
  simp [splitPayload, aux16, payload525]

/-- The encoder writes 343 disk bytes (R256). -/
@[simp] theorem encodeData16_length (P : Params) (p : List Byte) : (encodeData16 P p).length = 343 := by
  simp [encodeData16]

/-- The decoder answers 256 bytes (R251). -/
theorem decodeData16_length {P : Params} {d p : List Byte} {a : Nat} (h : decodeData16 P d a = .ok p) :
    p.length = 256 := by
  unfold decodeData16 at h
  split at h
  · cases h
  · split at h
    · cases h
    · unfold payloadOf at h
      simp only [] at h
      split at h
      · obtain rfl := Except.ok.inj h
        simp [payload525]
      · cases h

/-- DECODE13's payload has 256 bytes (R261). -/
theorem decodeData13_length {P : Params} {d p : List Byte} {a : Nat}
    (h : decodeData13 P d a = .present (.ok p)) : p.length = 256 := by
  unfold decodeData13 at h
  split at h
  · cases hc : Config.decode13 (d.drop a) with
    | error f => rw [hc] at h; simp [Except.map] at h
    | ok v =>
      rw [hc] at h
      simp only [Except.map, OpenDecode.present.injEq, Except.ok.injEq] at h
      simp [← h]
  · cases h

/-- DECODE35's payload has 512 bytes once the tag is dropped (R263). -/
theorem decodeData35_length {P : Params} {d p : List Byte} {a : Nat}
    (h : decodeData35 P d a = .present (.ok p)) : p.length = 512 := by
  unfold decodeData35 at h
  split at h
  · cases hc : Config.decode35 (d.drop a) with
    | error f => rw [hc] at h; simp [Except.map] at h
    | ok v =>
      rw [hc] at h
      simp only [Except.map, OpenDecode.present.injEq, Except.ok.injEq] at h
      simp [← h, tag35]
  · cases h

/-! ## Sector entries -/

theorem statusOf_payload (r : Except FieldError (List Byte)) :
    ((statusOf r).1 = .ok ∧ r = .ok (statusOf r).2) ∨ ((statusOf r).1 ≠ .ok ∧ (statusOf r).2 = []) := by
  cases r with
  | ok p => exact .inl ⟨rfl, rfl⟩
  | error f => exact .inr ⟨by cases f <;> simp [statusOf, statusOfField], rfl⟩

/-- An entry's payload is empty unless its status is OK, and fits its slot (R53, R182, R291). -/
theorem entryOf_payload (P : Params) (e : Engine) (v : Variant) (d : List Byte) (a : Nat) (f : AddrField) :
    ((entryOf P e v d a f).status ≠ .ok → (entryOf P e v d a f).payload = []) ∧
      (entryOf P e v d a f).payload.length ≤ 512 := by
  have hopen : ∀ r : OpenDecode, (∀ p, r = .present (.ok p) → p.length ≤ 512) →
      ((statusOfOpen r).1 ≠ .ok → (statusOfOpen r).2 = []) ∧ (statusOfOpen r).2.length ≤ 512 := by
    intro r hr
    cases r with
    | absent => simp [statusOfOpen]
    | present x =>
      rcases statusOf_payload x with ⟨h1, h2⟩ | ⟨h1, h2⟩
      · exact ⟨fun h => absurd h1 h, hr _ (congrArg OpenDecode.present h2)⟩
      · exact ⟨fun _ => h2, by simp [statusOfOpen, h2]⟩
  unfold entryOf
  simp only []
  split
  · simp
  · unfold decodeEntry
    split
    · simp
    · cases v with
      | s16 =>
        rcases statusOf_payload (decodeData16 P d ‹_›) with ⟨h1, h2⟩ | ⟨h1, h2⟩
        · exact ⟨fun h => absurd h1 h, (decodeData16_length h2).trans_le (by omega)⟩
        · exact ⟨fun _ => h2, by simp [h2]⟩
      | s13 => exact hopen _ fun p hp => by have := decodeData13_length hp; omega
      | gcr35 => exact hopen _ fun p hp => by have := decodeData35_length hp; omega

@[simp] theorem entryBytes_length (x : SectorEntry) : (entryBytes x).length = 32 := by
  simp [entryBytes, wordBytes]

@[simp] theorem tableBytes_length (es : List SectorEntry) : (tableBytes es).length = 32 * es.length := by
  induction es with
  | nil => rfl
  | cons x es ih =>
    simp only [tableBytes, List.flatMap_cons, List.length_append, entryBytes_length, List.length_cons] at *
    omega

theorem slotBytes_length (es : List SectorEntry) (h : ∀ x ∈ es, x.payload.length ≤ 512) :
    (slotBytes es).length = 512 * es.length := by
  induction es with
  | nil => rfl
  | cons x es ih =>
    have hx := h x (by simp)
    have := ih fun y hy => h y (by simp [hy])
    simp only [slotBytes, List.flatMap_cons, List.length_append, List.length_cons, padTo,
      List.length_replicate] at *
    omega

/-! ## The scan -/

/-- A scan depends on the engine through TRKIDX and A35POL alone (R176, R178). -/
theorem scanFrom_congr {P : Params} {e e' : Engine} {v : Variant} {d : List Byte} (h1 : e.trkidx = e'.trkidx)
    (h2 : e.cfgA35pol = e'.cfgA35pol) :
    ∀ (rest : List Byte) (a : Nat) (es : List SectorEntry),
      scanFrom P e v d a rest es = scanFrom P e' v d a rest es
  | [], _, _ => rfl
  | b :: rest, a, es => by
    have ht : targetCount P e v = targetCount P e' v := by cases v <;> simp [targetCount, h1]
    have he : ∀ f, entryOf P e v d a f = entryOf P e' v d a f := fun f => by
      simp [entryOf, addrRejected, h2]
    unfold scanFrom
    simp only [ht, he, scanFrom_congr h1 h2 rest]

/-- A scan that starts below its target count never passes it, ends for one of three reasons, and reaches it
exactly where the reason is COUNT (R175, R59). -/
theorem scanFrom_count (P : Params) (e : Engine) (v : Variant) (d : List Byte) :
    ∀ (rest : List Byte) (a : Nat) (es : List SectorEntry), es.length < targetCount P e v →
      let r := scanFrom P e v d a rest es
      r.1.length ≤ targetCount P e v ∧ (r.2 = .count ∨ r.2 = .noMatch ∨ r.2 = .duplicate) ∧
        (r.2 = .count ↔ r.1.length = targetCount P e v)
  | [], a, es, h => by
    simp only [scanFrom]
    refine ⟨by omega, by simp, by simp; omega⟩
  | b :: rest, a, es, h => by
    have ih := scanFrom_count P e v d rest (a + 1)
    unfold scanFrom
    split
    · split
      · exact ih es h
      · split
        · refine ⟨by simp; omega, by simp, by simp; omega⟩
        · split
          · refine ⟨by simp; omega, by simp, by simp; omega⟩
          · exact ih _ (by simp; omega)
    · exact ih es h

/-- What holds of the entries at the start of a scan and of every entry it adds holds of all it ends with. -/
theorem scanFrom_forall {P : Params} {e : Engine} {v : Variant} {d : List Byte} {p : SectorEntry → Prop}
    (hp : ∀ a f, decodeAddr P v d a = .ok f → p (entryOf P e v d a f)) :
    ∀ (rest : List Byte) (a : Nat) (es : List SectorEntry), (∀ x ∈ es, p x) →
      ∀ x ∈ (scanFrom P e v d a rest es).1, p x
  | [], _, _, h => by simpa [scanFrom] using h
  | b :: rest, a, es, h => by
    have ih := scanFrom_forall hp rest (a + 1)
    unfold scanFrom
    split
    · split
      · exact ih es h
      · rename_i f hf
        have h' : ∀ x ∈ es ++ [entryOf P e v d a f], p x := by
          intro x hx
          rcases List.mem_append.1 hx with hx | hx
          · exact h x hx
          · rw [List.mem_singleton.1 hx]
            exact hp a f hf
        split
        · exact h
        · split
          · exact h'
          · exact ih _ h'
    · exact ih es h

/-- No two entries of a scan have one sector number (R180). -/
theorem scanFrom_sectors (P : Params) (e : Engine) (v : Variant) (d : List Byte) :
    ∀ (rest : List Byte) (a : Nat) (es : List SectorEntry),
      es.Pairwise (fun x y => x.field.sector ≠ y.field.sector) →
      (scanFrom P e v d a rest es).1.Pairwise (fun x y => x.field.sector ≠ y.field.sector)
  | [], _, _, h => by simpa [scanFrom] using h
  | b :: rest, a, es, h => by
    have ih := scanFrom_sectors P e v d rest (a + 1)
    unfold scanFrom
    split
    · split
      · exact ih es h
      · rename_i f hf
        split
        · exact h
        · rename_i hd
          have h' : (es ++ [entryOf P e v d a f]).Pairwise (fun x y => x.field.sector ≠ y.field.sector) := by
            rw [List.pairwise_append]
            refine ⟨h, by simp, fun x hx y hy => ?_⟩
            rw [List.mem_singleton.1 hy]
            intro hxy
            refine hd ?_
            exact List.any_eq_true.2 ⟨x, hx, by simpa [entryOf] using hxy⟩
          split
          · exact h'
          · exact ih _ h'
    · exact ih es h

end Sys2Proof.Machine
end

