-- ==== Sys2Proof/Laws/PerInstr.lean ====
section
/-! SUPPORT. Statements made of each command as syntax: `EncodesRow`, that the encoder's word has the match bits
of the command's row of R114's table under the row's mask. -/

namespace Sys2Proof.Laws.EncodesRow

/-- The word of a well-formed command matches its row of the opcode table. -/
def Statement (i : Instr) : Prop :=
  i.wellFormed = true → ∃ r, opcodeRows[i.row]? = some r ∧ encode i &&& r.2 = r.1

/-- A mask that leaves out the low 8 bits keeps the bytes above them. -/
theorem mask_one (b : Byte) (opc : Byte) :
    wordOf opc 0 0 b &&& 0xFFFFFF00 = wordOf opc 0 0 0 := by
  apply BitVec.eq_of_getLsbD_eq
  intro i hi
  simp only [wordOf, BitVec.getLsbD_and, BitVec.getLsbD_append]
  interval_cases i <;> simp

/-- A mask that leaves out the low 16 bits keeps the bytes above them. -/
theorem mask_two (b c : Byte) (opc : Byte) :
    wordOf opc 0 c b &&& 0xFFFF0000 = wordOf opc 0 0 0 := by
  apply BitVec.eq_of_getLsbD_eq
  intro i hi
  simp only [wordOf, BitVec.getLsbD_and, BitVec.getLsbD_append]
  interval_cases i <;> simp

/-- A mask that leaves out the low 24 bits keeps the byte above them. -/
theorem mask_three (b c d : Byte) (opc : Byte) :
    wordOf opc d c b &&& 0xFF000000 = wordOf opc 0 0 0 := by
  apply BitVec.eq_of_getLsbD_eq
  intro i hi
  simp only [wordOf, BitVec.getLsbD_and, BitVec.getLsbD_append]
  interval_cases i <;> simp

/-- X62's mask keeps nothing of a value of six bits. -/
theorem mask_six : ∀ v : Byte, v.toNat < 64 → wordOf 0x0C 0 0 v &&& 0xFFFFFFC0 = 0x0C000000 := by
  decide +kernel

theorem crst : Statement .crst := fun _ => ⟨_, rfl, by decide⟩
theorem nbit : Statement .nbit := fun _ => ⟨_, rfl, by decide⟩
theorem nbyte : Statement .nbyte := fun _ => ⟨_, rfl, by decide⟩
theorem mat : Statement .mat := fun _ => ⟨_, rfl, by decide⟩
theorem find (p0 p1 p2 : Byte) : Statement (.find p0 p1 p2) := fun _ =>
  ⟨_, rfl, (mask_three p2 p1 p0 0x05).trans (by decide)⟩
theorem selv : Statement .selv := fun _ => ⟨_, rfl, by decide⟩
theorem scan : Statement .scan := fun _ => ⟨_, rfl, by decide⟩
theorem da44 : Statement .da44 := fun _ => ⟨_, rfl, by decide⟩
theorem da35 : Statement .da35 := fun _ => ⟨_, rfl, by decide⟩
theorem dd16 : Statement .dd16 := fun _ => ⟨_, rfl, by decide⟩
theorem ed16 : Statement .ed16 := fun _ => ⟨_, rfl, by decide⟩
theorem x62 (v : Byte) : Statement (.x62 v) := fun h =>
  ⟨_, rfl, mask_six v (by simpa [Instr.wellFormed] using h)⟩
theorem u62 (b : Byte) : Statement (.u62 b) := fun _ =>
  ⟨_, rfl, (mask_one b 0x0D).trans (by decide)⟩
theorem x44 (b : Byte) : Statement (.x44 b) := fun _ =>
  ⟨_, rfl, (mask_one b 0x0E).trans (by decide)⟩
theorem u44 (bo be : Byte) : Statement (.u44 bo be) := fun _ =>
  ⟨_, rfl, (mask_two be bo 0x0F).trans (by decide)⟩
theorem dd13 : Statement .dd13 := fun _ => ⟨_, rfl, by decide⟩
theorem dd35 : Statement .dd35 := fun _ => ⟨_, rfl, by decide⟩

end Sys2Proof.Laws.EncodesRow
end

