-- ==== Sys2Proof/Laws/State.lean ====
section
/-! SUPPORT. One lemma for each field of an engine under each named update, all true by rfl, so that no proof
unfolds a record update. -/

namespace Sys2Proof.Machine

section
variable (e : Engine) (c : ErrCode)
@[simp] theorem Engine.raise_found : (e.raise c).found = e.found := rfl
@[simp] theorem Engine.raise_dvalid : (e.raise c).dvalid = e.dvalid := rfl
@[simp] theorem Engine.raise_anyErr : (e.raise c).anyErr = true := rfl
@[simp] theorem Engine.raise_sectFail : (e.raise c).sectFail = e.sectFail := rfl
@[simp] theorem Engine.raise_err : (e.raise c).err = c := rfl
@[simp] theorem Engine.raise_stop : (e.raise c).stop = e.stop := rfl
@[simp] theorem Engine.raise_result : (e.raise c).result = e.result := rfl
@[simp] theorem Engine.raise_opa : (e.raise c).opa = e.opa := rfl
@[simp] theorem Engine.raise_cfgVersion : (e.raise c).cfgVersion = e.cfgVersion := rfl
@[simp] theorem Engine.raise_cfgDiskType : (e.raise c).cfgDiskType = e.cfgDiskType := rfl
@[simp] theorem Engine.raise_cfgBootFmt : (e.raise c).cfgBootFmt = e.cfgBootFmt := rfl
@[simp] theorem Engine.raise_cfgA35pol : (e.raise c).cfgA35pol = e.cfgA35pol := rfl
@[simp] theorem Engine.raise_bitcount : (e.raise c).bitcount = e.bitcount := rfl
@[simp] theorem Engine.raise_trkidx : (e.raise c).trkidx = e.trkidx := rfl
@[simp] theorem Engine.raise_bitpos : (e.raise c).bitpos = e.bitpos := rfl
@[simp] theorem Engine.raise_dlen : (e.raise c).dlen = e.dlen := rfl
@[simp] theorem Engine.raise_variant : (e.raise c).variant = e.variant := rfl
@[simp] theorem Engine.raise_scount : (e.raise c).scount = e.scount := rfl
@[simp] theorem Engine.raise_afa : (e.raise c).afa = e.afa := rfl
@[simp] theorem Engine.raise_afb : (e.raise c).afb = e.afb := rfl
@[simp] theorem Engine.raise_revs : (e.raise c).revs = e.revs := rfl
@[simp] theorem Engine.raise_mem : (e.raise c).mem = e.mem := rfl
end

section
variable (e : Engine)
@[simp] theorem Engine.clearErr_found : e.clearErr.found = e.found := rfl
@[simp] theorem Engine.clearErr_dvalid : e.clearErr.dvalid = e.dvalid := rfl
@[simp] theorem Engine.clearErr_anyErr : e.clearErr.anyErr = e.anyErr := rfl
@[simp] theorem Engine.clearErr_sectFail : e.clearErr.sectFail = e.sectFail := rfl
@[simp] theorem Engine.clearErr_err : e.clearErr.err = .noError := rfl
@[simp] theorem Engine.clearErr_stop : e.clearErr.stop = e.stop := rfl
@[simp] theorem Engine.clearErr_result : e.clearErr.result = e.result := rfl
@[simp] theorem Engine.clearErr_opa : e.clearErr.opa = e.opa := rfl
@[simp] theorem Engine.clearErr_cfgVersion : e.clearErr.cfgVersion = e.cfgVersion := rfl
@[simp] theorem Engine.clearErr_cfgDiskType : e.clearErr.cfgDiskType = e.cfgDiskType := rfl
@[simp] theorem Engine.clearErr_cfgBootFmt : e.clearErr.cfgBootFmt = e.cfgBootFmt := rfl
@[simp] theorem Engine.clearErr_cfgA35pol : e.clearErr.cfgA35pol = e.cfgA35pol := rfl
@[simp] theorem Engine.clearErr_bitcount : e.clearErr.bitcount = e.bitcount := rfl
@[simp] theorem Engine.clearErr_trkidx : e.clearErr.trkidx = e.trkidx := rfl
@[simp] theorem Engine.clearErr_bitpos : e.clearErr.bitpos = e.bitpos := rfl
@[simp] theorem Engine.clearErr_dlen : e.clearErr.dlen = e.dlen := rfl
@[simp] theorem Engine.clearErr_variant : e.clearErr.variant = e.variant := rfl
@[simp] theorem Engine.clearErr_scount : e.clearErr.scount = e.scount := rfl
@[simp] theorem Engine.clearErr_afa : e.clearErr.afa = e.afa := rfl
@[simp] theorem Engine.clearErr_afb : e.clearErr.afb = e.afb := rfl
@[simp] theorem Engine.clearErr_revs : e.clearErr.revs = e.revs := rfl
@[simp] theorem Engine.clearErr_mem : e.clearErr.mem = e.mem := rfl
end

section
variable (e : Engine) (b : Bool)
@[simp] theorem Engine.setFound_found : (e.setFound b).found = b := rfl
@[simp] theorem Engine.setFound_dvalid : (e.setFound b).dvalid = e.dvalid := rfl
@[simp] theorem Engine.setFound_anyErr : (e.setFound b).anyErr = e.anyErr := rfl
@[simp] theorem Engine.setFound_sectFail : (e.setFound b).sectFail = e.sectFail := rfl
@[simp] theorem Engine.setFound_err : (e.setFound b).err = e.err := rfl
@[simp] theorem Engine.setFound_stop : (e.setFound b).stop = e.stop := rfl
@[simp] theorem Engine.setFound_result : (e.setFound b).result = e.result := rfl
@[simp] theorem Engine.setFound_opa : (e.setFound b).opa = e.opa := rfl
@[simp] theorem Engine.setFound_cfgVersion : (e.setFound b).cfgVersion = e.cfgVersion := rfl
@[simp] theorem Engine.setFound_cfgDiskType : (e.setFound b).cfgDiskType = e.cfgDiskType := rfl
@[simp] theorem Engine.setFound_cfgBootFmt : (e.setFound b).cfgBootFmt = e.cfgBootFmt := rfl
@[simp] theorem Engine.setFound_cfgA35pol : (e.setFound b).cfgA35pol = e.cfgA35pol := rfl
@[simp] theorem Engine.setFound_bitcount : (e.setFound b).bitcount = e.bitcount := rfl
@[simp] theorem Engine.setFound_trkidx : (e.setFound b).trkidx = e.trkidx := rfl
@[simp] theorem Engine.setFound_bitpos : (e.setFound b).bitpos = e.bitpos := rfl
@[simp] theorem Engine.setFound_dlen : (e.setFound b).dlen = e.dlen := rfl
@[simp] theorem Engine.setFound_variant : (e.setFound b).variant = e.variant := rfl
@[simp] theorem Engine.setFound_scount : (e.setFound b).scount = e.scount := rfl
@[simp] theorem Engine.setFound_afa : (e.setFound b).afa = e.afa := rfl
@[simp] theorem Engine.setFound_afb : (e.setFound b).afb = e.afb := rfl
@[simp] theorem Engine.setFound_revs : (e.setFound b).revs = e.revs := rfl
@[simp] theorem Engine.setFound_mem : (e.setFound b).mem = e.mem := rfl
end

section
variable (e : Engine)
@[simp] theorem Engine.invalidate_found : e.invalidate.found = e.found := rfl
@[simp] theorem Engine.invalidate_dvalid : e.invalidate.dvalid = false := rfl
@[simp] theorem Engine.invalidate_anyErr : e.invalidate.anyErr = e.anyErr := rfl
@[simp] theorem Engine.invalidate_sectFail : e.invalidate.sectFail = e.sectFail := rfl
@[simp] theorem Engine.invalidate_err : e.invalidate.err = e.err := rfl
@[simp] theorem Engine.invalidate_stop : e.invalidate.stop = e.stop := rfl
@[simp] theorem Engine.invalidate_result : e.invalidate.result = e.result := rfl
@[simp] theorem Engine.invalidate_opa : e.invalidate.opa = e.opa := rfl
@[simp] theorem Engine.invalidate_cfgVersion : e.invalidate.cfgVersion = e.cfgVersion := rfl
@[simp] theorem Engine.invalidate_cfgDiskType : e.invalidate.cfgDiskType = e.cfgDiskType := rfl
@[simp] theorem Engine.invalidate_cfgBootFmt : e.invalidate.cfgBootFmt = e.cfgBootFmt := rfl
@[simp] theorem Engine.invalidate_cfgA35pol : e.invalidate.cfgA35pol = e.cfgA35pol := rfl
@[simp] theorem Engine.invalidate_bitcount : e.invalidate.bitcount = e.bitcount := rfl
@[simp] theorem Engine.invalidate_trkidx : e.invalidate.trkidx = e.trkidx := rfl
@[simp] theorem Engine.invalidate_bitpos : e.invalidate.bitpos = e.bitpos := rfl
@[simp] theorem Engine.invalidate_dlen : e.invalidate.dlen = 0 := rfl
@[simp] theorem Engine.invalidate_variant : e.invalidate.variant = e.variant := rfl
@[simp] theorem Engine.invalidate_scount : e.invalidate.scount = e.scount := rfl
@[simp] theorem Engine.invalidate_afa : e.invalidate.afa = e.afa := rfl
@[simp] theorem Engine.invalidate_afb : e.invalidate.afb = e.afb := rfl
@[simp] theorem Engine.invalidate_revs : e.invalidate.revs = e.revs := rfl
@[simp] theorem Engine.invalidate_mem : e.invalidate.mem = e.mem := rfl
end

section
variable (e : Engine) (w : Word)
@[simp] theorem Engine.setResult_found : (e.setResult w).found = e.found := rfl
@[simp] theorem Engine.setResult_dvalid : (e.setResult w).dvalid = e.dvalid := rfl
@[simp] theorem Engine.setResult_anyErr : (e.setResult w).anyErr = e.anyErr := rfl
@[simp] theorem Engine.setResult_sectFail : (e.setResult w).sectFail = e.sectFail := rfl
@[simp] theorem Engine.setResult_err : (e.setResult w).err = e.err := rfl
@[simp] theorem Engine.setResult_stop : (e.setResult w).stop = e.stop := rfl
@[simp] theorem Engine.setResult_result : (e.setResult w).result = w := rfl
@[simp] theorem Engine.setResult_opa : (e.setResult w).opa = e.opa := rfl
@[simp] theorem Engine.setResult_cfgVersion : (e.setResult w).cfgVersion = e.cfgVersion := rfl
@[simp] theorem Engine.setResult_cfgDiskType : (e.setResult w).cfgDiskType = e.cfgDiskType := rfl
@[simp] theorem Engine.setResult_cfgBootFmt : (e.setResult w).cfgBootFmt = e.cfgBootFmt := rfl
@[simp] theorem Engine.setResult_cfgA35pol : (e.setResult w).cfgA35pol = e.cfgA35pol := rfl
@[simp] theorem Engine.setResult_bitcount : (e.setResult w).bitcount = e.bitcount := rfl
@[simp] theorem Engine.setResult_trkidx : (e.setResult w).trkidx = e.trkidx := rfl
@[simp] theorem Engine.setResult_bitpos : (e.setResult w).bitpos = e.bitpos := rfl
@[simp] theorem Engine.setResult_dlen : (e.setResult w).dlen = e.dlen := rfl
@[simp] theorem Engine.setResult_variant : (e.setResult w).variant = e.variant := rfl
@[simp] theorem Engine.setResult_scount : (e.setResult w).scount = e.scount := rfl
@[simp] theorem Engine.setResult_afa : (e.setResult w).afa = e.afa := rfl
@[simp] theorem Engine.setResult_afb : (e.setResult w).afb = e.afb := rfl
@[simp] theorem Engine.setResult_revs : (e.setResult w).revs = e.revs := rfl
@[simp] theorem Engine.setResult_mem : (e.setResult w).mem = e.mem := rfl
end

section
variable (e : Engine) (p w : Nat)
@[simp] theorem Engine.moveCursor_found : (e.moveCursor p w).found = e.found := rfl
@[simp] theorem Engine.moveCursor_dvalid : (e.moveCursor p w).dvalid = e.dvalid := rfl
@[simp] theorem Engine.moveCursor_anyErr : (e.moveCursor p w).anyErr = e.anyErr := rfl
@[simp] theorem Engine.moveCursor_sectFail : (e.moveCursor p w).sectFail = e.sectFail := rfl
@[simp] theorem Engine.moveCursor_err : (e.moveCursor p w).err = e.err := rfl
@[simp] theorem Engine.moveCursor_stop : (e.moveCursor p w).stop = e.stop := rfl
@[simp] theorem Engine.moveCursor_result : (e.moveCursor p w).result = e.result := rfl
@[simp] theorem Engine.moveCursor_opa : (e.moveCursor p w).opa = e.opa := rfl
@[simp] theorem Engine.moveCursor_cfgVersion : (e.moveCursor p w).cfgVersion = e.cfgVersion := rfl
@[simp] theorem Engine.moveCursor_cfgDiskType : (e.moveCursor p w).cfgDiskType = e.cfgDiskType := rfl
@[simp] theorem Engine.moveCursor_cfgBootFmt : (e.moveCursor p w).cfgBootFmt = e.cfgBootFmt := rfl
@[simp] theorem Engine.moveCursor_cfgA35pol : (e.moveCursor p w).cfgA35pol = e.cfgA35pol := rfl
@[simp] theorem Engine.moveCursor_bitcount : (e.moveCursor p w).bitcount = e.bitcount := rfl
@[simp] theorem Engine.moveCursor_trkidx : (e.moveCursor p w).trkidx = e.trkidx := rfl
@[simp] theorem Engine.moveCursor_bitpos : (e.moveCursor p w).bitpos = BitVec.ofNat 32 p := rfl
@[simp] theorem Engine.moveCursor_dlen : (e.moveCursor p w).dlen = e.dlen := rfl
@[simp] theorem Engine.moveCursor_variant : (e.moveCursor p w).variant = e.variant := rfl
@[simp] theorem Engine.moveCursor_scount : (e.moveCursor p w).scount = e.scount := rfl
@[simp] theorem Engine.moveCursor_afa : (e.moveCursor p w).afa = e.afa := rfl
@[simp] theorem Engine.moveCursor_afb : (e.moveCursor p w).afb = e.afb := rfl
@[simp] theorem Engine.moveCursor_revs : (e.moveCursor p w).revs = e.revs + BitVec.ofNat 32 w := rfl
@[simp] theorem Engine.moveCursor_mem : (e.moveCursor p w).mem = e.mem := rfl
end

section
variable (e : Engine) (f : AddrField)
@[simp] theorem Engine.setField_found : (e.setField f).found = e.found := rfl
@[simp] theorem Engine.setField_dvalid : (e.setField f).dvalid = e.dvalid := rfl
@[simp] theorem Engine.setField_anyErr : (e.setField f).anyErr = e.anyErr := rfl
@[simp] theorem Engine.setField_sectFail : (e.setField f).sectFail = e.sectFail := rfl
@[simp] theorem Engine.setField_err : (e.setField f).err = e.err := rfl
@[simp] theorem Engine.setField_stop : (e.setField f).stop = e.stop := rfl
@[simp] theorem Engine.setField_result : (e.setField f).result = e.result := rfl
@[simp] theorem Engine.setField_opa : (e.setField f).opa = e.opa := rfl
@[simp] theorem Engine.setField_cfgVersion : (e.setField f).cfgVersion = e.cfgVersion := rfl
@[simp] theorem Engine.setField_cfgDiskType : (e.setField f).cfgDiskType = e.cfgDiskType := rfl
@[simp] theorem Engine.setField_cfgBootFmt : (e.setField f).cfgBootFmt = e.cfgBootFmt := rfl
@[simp] theorem Engine.setField_cfgA35pol : (e.setField f).cfgA35pol = e.cfgA35pol := rfl
@[simp] theorem Engine.setField_bitcount : (e.setField f).bitcount = e.bitcount := rfl
@[simp] theorem Engine.setField_trkidx : (e.setField f).trkidx = e.trkidx := rfl
@[simp] theorem Engine.setField_bitpos : (e.setField f).bitpos = e.bitpos := rfl
@[simp] theorem Engine.setField_dlen : (e.setField f).dlen = e.dlen := rfl
@[simp] theorem Engine.setField_variant : (e.setField f).variant = e.variant := rfl
@[simp] theorem Engine.setField_scount : (e.setField f).scount = e.scount := rfl
@[simp] theorem Engine.setField_afa : (e.setField f).afa = afaOf f := rfl
@[simp] theorem Engine.setField_afb : (e.setField f).afb = afbOf f := rfl
@[simp] theorem Engine.setField_revs : (e.setField f).revs = e.revs := rfl
@[simp] theorem Engine.setField_mem : (e.setField f).mem = e.mem := rfl
end

section
variable (e : Engine) (v : Option Variant)
@[simp] theorem Engine.setVariant_found : (e.setVariant v).found = e.found := rfl
@[simp] theorem Engine.setVariant_dvalid : (e.setVariant v).dvalid = e.dvalid := rfl
@[simp] theorem Engine.setVariant_anyErr : (e.setVariant v).anyErr = e.anyErr := rfl
@[simp] theorem Engine.setVariant_sectFail : (e.setVariant v).sectFail = e.sectFail := rfl
@[simp] theorem Engine.setVariant_err : (e.setVariant v).err = e.err := rfl
@[simp] theorem Engine.setVariant_stop : (e.setVariant v).stop = e.stop := rfl
@[simp] theorem Engine.setVariant_result : (e.setVariant v).result = e.result := rfl
@[simp] theorem Engine.setVariant_opa : (e.setVariant v).opa = e.opa := rfl
@[simp] theorem Engine.setVariant_cfgVersion : (e.setVariant v).cfgVersion = e.cfgVersion := rfl
@[simp] theorem Engine.setVariant_cfgDiskType : (e.setVariant v).cfgDiskType = e.cfgDiskType := rfl
@[simp] theorem Engine.setVariant_cfgBootFmt : (e.setVariant v).cfgBootFmt = e.cfgBootFmt := rfl
@[simp] theorem Engine.setVariant_cfgA35pol : (e.setVariant v).cfgA35pol = e.cfgA35pol := rfl
@[simp] theorem Engine.setVariant_bitcount : (e.setVariant v).bitcount = e.bitcount := rfl
@[simp] theorem Engine.setVariant_trkidx : (e.setVariant v).trkidx = e.trkidx := rfl
@[simp] theorem Engine.setVariant_bitpos : (e.setVariant v).bitpos = e.bitpos := rfl
@[simp] theorem Engine.setVariant_dlen : (e.setVariant v).dlen = e.dlen := rfl
@[simp] theorem Engine.setVariant_variant : (e.setVariant v).variant = v := rfl
@[simp] theorem Engine.setVariant_scount : (e.setVariant v).scount = e.scount := rfl
@[simp] theorem Engine.setVariant_afa : (e.setVariant v).afa = e.afa := rfl
@[simp] theorem Engine.setVariant_afb : (e.setVariant v).afb = e.afb := rfl
@[simp] theorem Engine.setVariant_revs : (e.setVariant v).revs = e.revs := rfl
@[simp] theorem Engine.setVariant_mem : (e.setVariant v).mem = e.mem := rfl
end

section
variable (e : Engine) (c : StopCode)
@[simp] theorem Engine.setStop_found : (e.setStop c).found = e.found := rfl
@[simp] theorem Engine.setStop_dvalid : (e.setStop c).dvalid = e.dvalid := rfl
@[simp] theorem Engine.setStop_anyErr : (e.setStop c).anyErr = e.anyErr := rfl
@[simp] theorem Engine.setStop_sectFail : (e.setStop c).sectFail = e.sectFail := rfl
@[simp] theorem Engine.setStop_err : (e.setStop c).err = e.err := rfl
@[simp] theorem Engine.setStop_stop : (e.setStop c).stop = c := rfl
@[simp] theorem Engine.setStop_result : (e.setStop c).result = e.result := rfl
@[simp] theorem Engine.setStop_opa : (e.setStop c).opa = e.opa := rfl
@[simp] theorem Engine.setStop_cfgVersion : (e.setStop c).cfgVersion = e.cfgVersion := rfl
@[simp] theorem Engine.setStop_cfgDiskType : (e.setStop c).cfgDiskType = e.cfgDiskType := rfl
@[simp] theorem Engine.setStop_cfgBootFmt : (e.setStop c).cfgBootFmt = e.cfgBootFmt := rfl
@[simp] theorem Engine.setStop_cfgA35pol : (e.setStop c).cfgA35pol = e.cfgA35pol := rfl
@[simp] theorem Engine.setStop_bitcount : (e.setStop c).bitcount = e.bitcount := rfl
@[simp] theorem Engine.setStop_trkidx : (e.setStop c).trkidx = e.trkidx := rfl
@[simp] theorem Engine.setStop_bitpos : (e.setStop c).bitpos = e.bitpos := rfl
@[simp] theorem Engine.setStop_dlen : (e.setStop c).dlen = e.dlen := rfl
@[simp] theorem Engine.setStop_variant : (e.setStop c).variant = e.variant := rfl
@[simp] theorem Engine.setStop_scount : (e.setStop c).scount = e.scount := rfl
@[simp] theorem Engine.setStop_afa : (e.setStop c).afa = e.afa := rfl
@[simp] theorem Engine.setStop_afb : (e.setStop c).afb = e.afb := rfl
@[simp] theorem Engine.setStop_revs : (e.setStop c).revs = e.revs := rfl
@[simp] theorem Engine.setStop_mem : (e.setStop c).mem = e.mem := rfl
end

section
variable (P : Params) (e : Engine) (ys : List Byte)
@[simp] theorem setDecoded_found : (setDecoded P e ys).found = e.found := rfl
@[simp] theorem setDecoded_dvalid : (setDecoded P e ys).dvalid = true := rfl
@[simp] theorem setDecoded_anyErr : (setDecoded P e ys).anyErr = e.anyErr := rfl
@[simp] theorem setDecoded_sectFail : (setDecoded P e ys).sectFail = e.sectFail := rfl
@[simp] theorem setDecoded_err : (setDecoded P e ys).err = e.err := rfl
@[simp] theorem setDecoded_stop : (setDecoded P e ys).stop = e.stop := rfl
@[simp] theorem setDecoded_result : (setDecoded P e ys).result = e.result := rfl
@[simp] theorem setDecoded_opa : (setDecoded P e ys).opa = e.opa := rfl
@[simp] theorem setDecoded_cfgVersion : (setDecoded P e ys).cfgVersion = e.cfgVersion := rfl
@[simp] theorem setDecoded_cfgDiskType : (setDecoded P e ys).cfgDiskType = e.cfgDiskType := rfl
@[simp] theorem setDecoded_cfgBootFmt : (setDecoded P e ys).cfgBootFmt = e.cfgBootFmt := rfl
@[simp] theorem setDecoded_cfgA35pol : (setDecoded P e ys).cfgA35pol = e.cfgA35pol := rfl
@[simp] theorem setDecoded_bitcount : (setDecoded P e ys).bitcount = e.bitcount := rfl
@[simp] theorem setDecoded_trkidx : (setDecoded P e ys).trkidx = e.trkidx := rfl
@[simp] theorem setDecoded_bitpos : (setDecoded P e ys).bitpos = e.bitpos := rfl
@[simp] theorem setDecoded_dlen : (setDecoded P e ys).dlen = BitVec.ofNat 32 ys.length := rfl
@[simp] theorem setDecoded_variant : (setDecoded P e ys).variant = e.variant := rfl
@[simp] theorem setDecoded_scount : (setDecoded P e ys).scount = e.scount := rfl
@[simp] theorem setDecoded_afa : (setDecoded P e ys).afa = e.afa := rfl
@[simp] theorem setDecoded_afb : (setDecoded P e ys).afb = e.afb := rfl
@[simp] theorem setDecoded_revs : (setDecoded P e ys).revs = e.revs := rfl
@[simp] theorem setDecoded_mem : (setDecoded P e ys).mem = e.mem.store dbufBase (P.tbufBytes + guardBytes) ys := rfl
end

section
variable (e : Engine) (p : List Byte)
@[simp] theorem storePayload_found : (storePayload e p).found = e.found := rfl
@[simp] theorem storePayload_dvalid : (storePayload e p).dvalid = e.dvalid := rfl
@[simp] theorem storePayload_anyErr : (storePayload e p).anyErr = e.anyErr := rfl
@[simp] theorem storePayload_sectFail : (storePayload e p).sectFail = e.sectFail := rfl
@[simp] theorem storePayload_err : (storePayload e p).err = e.err := rfl
@[simp] theorem storePayload_stop : (storePayload e p).stop = e.stop := rfl
@[simp] theorem storePayload_result : (storePayload e p).result = e.result := rfl
@[simp] theorem storePayload_opa : (storePayload e p).opa = e.opa := rfl
@[simp] theorem storePayload_cfgVersion : (storePayload e p).cfgVersion = e.cfgVersion := rfl
@[simp] theorem storePayload_cfgDiskType : (storePayload e p).cfgDiskType = e.cfgDiskType := rfl
@[simp] theorem storePayload_cfgBootFmt : (storePayload e p).cfgBootFmt = e.cfgBootFmt := rfl
@[simp] theorem storePayload_cfgA35pol : (storePayload e p).cfgA35pol = e.cfgA35pol := rfl
@[simp] theorem storePayload_bitcount : (storePayload e p).bitcount = e.bitcount := rfl
@[simp] theorem storePayload_trkidx : (storePayload e p).trkidx = e.trkidx := rfl
@[simp] theorem storePayload_bitpos : (storePayload e p).bitpos = e.bitpos := rfl
@[simp] theorem storePayload_dlen : (storePayload e p).dlen = e.dlen := rfl
@[simp] theorem storePayload_variant : (storePayload e p).variant = e.variant := rfl
@[simp] theorem storePayload_scount : (storePayload e p).scount = e.scount := rfl
@[simp] theorem storePayload_afa : (storePayload e p).afa = e.afa := rfl
@[simp] theorem storePayload_afb : (storePayload e p).afb = e.afb := rfl
@[simp] theorem storePayload_revs : (storePayload e p).revs = e.revs := rfl
@[simp] theorem storePayload_mem : (storePayload e p).mem = e.mem.store wbufBase p.length p := rfl
end

section
variable (e : Engine) (n : List Byte)
@[simp] theorem storeNibbles_found : (storeNibbles e n).found = e.found := rfl
@[simp] theorem storeNibbles_dvalid : (storeNibbles e n).dvalid = e.dvalid := rfl
@[simp] theorem storeNibbles_anyErr : (storeNibbles e n).anyErr = e.anyErr := rfl
@[simp] theorem storeNibbles_sectFail : (storeNibbles e n).sectFail = e.sectFail := rfl
@[simp] theorem storeNibbles_err : (storeNibbles e n).err = e.err := rfl
@[simp] theorem storeNibbles_stop : (storeNibbles e n).stop = e.stop := rfl
@[simp] theorem storeNibbles_result : (storeNibbles e n).result = e.result := rfl
@[simp] theorem storeNibbles_opa : (storeNibbles e n).opa = e.opa := rfl
@[simp] theorem storeNibbles_cfgVersion : (storeNibbles e n).cfgVersion = e.cfgVersion := rfl
@[simp] theorem storeNibbles_cfgDiskType : (storeNibbles e n).cfgDiskType = e.cfgDiskType := rfl
@[simp] theorem storeNibbles_cfgBootFmt : (storeNibbles e n).cfgBootFmt = e.cfgBootFmt := rfl
@[simp] theorem storeNibbles_cfgA35pol : (storeNibbles e n).cfgA35pol = e.cfgA35pol := rfl
@[simp] theorem storeNibbles_bitcount : (storeNibbles e n).bitcount = e.bitcount := rfl
@[simp] theorem storeNibbles_trkidx : (storeNibbles e n).trkidx = e.trkidx := rfl
@[simp] theorem storeNibbles_bitpos : (storeNibbles e n).bitpos = e.bitpos := rfl
@[simp] theorem storeNibbles_dlen : (storeNibbles e n).dlen = e.dlen := rfl
@[simp] theorem storeNibbles_variant : (storeNibbles e n).variant = e.variant := rfl
@[simp] theorem storeNibbles_scount : (storeNibbles e n).scount = e.scount := rfl
@[simp] theorem storeNibbles_afa : (storeNibbles e n).afa = e.afa := rfl
@[simp] theorem storeNibbles_afb : (storeNibbles e n).afb = e.afb := rfl
@[simp] theorem storeNibbles_revs : (storeNibbles e n).revs = e.revs := rfl
@[simp] theorem storeNibbles_mem : (storeNibbles e n).mem = e.mem.store nbufBase n.length n := rfl
end

section
variable (e : Engine) (xs : List SectorEntry)
@[simp] theorem storeTable_found : (storeTable e xs).found = e.found := rfl
@[simp] theorem storeTable_dvalid : (storeTable e xs).dvalid = e.dvalid := rfl
@[simp] theorem storeTable_anyErr : (storeTable e xs).anyErr = e.anyErr := rfl
@[simp] theorem storeTable_sectFail : (storeTable e xs).sectFail = e.sectFail := rfl
@[simp] theorem storeTable_err : (storeTable e xs).err = e.err := rfl
@[simp] theorem storeTable_stop : (storeTable e xs).stop = e.stop := rfl
@[simp] theorem storeTable_result : (storeTable e xs).result = e.result := rfl
@[simp] theorem storeTable_opa : (storeTable e xs).opa = e.opa := rfl
@[simp] theorem storeTable_cfgVersion : (storeTable e xs).cfgVersion = e.cfgVersion := rfl
@[simp] theorem storeTable_cfgDiskType : (storeTable e xs).cfgDiskType = e.cfgDiskType := rfl
@[simp] theorem storeTable_cfgBootFmt : (storeTable e xs).cfgBootFmt = e.cfgBootFmt := rfl
@[simp] theorem storeTable_cfgA35pol : (storeTable e xs).cfgA35pol = e.cfgA35pol := rfl
@[simp] theorem storeTable_bitcount : (storeTable e xs).bitcount = e.bitcount := rfl
@[simp] theorem storeTable_trkidx : (storeTable e xs).trkidx = e.trkidx := rfl
@[simp] theorem storeTable_bitpos : (storeTable e xs).bitpos = e.bitpos := rfl
@[simp] theorem storeTable_dlen : (storeTable e xs).dlen = e.dlen := rfl
@[simp] theorem storeTable_variant : (storeTable e xs).variant = e.variant := rfl
@[simp] theorem storeTable_scount : (storeTable e xs).scount = BitVec.ofNat 32 xs.length := rfl
@[simp] theorem storeTable_afa : (storeTable e xs).afa = e.afa := rfl
@[simp] theorem storeTable_afb : (storeTable e xs).afb = e.afb := rfl
@[simp] theorem storeTable_revs : (storeTable e xs).revs = e.revs := rfl
@[simp] theorem storeTable_mem : (storeTable e xs).mem = (e.mem.store sectBase 512 (tableBytes xs)).store pbufBase 8192 (slotBytes xs) := rfl
end

section
variable (e : Engine)
@[simp] theorem startScan_found : (startScan e).found = e.found := rfl
@[simp] theorem startScan_dvalid : (startScan e).dvalid = e.dvalid := rfl
@[simp] theorem startScan_anyErr : (startScan e).anyErr = e.anyErr := rfl
@[simp] theorem startScan_sectFail : (startScan e).sectFail = false := rfl
@[simp] theorem startScan_err : (startScan e).err = e.err := rfl
@[simp] theorem startScan_stop : (startScan e).stop = .aborted := rfl
@[simp] theorem startScan_result : (startScan e).result = e.result := rfl
@[simp] theorem startScan_opa : (startScan e).opa = e.opa := rfl
@[simp] theorem startScan_cfgVersion : (startScan e).cfgVersion = e.cfgVersion := rfl
@[simp] theorem startScan_cfgDiskType : (startScan e).cfgDiskType = e.cfgDiskType := rfl
@[simp] theorem startScan_cfgBootFmt : (startScan e).cfgBootFmt = e.cfgBootFmt := rfl
@[simp] theorem startScan_cfgA35pol : (startScan e).cfgA35pol = e.cfgA35pol := rfl
@[simp] theorem startScan_bitcount : (startScan e).bitcount = e.bitcount := rfl
@[simp] theorem startScan_trkidx : (startScan e).trkidx = e.trkidx := rfl
@[simp] theorem startScan_bitpos : (startScan e).bitpos = e.bitpos := rfl
@[simp] theorem startScan_dlen : (startScan e).dlen = e.dlen := rfl
@[simp] theorem startScan_variant : (startScan e).variant = e.variant := rfl
@[simp] theorem startScan_scount : (startScan e).scount = 0 := rfl
@[simp] theorem startScan_afa : (startScan e).afa = e.afa := rfl
@[simp] theorem startScan_afb : (startScan e).afb = e.afb := rfl
@[simp] theorem startScan_revs : (startScan e).revs = e.revs := rfl
@[simp] theorem startScan_mem : (startScan e).mem = (e.mem.store sectBase 512 (tableBytes [])).store pbufBase 8192 (slotBytes []) := rfl
end

section
variable (e : Engine) (r : List SectorEntry × StopCode)
@[simp] theorem endScan_found : (endScan e r).found = e.found := rfl
@[simp] theorem endScan_dvalid : (endScan e r).dvalid = e.dvalid := rfl
@[simp] theorem endScan_anyErr : (endScan e r).anyErr = e.anyErr := rfl
@[simp] theorem endScan_sectFail : (endScan e r).sectFail = r.1.any fun x => x.status != .ok := rfl
@[simp] theorem endScan_err : (endScan e r).err = e.err := rfl
@[simp] theorem endScan_stop : (endScan e r).stop = r.2 := rfl
@[simp] theorem endScan_result : (endScan e r).result = e.result := rfl
@[simp] theorem endScan_opa : (endScan e r).opa = e.opa := rfl
@[simp] theorem endScan_cfgVersion : (endScan e r).cfgVersion = e.cfgVersion := rfl
@[simp] theorem endScan_cfgDiskType : (endScan e r).cfgDiskType = e.cfgDiskType := rfl
@[simp] theorem endScan_cfgBootFmt : (endScan e r).cfgBootFmt = e.cfgBootFmt := rfl
@[simp] theorem endScan_cfgA35pol : (endScan e r).cfgA35pol = e.cfgA35pol := rfl
@[simp] theorem endScan_bitcount : (endScan e r).bitcount = e.bitcount := rfl
@[simp] theorem endScan_trkidx : (endScan e r).trkidx = e.trkidx := rfl
@[simp] theorem endScan_bitpos : (endScan e r).bitpos = e.bitpos := rfl
@[simp] theorem endScan_dlen : (endScan e r).dlen = e.dlen := rfl
@[simp] theorem endScan_variant : (endScan e r).variant = e.variant := rfl
@[simp] theorem endScan_scount : (endScan e r).scount = BitVec.ofNat 32 r.1.length := rfl
@[simp] theorem endScan_afa : (endScan e r).afa = e.afa := rfl
@[simp] theorem endScan_afb : (endScan e r).afb = e.afb := rfl
@[simp] theorem endScan_revs : (endScan e r).revs = e.revs := rfl
@[simp] theorem endScan_mem : (endScan e r).mem = (e.mem.store sectBase 512 (tableBytes r.1)).store pbufBase 8192 (slotBytes r.1) := rfl
end

section
variable (e : Engine) (w : Word)
@[simp] theorem writeCfg_found : (writeCfg e w).found = e.found := rfl
@[simp] theorem writeCfg_dvalid : (writeCfg e w).dvalid = e.dvalid := rfl
@[simp] theorem writeCfg_anyErr : (writeCfg e w).anyErr = e.anyErr := rfl
@[simp] theorem writeCfg_sectFail : (writeCfg e w).sectFail = e.sectFail := rfl
@[simp] theorem writeCfg_err : (writeCfg e w).err = e.err := rfl
@[simp] theorem writeCfg_stop : (writeCfg e w).stop = e.stop := rfl
@[simp] theorem writeCfg_result : (writeCfg e w).result = e.result := rfl
@[simp] theorem writeCfg_opa : (writeCfg e w).opa = e.opa := rfl
@[simp] theorem writeCfg_cfgVersion : (writeCfg e w).cfgVersion = w.extractLsb' 0 4 := rfl
@[simp] theorem writeCfg_cfgDiskType : (writeCfg e w).cfgDiskType = w.extractLsb' 4 4 := rfl
@[simp] theorem writeCfg_cfgBootFmt : (writeCfg e w).cfgBootFmt = w.extractLsb' 8 4 := rfl
@[simp] theorem writeCfg_cfgA35pol : (writeCfg e w).cfgA35pol = w.getLsbD 12 := rfl
@[simp] theorem writeCfg_bitcount : (writeCfg e w).bitcount = e.bitcount := rfl
@[simp] theorem writeCfg_trkidx : (writeCfg e w).trkidx = e.trkidx := rfl
@[simp] theorem writeCfg_bitpos : (writeCfg e w).bitpos = e.bitpos := rfl
@[simp] theorem writeCfg_dlen : (writeCfg e w).dlen = e.dlen := rfl
@[simp] theorem writeCfg_variant : (writeCfg e w).variant = e.variant := rfl
@[simp] theorem writeCfg_scount : (writeCfg e w).scount = e.scount := rfl
@[simp] theorem writeCfg_afa : (writeCfg e w).afa = e.afa := rfl
@[simp] theorem writeCfg_afb : (writeCfg e w).afb = e.afb := rfl
@[simp] theorem writeCfg_revs : (writeCfg e w).revs = e.revs := rfl
@[simp] theorem writeCfg_mem : (writeCfg e w).mem = e.mem := rfl
end

section
variable (e : Engine) (v : Word)
@[simp] theorem writeBitcount_found : (writeBitcount e v).found = e.found := rfl
@[simp] theorem writeBitcount_dvalid : (writeBitcount e v).dvalid = false := rfl
@[simp] theorem writeBitcount_anyErr : (writeBitcount e v).anyErr = e.anyErr := rfl
@[simp] theorem writeBitcount_sectFail : (writeBitcount e v).sectFail = e.sectFail := rfl
@[simp] theorem writeBitcount_err : (writeBitcount e v).err = e.err := rfl
@[simp] theorem writeBitcount_stop : (writeBitcount e v).stop = e.stop := rfl
@[simp] theorem writeBitcount_result : (writeBitcount e v).result = e.result := rfl
@[simp] theorem writeBitcount_opa : (writeBitcount e v).opa = e.opa := rfl
@[simp] theorem writeBitcount_cfgVersion : (writeBitcount e v).cfgVersion = e.cfgVersion := rfl
@[simp] theorem writeBitcount_cfgDiskType : (writeBitcount e v).cfgDiskType = e.cfgDiskType := rfl
@[simp] theorem writeBitcount_cfgBootFmt : (writeBitcount e v).cfgBootFmt = e.cfgBootFmt := rfl
@[simp] theorem writeBitcount_cfgA35pol : (writeBitcount e v).cfgA35pol = e.cfgA35pol := rfl
@[simp] theorem writeBitcount_bitcount : (writeBitcount e v).bitcount = v := rfl
@[simp] theorem writeBitcount_trkidx : (writeBitcount e v).trkidx = e.trkidx := rfl
@[simp] theorem writeBitcount_bitpos : (writeBitcount e v).bitpos = 0 := rfl
@[simp] theorem writeBitcount_dlen : (writeBitcount e v).dlen = 0 := rfl
@[simp] theorem writeBitcount_variant : (writeBitcount e v).variant = e.variant := rfl
@[simp] theorem writeBitcount_scount : (writeBitcount e v).scount = e.scount := rfl
@[simp] theorem writeBitcount_afa : (writeBitcount e v).afa = e.afa := rfl
@[simp] theorem writeBitcount_afb : (writeBitcount e v).afb = e.afb := rfl
@[simp] theorem writeBitcount_revs : (writeBitcount e v).revs = 0 := rfl
@[simp] theorem writeBitcount_mem : (writeBitcount e v).mem = e.mem := rfl
end

section
variable (s : State) (w : Word)
@[simp] theorem State.placeCommand_params : (s.placeCommand w).params = s.params := rfl
@[simp] theorem State.placeCommand_below : (s.placeCommand w).below = s.below := rfl
@[simp] theorem State.placeCommand_cur : (s.placeCommand w).cur = s.cur := rfl
@[simp] theorem State.placeCommand_above : (s.placeCommand w).above = s.above := rfl
@[simp] theorem State.placeCommand_rdata : (s.placeCommand w).rdata = s.rdata := rfl
@[simp] theorem State.placeCommand_resets : (s.placeCommand w).resets = s.resets := rfl
@[simp] theorem State.placeCommand_inbox : (s.placeCommand w).inbox = .write 4 s.base w :: s.inbox := rfl
@[simp] theorem State.assertReset_params : s.assertReset.params = s.params := rfl
@[simp] theorem State.assertReset_cur : s.assertReset.cur = Engine.reset := rfl
@[simp] theorem State.assertReset_inbox : s.assertReset.inbox = s.inbox := rfl
@[simp] theorem State.assertReset_rdata : s.assertReset.rdata = none := rfl
@[simp] theorem State.assertReset_resets : s.assertReset.resets = s.resets + 1 := rfl
end

end Sys2Proof.Machine
end

