-- ==== Sys2Proof/Tests/Slice0.lean ====
section
/-! SUPPORT. Tests, each on one decode or one step, with expected results from spec/ (the vectors of
95_test_vectors.md and the patterns of 30_encoding.md R114), and a witness for the hypotheses of every
statement that has some. -/

set_option Elab.async false

open Sys2Proof Sys2Proof.Machine Sys2Proof.Certificates

namespace Sys2Proof.Tests

/-! ## Helpers -/

/-- The engine after a command issued on it alone, with the default parameters. -/
def after (i : Instr) (e : Engine) : Option Engine :=
  match exec i { State.reset with cur := e } with
  | .next t => some t.cur
  | _ => none

/-- A reset engine with a loaded track (R119). -/
def track (bc : Word) (bs : List Byte) : Engine :=
  { Engine.reset with bitcount := bc, mem := Memory.cells tbufBase bs }

/-- A reset engine whose memo holds the array `d`. -/
def withArray (d : List Byte) : Engine :=
  { Engine.reset with dvalid := true, dlen := BitVec.ofNat 32 d.length, mem := Memory.cells dbufBase d }

/-- The block with one engine and the default parameters. -/
def block (e : Engine) : State := { State.reset with cur := e }

/-- Track A of 95_test_vectors.md 2.2. -/
def trackA : Engine := track 26 [0x35, 0x6A, 0xA5, 0x80]

/-- The address field of vector A44-1. -/
def fieldA : List Byte := [0xD5, 0xAA, 0x96, 0xFF, 0xFE, 0xAA, 0xBB, 0xAA, 0xAF, 0xFF, 0xEA, 0xDE, 0xAA, 0xEB]

/-- A block of two engines, the first addressed. -/
def twoEngines : State := { State.reset with above := [trackA] }

/-- The engine of which `after` answers is in the next state of the command. -/
theorem next_of_after {i : Instr} {e : Engine} (h : (after i e).isSome = true) :
    ∃ t, exec i (block e) = .next t := by
  unfold after at h
  unfold block
  split at h
  · exact ⟨_, ‹_›⟩
  · simp at h

/-- A next state of the command whose engine passes the test that `after`'s engine passes. -/
theorem next_of_after_any {i : Instr} {e : Engine} {p : Engine → Bool} (h : (after i e).any p = true) :
    ∃ t, exec i (block e) = .next t ∧ p t.cur = true := by
  unfold after at h
  unfold block
  split at h
  · exact ⟨_, ‹_›, by simpa using h⟩
  · simp at h

/-! ## Decoding: one word for each command, bit by bit from R114 -/

theorem test_decode_crst : decode 0b00000001000000000000000000000000#32 = .ok .crst := by decide
theorem test_decode_nbit : decode 0b00000010000000000000000000000000#32 = .ok .nbit := by decide
theorem test_decode_nbyte : decode 0b00000011000000000000000000000000#32 = .ok .nbyte := by decide
theorem test_decode_mat : decode 0b00000100000000000000000000000000#32 = .ok .mat := by decide
theorem test_decode_find :
    decode 0b00000101110101011010101010010110#32 = .ok (.find 0xD5 0xAA 0x96) := by decide
theorem test_decode_selv : decode 0b00000110000000000000000000000000#32 = .ok .selv := by decide
theorem test_decode_scan : decode 0b00000111000000000000000000000000#32 = .ok .scan := by decide
theorem test_decode_da44 : decode 0b00001000000000000000000000000000#32 = .ok .da44 := by decide
theorem test_decode_da35 : decode 0b00001001000000000000000000000000#32 = .ok .da35 := by decide
theorem test_decode_dd16 : decode 0b00001010000000000000000000000000#32 = .ok .dd16 := by decide
theorem test_decode_ed16 : decode 0b00001011000000000000000000000000#32 = .ok .ed16 := by decide
theorem test_decode_x62 : decode 0b00001100000000000000000000101010#32 = .ok (.x62 0x2A) := by decide
theorem test_decode_u62 : decode 0b00001101000000000000000011010101#32 = .ok (.u62 0xD5) := by decide
theorem test_decode_x44 : decode 0b00001110000000000000000011111110#32 = .ok (.x44 0xFE) := by decide
theorem test_decode_u44 :
    decode 0b00001111000000001010101010111011#32 = .ok (.u44 0xAA 0xBB) := by decide
theorem test_decode_dd13 : decode 0b00010000000000000000000000000000#32 = .ok .dd13 := by decide
theorem test_decode_dd35 : decode 0b00010001000000000000000000000000#32 = .ok .dd35 := by decide

/-- Vectors E-1 to E-3. -/
theorem test_decode_unlisted :
    [0x00000000#32, 0x12000000#32, 0xFF000000#32].map decode =
      List.replicate 3 (.error .illegalCommand) := by decide
/-- Vectors E-4 to E-6. -/
theorem test_decode_must_be_zero :
    [0x01000001#32, 0x0C000040#32, 0x0F01AABB#32].map decode = List.replicate 3 (.error .badOperand) := by
  decide
/-- The table's row of FIND, with its operand bits 0, and of X62, whose operand fills six bits. -/
theorem test_decode_table_word :
    decodeTableWord 32 0x05000000 = some (.find 0 0 0) ∧ decodeTableWord 32 0x0C00003F = some (.x62 0x3F) ∧
      decodeTableWord 32 0x0C000040 = none := by decide

/-! ## WellFormed: the ill-formed term of its one check -/

theorem test_wellFormed_x62 : (Instr.x62 0x3F).wellFormed = true ∧ (Instr.x62 0x40).wellFormed = false := by
  decide

/-! ## Steps -/

/-- E-1 and ER-2, through a host write: STATUS is 0x00000108. -/
theorem test_step_illegal :
    (match step (State.reset.withFetchWord 32 0) with
      | .next t => hostRead t 4 0x04
      | _ => none) = some 0x00000108 := by decide +kernel
/-- ER-3, its last command: ERR is cleared and ANYERR stays. -/
theorem test_step_x62_after_error :
    (match step ((block (withError Engine.reset .illegalCommand)).withFetchWord 32 0x0C000000) with
      | .next t => hostRead t 4 0x04
      | _ => none) = some 0x00000008 := by decide +kernel
/-- With no pending access the block keeps its state. -/
theorem test_step_idle : step State.reset = .next State.reset := rfl

/-! ## TrackCursor (95_test_vectors.md 2.2) -/

/-- TC-21: CRST on a cursor that has moved. -/
theorem test_crst : (after .crst { trackA with bitpos := 10, revs := 1 }).map (fun e => (e.bitpos, e.revs)) =
    some (0, 0) := by decide +kernel
/-- TC-1. -/
theorem test_nbit : (after .nbit trackA).map (fun e => (e.result, e.bitpos)) = some (0, 1) := by
  decide +kernel
/-- TC-8, the first NBIT: one bit, one wrap. -/
theorem test_nbit_wraps : (after .nbit (track 1 [0x80])).map (fun e => (e.result, e.bitpos, e.revs)) =
    some (1, 0, 1) := by decide +kernel
/-- TC-7, the third NBYTE: it skips a zero bit and straddles the wrap. -/
theorem test_nbyte_wraps :
    (after .nbyte { track 20 [0x5A, 0xAD, 0x50] with bitpos := 18 }).map
      (fun e => (e.result, e.bitpos, e.revs)) = some (0xAD, 7, 1) := by decide +kernel
/-- TC-14: NoFlux after one revolution. -/
theorem test_nbyte_noFlux :
    (after .nbyte (track 16 [0x00, 0x00])).map (fun e => (e.err, e.bitpos, e.revs, e.result)) =
      some (.noFlux, 0, 1, 0) := by decide +kernel
/-- TC-3. -/
theorem test_mat :
    (after .mat trackA).map (fun e => (e.dlen, statusWord e, (decodedArray e).take 4, e.mem.read (dbufBase + 603),
      e.mem.read (dbufBase + 604))) =
    some (604, 4, [0xD5, 0xAA, 0x96, 0xD5], some 0xD5, some 0) := by decide +kernel
/-- TC-18: one bit too many. -/
theorem test_mat_overflow : (after .mat (track 262145 [])).map (fun e => e.err) = some .trackOverflow := by
  decide +kernel
/-- TC-5's array, an occurrence that straddles the wrap of the track. -/
theorem test_find :
    (after (.find 0xD5 0xAA 0x96) (withArray [0x96, 0xFF, 0xFF, 0xD5, 0xAA, 0x96, 0xFF])).map
      (fun e => (e.result, e.found)) = some (3, true) := by decide +kernel
/-- TC-4's last search: OPA far beyond the array. -/
theorem test_find_beyond :
    (after (.find 0xD5 0xAA 0x96) { withArray [0xD5, 0xAA, 0x96] with opa := 0xFFFFFFFF }).map
      (fun e => (e.result, e.found)) = some (0xFFFFFFFF, false) := by decide +kernel

/-! ## TrackParser (95_test_vectors.md 2.6) -/

/-- SC-1: a SCAN from reset. -/
theorem test_scan_reset : (after .scan Engine.reset).map statusWord = some 0x00060308 := by decide +kernel
/-- SC-6's array, cut: VARIANT S13, FOUND 1. -/
theorem test_selv :
    (after .selv { withArray [0xFF, 0xD5, 0xAA, 0xB5, 0xFF] with cfgVersion := 1, cfgDiskType := 1 }).map
      (fun e => (e.variant, e.found)) = some (some .s13, true) := by decide +kernel
/-- SC-8: BOOTFMT 1 fixes S16, whose prologue is absent. -/
theorem test_selv_absent :
    (after .selv { withArray [0xFF, 0xD5, 0xAA, 0xB5, 0xFF] with
      cfgVersion := 2, cfgDiskType := 1, cfgBootFmt := 1 }).map
      (fun e => (e.variant, e.found, e.err)) = some (some .s16, false, .prologueNotFound) := by decide +kernel
/-- SC-5's first revolution and its repeat, as a memo: the field with D5 is skipped, entry 0 is at 10.
Its SAFB is worked out by hand from R243 and R46: checksum 2, format 0, CHKOK 1. -/
theorem test_scan :
    (after .scan { withArray [0xD5, 0xAA, 0x96, 0xD5, 0x96, 0x96, 0x96, 0x96, 0xFF, 0xFF,
        0xD5, 0xAA, 0x96, 0x96, 0x9A, 0x96, 0x96, 0x9A, 0xFF, 0xFF, 0xFF, 0xFF, 0xFF,
        0xD5, 0xAA, 0x96, 0xD5, 0x96, 0x96, 0x96, 0x96, 0xFF, 0xFF,
        0xD5, 0xAA, 0x96, 0x96, 0x9A, 0x96, 0x96, 0x9A, 0xFF] with
        bitcount := 184, cfgVersion := 2, cfgDiskType := 2 }).map
      (fun e => ((e.stop, e.scount, e.sectFail), e.mem.bytes sectBase 18)) =
    some ((.duplicate, 1, true),
      [10, 0, 0, 0, 0xFF, 0xFF, 0xFF, 0xFF, 0, 0, 0x02, 0, 0x02, 0, 0x01, 0, 0x0D, 0]) := by decide +kernel

/-! ## NibbleTranslator (95_test_vectors.md 2.3) -/

/-- NT-2. -/
theorem test_x62 : (after (.x62 0x15) Engine.reset).map (fun e => e.result) = some 0xBA := by decide +kernel
/-- NT-5. -/
theorem test_x62_high : (after (.x62 0x30) Engine.reset).map (fun e => e.result) = some 0xED := by
  decide +kernel
/-- NT-11. -/
theorem test_u62 : (after (.u62 0xB5) Engine.reset).map (fun e => (e.result, e.err)) = some (0x11, .noError) := by
  decide +kernel
/-- NT-12. -/
theorem test_u62_illegal : (after (.u62 0xD5) Engine.reset).map (fun e => (e.result, statusWord e)) =
    some (0xFFFFFFFF, 0x00000908) := by decide +kernel
/-- NT-18. -/
theorem test_x44 : (after (.x44 0x11) Engine.reset).map (fun e => e.result) = some 0xAABB := by decide +kernel
/-- NT-24. -/
theorem test_u44 : (after (.u44 0xAA 0xBB) Engine.reset).map (fun e => e.result) = some 0x11 := by
  decide +kernel
/-- NT-25: no legality check. -/
theorem test_u44_illegal : (after (.u44 0x00 0xFF) Engine.reset).map (fun e => e.result) = some 0x01 := by
  decide +kernel

/-! ## SectorCodec (95_test_vectors.md 2.4 and 2.5) -/

/-- A44-1. -/
theorem test_da44 : (after .da44 (withArray fieldA)).map (fun e => (e.afa, e.afb)) =
    some (0xFE050011, 0x100EA) := by decide +kernel
/-- A44-4: OPA = DLEN - 10. -/
theorem test_da44_past_end : (after .da44 { withArray fieldA with opa := 4, afa := 7 }).map
    (fun e => (e.afa, e.err)) = some (7, .readPastEnd) := by decide +kernel
/-- A35-1. -/
theorem test_da35 : (after .da35 (withArray [0xD5, 0xAA, 0x96, 0x9E, 0x9B, 0xD7, 0xD9, 0x9E])).map
    (fun e => (e.afa, e.afb)) = some (0x01030045, 0x12205) := by decide +kernel
/-- A35-2. -/
theorem test_da35_illegal : (after .da35 (withArray [0xD5, 0xAA, 0x96, 0x9E, 0xD5, 0xD7, 0xD9, 0x9E])).map
    (fun e => (e.afa, e.err)) = some (0, .illegalNibble) := by decide +kernel
/-- D16-9: the disk bytes 96 x 341, 97, 97 decode to a payload whose last byte is 04. -/
theorem test_dd16 :
    (after .dd16 (withArray ([0xD5, 0xAA, 0xAD] ++ List.replicate 341 0x96 ++ [0x97, 0x97]))).map
      (fun e => (e.err, e.mem.bytes (wbufBase + 252) 6)) = some (.noError, [0, 0, 0, 4, 0, 0]) := by
  decide +kernel
/-- D16-14: one byte short. -/
theorem test_dd16_past_end :
    (after .dd16 (withArray ([0xD5, 0xAA, 0xAD] ++ List.replicate 342 0x96))).map (fun e => e.err) =
      some .readPastEnd := by decide +kernel
/-- D16-6: P[0] = 01, P[86] = 02, P[172] = 03. -/
theorem test_ed16 :
    (after .ed16 { Engine.reset with
        mem := Memory.cells wbufBase ([1] ++ List.replicate 85 0 ++ [2] ++ List.replicate 85 0 ++ [3]) }).map
      (fun e => e.mem.bytes nbufBase 344) = some ([0xF5, 0xF5] ++ List.replicate 341 0x96 ++ [0]) := by
  decide +kernel
/-- R260 with DECODE13 absent (D18). -/
theorem test_dd13 : (after .dd13 (withArray fieldA)).map (fun e => e.err) = some .variantUnsupported := by
  decide +kernel
/-- R262 with DECODE35 absent (D19). -/
theorem test_dd35 : (after .dd35 (withArray fieldA)).map (fun e => e.err) = some .variantUnsupported := by
  decide +kernel

/-! ## Witnesses: the hypotheses of the statements, clause by clause -/

theorem witness_paramsOk : defaultParams.Ok := by decide +kernel

theorem witness_DecodeOfEncode :
    (Instr.x62 0).wellFormed = true ∧ (Instr.x62 0x3F).wellFormed = true ∧
      (Instr.find 0xFF 0xFF 0xFF).wellFormed = true := by decide

theorem witness_EncodeOfDecode : decode 0x0C00003F = .ok (.x62 0x3F) ∧ decode 0x11000000 = .ok .dd35 := by decide

theorem witness_WordSelectsByMatchAndMask :
    opcodeRows[11]? = some (0x0C000000, 0xFFFFFFC0) ∧ (0x0C00003F : Word) &&& 0xFFFFFFC0 = 0x0C000000 ∧
      opcodeRows[16]? = some (0x11000000, 0xFFFFFFFF) := by decide

/-- OPC at both ends of the two unlisted ranges, and words of the first and the last listed OPC whose mask
fails. -/
theorem witness_RejectedWordChangesOnlyErr :
    (opcOf 0x00FFFFFF).toNat = 0 ∧ (opcOf 0x12000000).toNat = 0x12 ∧ (opcOf 0xFF000000).toNat = 0xFF ∧
      (opcOf 0x01000001).toNat = 1 ∧ (∀ r ∈ opcodeRows, (0x01000001 : Word) &&& r.2 ≠ r.1) ∧
      (opcOf 0x11800000).toNat = 0x11 ∧ ∀ r ∈ opcodeRows, (0x11800000 : Word) &&& r.2 ≠ r.1 := by
  refine ⟨by decide, by decide, by decide, by decide, ?_, by decide, ?_⟩ <;>
    simp [opcodeRows]

/-- A host's write of NBIT to CMD of engine 1 of two. -/
theorem witness_StepRunsDecodedCommand :
    ({ twoEngines with inbox := [.write 4 (engineAddr 1 0) 0x02000000] } : State).inbox =
        .write 4 (engineAddr 1 0) 0x02000000 :: [] ∧
      ({ twoEngines with inbox := [.write 4 (engineAddr 1 0) 0x02000000] } : State).focus 1 =
        some { twoEngines with
          below := [Engine.reset], cur := trackA, above := []
          inbox := [.write 4 (engineAddr 1 0) 0x02000000] } ∧
      decode 0x02000000 = .ok .nbit ∧ decode (tableWord 32 0x02000000) = .ok .nbit :=
  ⟨rfl, rfl, rfl, rfl⟩

/-- An engine with a bit count and nothing written to TBUF: NBIT stops on the byte it needs. -/
theorem witness_CommandsStopOnlyOnUnwrittenTrack :
    CursorOk (track 9 []) ∧ CursorOk { track 9 [] with bitpos := 8 } ∧
      exec .nbit (block { track 9 [] with bitpos := 8 }) = .fault (.tbufUnwritten 1) :=
  ⟨by unfold CursorOk; decide, by unfold CursorOk; decide, rfl⟩

theorem witness_CommandsReadTheirEngineAlone :
    (block trackA).params = ({ block trackA with rdata := some 5, above := [Engine.reset] } : State).params ∧
      (block trackA).cur = ({ block trackA with rdata := some 5, above := [Engine.reset] } : State).cur :=
  ⟨rfl, rfl⟩

/-- A read from engine 0, and a write to OPA of engine 1, of two. -/
theorem witness_EnginesAreIsolated :
    step { twoEngines with inbox := [.read 4 0x04] } = .next { twoEngines with rdata := some 0 } ∧
      step { twoEngines with inbox := [.write 4 0x10000C 7] } = .next { twoEngines with
        below := [Engine.reset], cur := { trackA with opa := 7 }, above := [] } ∧
      (0 : Nat) ≠ 0x10000C / engineStride := ⟨rfl, rfl, by decide⟩

/-- Supported accesses at the edges of their windows, and their unsupported neighbours. -/
theorem witness_BusErrorExactlyOnUnsupportedAccess :
    State.reset.params.Ok ∧ (hostRead State.reset 4 0x3C).isSome = true ∧ hostRead State.reset 4 0x40 = none ∧
      hostRead State.reset 2 0x04 = none ∧ hostRead State.reset 4 0x06 = none ∧
      (hostRead State.reset 1 0x601FF).isSome = true ∧ hostRead State.reset 1 0x60200 = none ∧
      hostRead State.reset 4 0x100004 = none ∧
      hostStep State.reset (.write 1 0x20000 0) = .fault (.busError 0x20000) :=
  ⟨witness_paramsOk, by decide +kernel, by decide +kernel, by decide +kernel, by decide +kernel,
    by decide +kernel, by decide +kernel, by decide +kernel, rfl⟩

theorem witness_ReadsHaveNoSideEffects :
    ({ State.reset with inbox := [.read 4 0x10] } : State).inbox = .read 4 0x10 :: [] ∧
      hostRead { State.reset with inbox := [.read 4 0x10] } 4 0x10 = some 0x1000 := ⟨rfl, by decide +kernel⟩

/-- Engine 1 of two, not the addressed one: the premises of StatusReadsItsFields, RegisterWritesReadBack,
BitcountWriteResetsCursor and BufferWriteReadsBack. -/
theorem witness_focus :
    1 < twoEngines.engines.length ∧ twoEngines.engines[1]? = some trackA ∧
      twoEngines.focus 1 = some { twoEngines with below := [Engine.reset], cur := trackA, above := [] } :=
  ⟨by decide, rfl, rfl⟩

/-- The last word of TBUF, the last halfword of WBUF and the last byte of NBUF. -/
theorem witness_BufferWriteReadsBack :
    (State.reset.params.Ok ∧ (0x17FFC % 4 = 0 ∧ Window.tbuf.writable = true ∧ Window.tbuf.base ≤ 0x17FFC ∧
        0x17FFC + 4 ≤ Window.tbuf.base + Window.tbuf.size State.reset.params)) ∧
      (0x501FE % 2 = 0 ∧ Window.wbuf.writable = true ∧ Window.wbuf.base ≤ 0x501FE ∧
        0x501FE + 2 ≤ Window.wbuf.base + Window.wbuf.size State.reset.params) ∧
      (0x601FF % 1 = 0 ∧ Window.nbuf.writable = true ∧ Window.nbuf.base ≤ 0x601FF ∧
        0x601FF + 1 ≤ Window.nbuf.base + Window.nbuf.size State.reset.params) :=
  ⟨⟨witness_paramsOk, by decide⟩, by decide, by decide⟩

/-- The last byte of a loaded track in TBUF and the last byte of NBUF; words of TBUF and the last word of SECT. -/
theorem witness_BufferReadIsLittleEndian :
    (block trackA).params.Ok ∧ (block trackA).engines[0]? = some trackA ∧
      (Window.tbuf.base ≤ 0x10003 ∧ trackA.mem.read 0x10003 = some 0x80) ∧
      (0x601FF < Window.nbuf.base + Window.nbuf.size (block trackA).params ∧ trackA.mem.read 0x601FF = some 0) ∧
      0x40 ≤ 0x10000 % engineStride ∧ hostRead (block trackA) 4 0x10000 = some 0x80A56A35 ∧
      hostRead (block trackA) 4 0x301FC = some 0 :=
  ⟨witness_paramsOk, rfl, by decide +kernel, by decide +kernel, by decide +kernel, by decide +kernel,
    by decide +kernel⟩

theorem witness_ResetInputResetsEveryEngine :
    ({ twoEngines with inbox := [.reset] } : State).inbox = .reset :: [] := rfl

/-- A CRST pending on the reset block: a step that meets the premises of every invariant. -/
theorem witness_step :
    step (State.reset.placeCommand 0x01000000) = .next State.reset := rfl

theorem witness_StepKeepsMemoryCanonical :
    ∀ e ∈ (State.reset.placeCommand 0x01000000).engines,
      Memory.wf e.mem ∧ CellsMapped (State.reset.placeCommand 0x01000000).params e.mem := by
  intro e he
  obtain rfl : e = Engine.reset := by simpa [State.engines, State.placeCommand, State.reset] using he
  exact ⟨by decide, by simp [CellsMapped, Engine.reset]⟩

theorem witness_StepKeepsCursorOnTrack :
    ∀ e ∈ (State.reset.placeCommand 0x01000000).engines, CursorOk e := by
  intro e he
  obtain rfl : e = Engine.reset := by simpa [State.engines, State.placeCommand, State.reset] using he
  unfold CursorOk
  decide

theorem witness_StepKeepsMemoCoherent :
    (State.reset.placeCommand 0x01000000).params.Ok ∧
      ∀ e ∈ (State.reset.placeCommand 0x01000000).engines,
        MemoOk (State.reset.placeCommand 0x01000000).params e := by
  refine ⟨witness_paramsOk, fun e he => ?_⟩
  obtain rfl : e = Engine.reset := by simpa [State.engines, State.placeCommand, State.reset] using he
  exact ⟨fun _ => rfl, fun h => absurd h (by decide)⟩

theorem witness_StepKeepsSectorTable :
    (State.reset.placeCommand 0x01000000).params.Ok ∧
      ∀ e ∈ (State.reset.placeCommand 0x01000000).engines, TableOk e := by
  refine ⟨witness_paramsOk, fun e he => ?_⟩
  obtain rfl : e = Engine.reset := by simpa [State.engines, State.placeCommand, State.reset] using he
  refine ⟨by decide, by decide +kernel, by decide +kernel, fun n hn => absurd hn (by simp [Engine.reset]),
    by decide +kernel, fun m n _ hn => absurd hn (by simp [Engine.reset]), ?_⟩
  simp [Engine.reset]

/-- A next state of a command; a step of an engine with ANYERR set, not a reset; a step that is one. -/
theorem witness_AnyErrIsSticky :
    (∃ t, exec .crst State.reset = .next t) ∧
      step ((block (Engine.reset.raise .noTrack)).placeCommand 0x01000000) =
        .next (block (Engine.reset.raise .noTrack).clearErr) ∧
      (block (Engine.reset.raise .noTrack)).engines[0]? = some (Engine.reset.raise .noTrack) ∧
      (Engine.reset.raise .noTrack).anyErr = true ∧
      (∃ t, step { State.reset with inbox := [.reset] } = .next t) :=
  ⟨⟨_, rfl⟩, rfl, rfl, rfl, ⟨_, rfl⟩⟩

/-- A track of 9 bits with nothing written: at its first bit and at its last the byte under the cursor is
unwritten. -/
theorem witness_unwritten :
    (track 9 []).bitcount ≠ 0 ∧ (track 9 []).bitcount.toNat ≤ 8 * defaultParams.tbufBytes ∧
      (track 9 []).dvalid = false ∧ (track 9 []).mem.read tbufBase = none ∧
      (track 9 []).mem.read (tbufBase + (track 9 []).bitpos.toNat / 8) = none ∧
      ({ track 9 [] with bitpos := 8 } : Engine).mem.read (tbufBase + 8 / 8) = none := by decide +kernel

/-- No track, one bit too many, an ordinary bit, and the last bit of the track. An unwritten byte:
witness_unwritten. -/
theorem witness_NbitReadsOneTrackBit :
    (block Engine.reset).cur.bitcount = 0 ∧ 8 * 32768 < (track 262145 []).bitcount.toNat ∧
      (trackA.bitcount ≠ 0 ∧ trackA.bitcount.toNat ≤ 8 * defaultParams.tbufBytes ∧
        trackA.mem.read (tbufBase + trackA.bitpos.toNat / 8) = some 0x35) ∧
      ({ trackA with bitpos := 25 } : Engine).mem.read (tbufBase + 25 / 8) = some 0x80 := by decide +kernel

theorem witness_trackA : TrackLoaded defaultParams trackA ∧ CursorOk trackA ∧ HasFlux trackA :=
  ⟨by unfold TrackLoaded; decide +kernel, by unfold CursorOk; decide, ⟨2, by decide, rfl⟩⟩

/-- Track A from bit 0, behind two zero bits; and from bit 18, where the byte ends on the wrap. -/
theorem witness_NbyteReadsNextSyncByte :
    (∀ j < 2, trackBit trackA.mem ((0 + j) % 26) = .ok false) ∧ trackBit trackA.mem ((0 + 2) % 26) = .ok true ∧
      CursorOk { trackA with bitpos := 18 } ∧ trackBit trackA.mem ((18 + 0) % 26) = .ok true :=
  ⟨by decide +kernel, by decide +kernel, by unfold CursorOk; decide, by decide +kernel⟩

/-- A track of 16 zero bits. An unwritten byte: witness_unwritten. -/
theorem witness_NbyteErrors :
    Engine.reset.bitcount = 0 ∧ 8 * defaultParams.tbufBytes < (track 262145 []).bitcount.toNat ∧
      TrackLoaded defaultParams (track 16 [0, 0]) ∧ CursorOk (track 16 [0, 0]) ∧
      ∀ i < (track 16 [0, 0]).bitcount.toNat, trackBit (track 16 [0, 0]).mem i = .ok false :=
  ⟨rfl, by decide, by unfold TrackLoaded; decide +kernel, by unfold CursorOk; decide, by decide +kernel⟩

/-- The cases of MAT. An unwritten first byte: witness_unwritten. -/
theorem witness_MatMaterializesTrack :
    (withArray fieldA).dvalid = true ∧ (Engine.reset.dvalid = false ∧ Engine.reset.bitcount = 0) ∧
      (8 * defaultParams.tbufBytes < (track 262145 []).bitcount.toNat ∧ (track 262145 []).dvalid = false) ∧
      (TrackLoaded defaultParams (track 16 [0, 0]) ∧ (track 16 [0, 0]).dvalid = false) ∧
      TrackLoaded defaultParams trackA ∧ HasFlux trackA ∧ trackA.dvalid = false :=
  ⟨rfl, ⟨rfl, rfl⟩, ⟨by decide, rfl⟩, ⟨witness_NbyteErrors.2.2.1, rfl⟩, witness_trackA.1, witness_trackA.2.2, rfl⟩

/-- TC-9. -/
theorem witness_DecodedArrayFollowsTrack :
    syncBytes (track 1 [0x80]).mem 1 (decodedLength 1) 0 = .ok (List.replicate 601 0xFF) := by decide +kernel

/-- TC-10: two tracks of the same 12 bits. -/
theorem witness_DecodedArrayDependsOnTrackAlone :
    ∀ i < 12, trackBit (track 12 [0xD5, 0xAF]).mem i = trackBit (track 12 [0xD5, 0xA0]).mem i := by
  decide +kernel

/-- A memo that holds, and a track that can be read. -/
theorem witness_DbufReady : DbufReady defaultParams (withArray fieldA) ∧ DbufReady defaultParams trackA :=
  ⟨.inl rfl, .inr ⟨witness_trackA.1, witness_trackA.2.2⟩⟩

/-- Each error of EnsureDBUF: no track, one bit too many, 16 zero bits. -/
theorem witness_DbufError :
    DbufError defaultParams Engine.reset .noTrack ∧ DbufError defaultParams (track 262145 []) .trackOverflow ∧
      DbufError defaultParams (track 16 [0, 0]) .noFlux :=
  ⟨⟨rfl, .inl ⟨rfl, rfl⟩⟩, ⟨rfl, .inr (.inl ⟨rfl, by decide⟩)⟩,
    ⟨rfl, .inr (.inr ⟨rfl, witness_NbyteErrors.2.2.1, witness_NbyteErrors.2.2.2.2⟩)⟩⟩

/-- The same with CFG = 0x1011, for SELV; the last two also have a track, for SCAN. -/
theorem witness_DbufError_configured :
    let f := fun e : Engine => { e with cfgVersion := 1, cfgDiskType := 1 }
    (∀ e, CfgLegal (f e)) ∧ DbufError defaultParams (f Engine.reset) .noTrack ∧
      (DbufError defaultParams (f (track 262145 [])) .trackOverflow ∧ (f (track 262145 [])).bitcount ≠ 0) ∧
      DbufError defaultParams (f (track 16 [0, 0])) .noFlux ∧ (f (track 16 [0, 0])).bitcount ≠ 0 :=
  ⟨fun _ => ⟨.inl rfl, .inl rfl, fun h => absurd h.1 (show ¬(1 : BitVec 4) = 2 by decide)⟩,
    witness_DbufError.1,
    ⟨witness_DbufError.2.1, by decide⟩, witness_DbufError.2.2, by decide⟩

/-- CFG at reset, and each field just outside its range. -/
theorem witness_BadConfigStopsSelvAndScan :
    ¬CfgLegal Engine.reset ∧ ¬CfgLegal { Engine.reset with cfgVersion := 3, cfgDiskType := 1 } ∧
      ¬CfgLegal { Engine.reset with cfgVersion := 1, cfgDiskType := 3 } ∧
      ¬CfgLegal { Engine.reset with cfgVersion := 2, cfgDiskType := 1, cfgBootFmt := 4 } := by
  unfold CfgLegal
  decide

/-- An engine with CFG's fields set and a memo of the array `d`. -/
def configured (ver dt bf : BitVec 4) (d : List Byte) : Engine :=
  { withArray d with cfgVersion := ver, cfgDiskType := dt, cfgBootFmt := bf }

theorem witness_SelvSelectsVariant_cfg :
    CfgLegal (configured 1 2 0 []) ∧ CfgLegal (configured 2 2 15 []) ∧ CfgLegal (configured 2 1 1 []) ∧
      CfgLegal (configured 2 1 2 []) ∧ CfgLegal (configured 2 1 3 []) ∧ CfgLegal (configured 2 1 0 []) ∧
      CfgLegal (configured 1 1 15 []) := by
  unfold CfgLegal
  decide

/-- A memo that holds is what EnsureDBUF answers; PRO16 occurs in the first array, PRO13 alone in the second,
neither in the third. -/
theorem witness_SelvSelectsVariant :
    ensureDbuf defaultParams (withArray fieldA) = .ok (withArray fieldA) ∧
      Occurs defaultParams.pro16 (decodedArray (withArray fieldA)) ∧
      Occurs defaultParams.pro13 (decodedArray (withArray [0xD5, 0xAA, 0xB5])) ∧
      ¬Occurs defaultParams.pro16 (decodedArray (withArray [0xD5, 0xAA, 0xB5])) ∧
      ¬Occurs defaultParams.pro13 (decodedArray (withArray [])) := by
  refine ⟨rfl, ⟨0, by unfold OccursAt; decide +kernel⟩, ⟨0, by unfold OccursAt; decide +kernel⟩, ?_, ?_⟩
  · have hd : decodedArray (withArray [0xD5, 0xAA, 0xB5]) = [0xD5, 0xAA, 0xB5] := by decide +kernel
    rintro ⟨o, h0, h1, h2⟩
    rw [hd] at h2
    rcases o with _ | o
    · exact absurd h2 (by decide)
    · simp at h2
  · have hd : decodedArray (withArray []) = [] := by decide +kernel
    rintro ⟨o, h0, h1, h2⟩
    simp [hd] at h0

theorem witness_ScanOfAbsentTrackIsNoError :
    CfgLegal (configured 1 1 0 []) ∧ (configured 1 1 0 []).bitcount = 0 :=
  ⟨by unfold CfgLegal; decide, rfl⟩

/-- Track A with CFG = 0x1011: its array begins with PRO16. -/
theorem witness_ScanCompletes :
    let e := { trackA with cfgVersion := 1, cfgDiskType := 1 }
    defaultParams.Ok ∧ CfgLegal e ∧ e.bitcount ≠ 0 ∧ MemoOk defaultParams e ∧ DbufReady defaultParams e := by
  intro e
  exact ⟨witness_paramsOk, by unfold CfgLegal; decide, by decide,
    ⟨fun _ => rfl, fun h => absurd h (by decide)⟩, .inr ⟨by unfold TrackLoaded; decide +kernel, ⟨2, by decide, rfl⟩⟩⟩

/-- The clauses of ScanCompletes' conclusion: a selected variant whose prologue occurs, one whose prologue does
not, and no variant. -/
theorem witness_ScanCompletes_clauses :
    (selectVariant defaultParams (configured 1 1 0 []) fieldA = some .s16 ∧
        findFn fieldA 0 (prologueOf defaultParams .s16) = some 0) ∧
      (selectVariant defaultParams (configured 2 1 1 []) [0xFF] = some .s16 ∧
        findFn [0xFF] 0 (prologueOf defaultParams .s16) = none) ∧
      selectVariant defaultParams (configured 1 1 0 []) [0xFF] = none := by decide +kernel

theorem witness_ScanWalkIsSpecLoop : findFn fieldA 0 (prologueOf defaultParams .s16) = some 0 := by decide +kernel

/-- A field twice: the scan records one entry and ends with DUPLICATE. -/
theorem witness_ScanEntriesAreFields :
    ∃ es, scanFrom defaultParams Engine.reset .s16 (fieldA ++ fieldA) 0 (fieldA ++ fieldA) [] = (es, .duplicate) ∧
      es.length = 1 := by
  refine ⟨_, Prod.ext rfl ?_, ?_⟩ <;> decide +kernel

/-- A 3.5" field with CHKOK = 0 under A35POL = 1, and the three ways out of the policy; an array without and with a
data prologue, at both ends of the window; the open decoders absent and present. -/
theorem witness_AddressChecksumPolicy :
    (fieldOf35 0 1 0 0 0).chkOk = false ∧ Engine.reset.cfgA35pol = true ∧ Variant.s13 ≠ .gcr35 ∧
      (fieldOf35 0 1 0 0 1).chkOk = true ∧
      ({ Engine.reset with cfgA35pol := false } : Engine).cfgA35pol = false ∧
      dataOffset fieldA 0 = none ∧
      dataOffset (List.replicate 11 0xFF ++ [0xD5, 0xAA, 0xAD]) 0 = some 11 ∧
      dataOffset (List.replicate 200 0xFF ++ [0xD5, 0xAA, 0xAD]) 0 = some 200 ∧
      dataOffset (List.replicate 201 0xFF ++ [0xD5, 0xAA, 0xAD]) 0 = none ∧
      defaultParams.hasDecode13 = false ∧ defaultParams.hasDecode35 = false ∧
      ({ defaultParams with hasDecode13 := true } : Params).hasDecode13 = true ∧
      ({ defaultParams with hasDecode35 := true } : Params).hasDecode35 = true := by decide +kernel

/-- A full table of 16 entries, its first and its last. -/
theorem witness_SectorTableLayout :
    let x : SectorEntry := ⟨8, none, fieldOf35 0 1 0 0 0, .ok, List.replicate 512 1⟩
    let es := List.replicate 16 x
    es.length ≤ 16 ∧ (∀ y ∈ es, y.payload.length ≤ 512) ∧ es[0]? = some x ∧ es[15]? = some x := by
  intro x es
  refine ⟨by simp [es], ?_, by simp [es], by simp [es]⟩
  intro y hy
  rw [(List.mem_replicate.mp hy).2]
  exact Nat.le_of_eq List.length_replicate

/-- The largest value that X62's format carries, and a legal table. -/
theorem witness_X62Translates : (0x3F : Byte).toNat < 64 ∧ defaultParams.Ok := ⟨by decide, witness_paramsOk⟩

/-- A byte of L62 at either end of the table, and one outside it. -/
theorem witness_U62Untranslates :
    defaultParams.Ok ∧ x62f defaultParams 0 = 0x96 ∧ x62f defaultParams 0x3F = 0xFF ∧
      ∀ v : BitVec 6, x62f defaultParams v ≠ 0xD5 :=
  ⟨witness_paramsOk, by decide +kernel, by decide +kernel, by decide +kernel⟩

theorem witness_TranslatorRoundTrips :
    defaultParams.Ok ∧ unx62 defaultParams 0xFF = .ok 0x3F ∧ legal62 defaultParams 0x96 = true ∧
      legal44 0xAA = true ∧ legal44 0xFF = true :=
  ⟨witness_paramsOk, by decide +kernel, by decide +kernel, by decide, by decide⟩

/-- OPA at DLEN - 11 and at DLEN - 10 (A44-4, A44-5), with a memo that holds. -/
theorem witness_Da44ReportsAddressField :
    ensureDbuf defaultParams { withArray fieldA with opa := 3, err := .noError } =
        .ok { withArray fieldA with opa := 3 } ∧
      3 + 11 ≤ (withArray fieldA).dlen.toNat ∧ (withArray fieldA).dlen.toNat < 4 + 11 :=
  ⟨rfl, by decide, by decide⟩

/-- A35-1, A35-2, and one byte short. -/
theorem witness_Da35ReportsAddressField :
    ([0x05, 0x03, 0x21, 0x22, 0x05].map (x62f defaultParams) =
        (([0xD5, 0xAA, 0x96, 0x9E, 0x9B, 0xD7, 0xD9, 0x9E] : List Byte).drop (0 + 3)).take 5 ∧
      0 + 8 ≤ (withArray [0xD5, 0xAA, 0x96, 0x9E, 0x9B, 0xD7, 0xD9, 0x9E]).dlen.toNat) ∧
      legal62 defaultParams (([0xD5, 0xAA, 0x96, 0x9E, 0xD5, 0xD7, 0xD9, 0x9E] : List Byte).getD (0 + 3 + 1) 0) =
        false ∧
      (withArray [0xD5, 0xAA, 0x96, 0x9E, 0x9B, 0xD7, 0xD9]).dlen.toNat < 0 + 8 := by decide +kernel

/-- D16-1, D16-11, D16-13 and D16-14. -/
theorem witness_Dd16DecodesDataField :
    ((List.replicate 343 (0 : BitVec 6)).map (x62f defaultParams) = List.replicate 343 0x96 ∧
        xorAll (List.replicate 343 (0 : BitVec 6)) = 0) ∧
      xorAll (List.replicate 342 (0 : BitVec 6) ++ [1]) ≠ 0 ∧
      legal62 defaultParams 0xAA = false ∧ (List.replicate 342 (0x96 : Byte)).length < 343 := by decide +kernel

/-- Any array that holds the encoding of a payload after a prologue; here of the payload of zeros (D16-1). -/
theorem witness_SectorCodecRoundTrip :
    defaultParams.Ok ∧ (List.replicate 256 (0 : Byte)).length = 256 ∧
      (([0xD5, 0xAA, 0xAD] ++ List.replicate 343 (0x96 : Byte)).drop (0 + 3)).take 343 =
        encodeData16 defaultParams (List.replicate 256 0) :=
  ⟨witness_paramsOk, List.length_replicate, by decide +kernel⟩

theorem witness_BackwardChainIsForwardChain :
    (List.replicate 343 (0 : Byte)).length = 343 ∧ xorAll (List.replicate 343 (0 : Byte)) = 0 :=
  ⟨List.length_replicate, by decide +kernel⟩

/-- DECODE13 and DECODE35 absent, and present. -/
theorem witness_OpenDecodersFollowParameter :
    defaultParams.hasDecode13 = false ∧ defaultParams.hasDecode35 = false ∧
      DbufReady { defaultParams with hasDecode13 := true, hasDecode35 := true } (withArray fieldA) :=
  ⟨rfl, rfl, .inl rfl⟩

theorem witness_RegisterCommandsFrame :
    (∃ t, exec .crst (block trackA) = .next t) ∧ (∃ t, exec .nbit (block trackA) = .next t) ∧
      (∃ t, exec .nbyte (block trackA) = .next t) ∧ (∃ t, exec (.x62 0x3F) (block trackA) = .next t) ∧
      (∃ t, exec (.u62 0x96) (block trackA) = .next t) ∧ (∃ t, exec (.x44 0xFF) (block trackA) = .next t) ∧
      ∃ t, exec (.u44 0xFF 0xFF) (block trackA) = .next t := by
  refine ⟨?_, ?_, ?_, ?_, ?_, ?_, ?_⟩ <;> exact next_of_after (by decide +kernel)

/-- Over a memo that holds; MAT that stores the array is test_mat. -/
theorem witness_DbufReadersFrame :
    (∃ t, exec .mat (block (withArray fieldA)) = .next t) ∧
      (∃ t, exec (.find 0xD5 0xAA 0x96) (block (withArray fieldA)) = .next t) ∧
      (∃ t, exec .selv (block (configured 1 1 0 fieldA)) = .next t) ∧
      (∃ t, exec .da44 (block (withArray fieldA)) = .next t) ∧
      (∃ t, exec .da35 (block (withArray fieldA)) = .next t) ∧
      DbufStoredOnly defaultParams Engine.reset { Engine.reset with dvalid := true } 0x1FFFF ∧
      DbufStoredOnly defaultParams Engine.reset Engine.reset 0x20000 := by
  refine ⟨?_, ?_, ?_, ?_, ?_, .inr (.inl (by decide)), .inl rfl⟩ <;> exact next_of_after (by decide +kernel)

/-- FIND and SELV on no track, and the address decoders on an array that ends too early. -/
theorem witness_DbufReadersFrame_errors :
    let failed := fun t : Engine => decide (t.err ≠ .noError ∧ t.err ≠ .prologueNotFound)
    (∃ t, exec (.find 0xD5 0xAA 0x96) (block Engine.reset) = .next t ∧ failed t.cur = true) ∧
      (∃ t, exec .selv (block Engine.reset) = .next t ∧ failed t.cur = true) ∧
      (∃ t, exec .da44 (block (withArray [0xD5])) = .next t ∧ failed t.cur = true) ∧
      ∃ t, exec .da35 (block (withArray [0xD5])) = .next t ∧ failed t.cur = true := by
  intro failed
  refine ⟨?_, ?_, ?_, ?_⟩ <;> exact next_of_after_any (by decide +kernel)

theorem witness_PayloadCommandsFrame :
    (∃ t, exec .dd16 (block (withArray fieldA)) = .next t) ∧ (∃ t, exec .dd13 (block (withArray fieldA)) = .next t) ∧
      (∃ t, exec .dd35 (block (withArray fieldA)) = .next t) ∧ (∃ t, exec .ed16 (block Engine.reset) = .next t) ∧
      Outside wbufBase 256 (wbufBase + 256) ∧ Outside wbufBase 512 (wbufBase + 512) ∧
      Outside nbufBase 343 (nbufBase + 343) := by
  refine ⟨?_, ?_, ?_, ?_, .inr (by decide), .inr (by decide), .inr (by decide)⟩ <;>
    exact next_of_after (by decide +kernel)

theorem witness_ScanFrame :
    (∃ t, exec .scan (block Engine.reset) = .next t) ∧ Outside sectBase 512 (sectBase + 512) ∧
      Outside pbufBase 8192 (pbufBase + 8192) ∧ DbufStoredOnly defaultParams Engine.reset Engine.reset 0 :=
  ⟨next_of_after (by decide +kernel), .inr (by decide), .inr (by decide), .inl rfl⟩

end Sys2Proof.Tests
end

section
/-! PROOFS. What a command and a host access can write, said once: `EngineWrite` is one write of an engine,
`exec_ends` says that a command is a chain of such writes ended by completion, by an error, or by the read of an
unwritten track bit, and `step_engines` that a step is a chain of them on one engine, or the reset input. -/

namespace Sys2Proof.Machine

/-! ## One write -/

/-- What the invariants of an engine speak of: its memory, the track's length, the cursor, the memo, SCOUNT,
SECTFAIL and the error flags. The other registers are as after reset. -/
def Engine.core (e : Engine) : Engine :=
  { Engine.reset with
    mem := e.mem, bitcount := e.bitcount, bitpos := e.bitpos, dvalid := e.dvalid, dlen := e.dlen
    scount := e.scount, sectFail := e.sectFail, err := e.err, anyErr := e.anyErr }

/-- What a scan may record: with legal parameters at most 16 entries, each sector number once, and payloads that
fit their slots and stand under the status OK alone (R52, R53, R180, R182). -/
structure Recordable (P : Params) (es : List SectorEntry) : Prop where
  length : P.Ok → es.length ≤ maxSectors
  sectors : es.Pairwise (fun x y => x.field.sector ≠ y.field.sector)
  payload : ∀ x ∈ es, x.payload.length ≤ 512 ∧ (x.status ≠ .ok → x.payload = [])

/-- One write of the engine `e`, by a command or by the host, that leaves ERR and ANYERR. -/
inductive EngineWrite (P : Params) (e : Engine) : Engine → Prop
  /-- Registers that no invariant speaks of. -/
  | registers {e' : Engine} : e'.core = e.core → EngineWrite P e e'
  /-- The cursor moved along the track (R41). -/
  | cursor (pos revs : Word) : (CursorOk e → pos.toNat < max e.bitcount.toNat 1) →
      EngineWrite P e { e with bitpos := pos, revs := revs }
  /-- BITCOUNT written by the host (R39). -/
  | bitcount (v : Word) : EngineWrite P e (writeBitcount e v)
  /-- The decoded array materialized (R143). -/
  | decoded (ys : List Byte) : trackReady P e = none →
      syncBytes e.mem e.bitcount.toNat (decodedLength e.bitcount.toNat) 0 = .ok ys →
      EngineWrite P e (setDecoded P e ys)
  /-- Bytes of a window that the host may write: the host's, a payload or disk bytes (R50, R54, R55, R88). -/
  | buffer (w : Window) (off : Nat) (bs : List Byte) : w.writable = true → w.base ≤ off →
      off + bs.length ≤ w.base + w.size P → EngineWrite P e (bufWrite e w off bs)
  /-- The sector table stored, with STOP and SECTFAIL: empty at a scan's start, filled at its end (R175). -/
  | table (es : List SectorEntry) (c : StopCode) : Recordable P es → EngineWrite P e (endScan e (es, c))

/-- A chain of writes. -/
abbrev EngineWrites (P : Params) : Engine → Engine → Prop := Relation.ReflTransGen (EngineWrite P)

/-- A scan's start stores the empty table. -/
theorem startScan_write (P : Params) (e : Engine) : EngineWrite P e (startScan e) :=
  .table [] .aborted ⟨fun _ => Nat.zero_le _, .nil, by simp⟩

theorem EngineWrite.err_anyErr {P : Params} {e e' : Engine} (h : EngineWrite P e e') :
    e'.err = e.err ∧ e'.anyErr = e.anyErr := by
  cases h with
  | registers h => exact ⟨(congrArg Engine.err h :), (congrArg Engine.anyErr h :)⟩
  | buffer w off bs =>
    unfold bufWrite
    split <;> exact ⟨rfl, rfl⟩
  | _ => exact ⟨rfl, rfl⟩

/-- A property that every write keeps is kept by a chain of them. -/
theorem EngineWrites.keeps {P : Params} {p : Engine → Prop} (hp : ∀ {e e'}, EngineWrite P e e' → p e → p e')
    {e e' : Engine} (h : EngineWrites P e e') (he : p e) : p e' := by
  induction h with
  | refl => exact he
  | tail _ hw ih => exact hp hw ih

theorem EngineWrites.err_anyErr {P : Params} {e e' : Engine} (h : EngineWrites P e e') :
    e'.err = e.err ∧ e'.anyErr = e.anyErr :=
  h.keeps (p := fun x => x.err = e.err ∧ x.anyErr = e.anyErr)
    (fun hw hx => ⟨hw.err_anyErr.1.trans hx.1, hw.err_anyErr.2.trans hx.2⟩) ⟨rfl, rfl⟩

/-! ## The end of a command -/

/-- The pseudocode of a command goes through: writes, then completion or an error. -/
inductive Completes (P : Params) (e : Engine) : CmdEnd → Prop
  | done {e' : Engine} : EngineWrites P e e' → Completes P e (.done e')
  | raised {c : ErrCode} {e' : Engine} : c ≠ .noError → EngineWrites P e e' → Completes P e (.raised c e')

/-- `f` is the fault of reading a bit of the track, if the cursor is on it, that stands in an unwritten byte
(R50). -/
def UnwrittenBit (e : Engine) (f : Fault) : Prop :=
  CursorOk e → ∃ i < e.bitcount.toNat, trackBit e.mem i = .error f

/-- The pseudocode of a command goes through or stops on an unwritten track bit. -/
def Ends (P : Params) (e : Engine) (x : CmdEnd) : Prop :=
  Completes P e x ∨ ∃ f, x = .fault f ∧ UnwrittenBit e f

/-- Writes before pseudocode that goes through. -/
theorem Completes.after {P : Params} {e e' : Engine} {x : CmdEnd} (h : EngineWrites P e e')
    (hx : Completes P e' x) : Completes P e x := by
  cases hx with
  | done h' => exact .done (h.trans h')
  | raised hc h' => exact .raised hc (h.trans h')

/-- A completion after register writes alone. -/
theorem Completes.registers {P : Params} {e e' : Engine} (h : e'.core = e.core) : Completes P e (.done e') :=
  .done (.single (.registers h))

/-- An error raised with nothing written. -/
theorem Completes.raise {P : Params} (e : Engine) {c : ErrCode} (h : c ≠ .noError) :
    Completes P e (.raised c e) :=
  .raised h .refl

/-! ## EnsureDBUF -/

theorem trackReady_ne {P : Params} {e : Engine} {c : ErrCode} (h : trackReady P e = some c) : c ≠ .noError := by
  rcases trackReady_some h with ⟨rfl, -⟩ | ⟨rfl, -⟩ <;> simp

theorem trackReady_pos {P : Params} {e : Engine} (h : trackReady P e = none) : 0 < e.bitcount.toNat := by
  obtain ⟨h0, -⟩ := trackReady_none h
  exact Nat.pos_of_ne_zero fun h => h0 (BitVec.eq_of_toNat_eq (by simpa using h))

/-- What stops the reading of an array: NoFlux, or an unwritten bit of the track (R143, R146). -/
theorem syncBytes_error {m : Memory} {bc : Nat} (hbc : 0 < bc) {x : Halt} :
    ∀ n u, syncBytes m bc n (u % bc) = .error x →
      x = .raise .noFlux ∨ ∃ f, x = .fault f ∧ ∃ i < bc, trackBit m i = .error f
  | 0, _, h => by cases h
  | n + 1, u, h => by
    unfold syncBytes at h
    split at h
    · rename_i f hf
      exact .inr ⟨f, (Except.error.inj h).symm, syncByte_fault hbc hf⟩
    · exact .inl (Except.error.inj h).symm
    · rename_i v p w hv
      obtain ⟨k, hk⟩ := syncByte_inv hbc hv
      rw [syncByte_stream hbc hk] at hv
      obtain ⟨-, rfl, -⟩ := Sync.byte.inj hv
      split at h
      · rename_i y hy
        exact syncBytes_error hbc n _ (hy.trans h)
      · cases h

/-- What EnsureDBUF raises, and on what it stops (R147). -/
theorem ensureDbuf_error {P : Params} {e : Engine} {x : Halt} (h : ensureDbuf P e = .error x) :
    (∃ c, x = .raise c ∧ c ≠ .noError) ∨
      ∃ f, x = .fault f ∧ ∃ i < e.bitcount.toNat, trackBit e.mem i = .error f := by
  unfold ensureDbuf at h
  split at h
  · cases h
  · split at h
    · rename_i c hc
      exact .inl ⟨c, (Except.error.inj h).symm, trackReady_ne hc⟩
    · rename_i hr
      split at h
      · rename_i y hy
        obtain rfl := Except.error.inj h
        rcases syncBytes_error (trackReady_pos hr) _ 0 (by rwa [Nat.zero_mod]) with rfl | hf
        · exact .inl ⟨_, rfl, by simp⟩
        · exact .inr hf
      · cases h

theorem ensureDbuf_writes {P : Params} {e e' : Engine} (h : ensureDbuf P e = .ok e') : EngineWrites P e e' := by
  rcases ensureDbuf_ok h with ⟨-, rfl⟩ | ⟨-, hr, ys, hys, rfl⟩
  · exact .refl
  · exact .single (.decoded ys hr hys)

/-- A command over DBUF: EnsureDBUF, then pseudocode that goes through. -/
theorem withDbuf_ends {P : Params} {e : Engine} {rest : Engine → CmdEnd}
    (h : ∀ e', Completes P e' (rest e')) : Ends P e (withDbuf P e rest) := by
  rcases withDbuf_cases (rfl : withDbuf P e rest = _) with ⟨e', he, hx⟩ | ⟨c, hc, hx⟩ | ⟨f, hf, hx⟩
  · rw [← hx]
    exact .inl (.after (ensureDbuf_writes he) (h e'))
  · rw [hx]
    rcases ensureDbuf_error hc with ⟨c', hc', hne⟩ | ⟨f, hf, -⟩
    · obtain rfl := Halt.raise.inj hc'
      exact .inl (.raise e hne)
    · cases hf
  · rw [hx]
    rcases ensureDbuf_error hf with ⟨c, hc, -⟩ | ⟨f', hf', i, hi, hb⟩
    · cases hc
    · obtain rfl := Halt.fault.inj hf'
      exact .inr ⟨f, rfl, fun _ => ⟨i, hi, hb⟩⟩

/-! ## The reads under the cursor -/

theorem CursorOk.lt {e : Engine} (h : CursorOk e) (h0 : 0 < e.bitcount.toNat) :
    e.bitpos.toNat < e.bitcount.toNat := by
  unfold CursorOk at h
  omega

/-- A position on the track fits BITPOS. -/
theorem toNat_ofNat_lt {bc : Word} {pos : Nat} (h : pos < bc.toNat) : (BitVec.ofNat 32 pos).toNat < bc.toNat := by
  have := bc.isLt
  rw [BitVec.toNat_ofNat, Nat.mod_eq_of_lt (by omega)]
  exact h

/-- The cursor moved to a place on the track. -/
theorem moveCursor_writes {P : Params} {e : Engine} {pos w : Nat}
    (h : CursorOk e → pos < e.bitcount.toNat) : EngineWrites P e (e.moveCursor pos w) :=
  .single (EngineWrite.cursor _ _ fun hc => by have := toNat_ofNat_lt (h hc); omega)

/-- Where NextBit ends from a place on the track. -/
theorem nextBit_pos_lt {m : Memory} {bc pos : Nat} {r : BitRead} (hpos : pos < bc)
    (h : nextBit m bc pos = .ok r) : r.pos < bc := by
  unfold nextBit at h
  split at h
  · cases h
  · split at h <;> obtain rfl := Except.ok.inj h
    · show 0 < bc
      omega
    · show pos + 1 < bc
      omega

/-- NoFlux says that no bit of the track is 1 (R146). -/
theorem zeros_of_noFlux {m : Memory} {bc u p w : Nat} (hbc : 0 < bc)
    (h : syncByte m bc (u % bc) = .noFlux p w) : ∀ i < bc, trackBit m i = .ok false := by
  intro i hi
  have hu := Nat.mod_lt u hbc
  rw [← Nat.mod_mod] at h
  have hz := syncByte_noFlux_inv hbc h ((i + (bc - u % bc)) % bc) (Nat.mod_lt _ hbc)
  rwa [Nat.add_mod_mod, show u % bc + (i + (bc - u % bc)) = i + bc by omega, Nat.add_mod_right,
    Nat.mod_eq_of_lt hi] at hz

/-- Where a self-sync read ends from a place on the track: on it, with a byte or with NoFlux. -/
theorem syncByte_pos_lt {m : Memory} {bc pos p w : Nat} (hpos : pos < bc)
    (h : (∃ v, syncByte m bc pos = .byte v p w) ∨ syncByte m bc pos = .noFlux p w) : p < bc := by
  have hbc : 0 < bc := by omega
  rw [← Nat.mod_eq_of_lt hpos] at h
  rcases h with ⟨v, h⟩ | h
  · obtain ⟨k, hk⟩ := syncByte_inv hbc h
    rw [syncByte_stream hbc hk] at h
    obtain ⟨-, rfl, -⟩ := Sync.byte.inj h
    exact Nat.mod_lt _ hbc
  · rw [syncByte_noFlux hbc (zeros_of_noFlux hbc h)] at h
    obtain ⟨rfl, -⟩ := Sync.noFlux.inj h
    exact Nat.mod_lt _ hbc

/-! ## Scans -/

/-- The target count of a scan is from 1 to 16 (R176). -/
theorem targetCount_bounds {P : Params} (hP : P.Ok) (e : Engine) (v : Variant) :
    0 < targetCount P e v ∧ targetCount P e v ≤ maxSectors := by
  cases v with
  | s16 => simp [targetCount, spt16, maxSectors]
  | s13 => simp [targetCount, spt13, maxSectors]
  | gcr35 => exact hP.2.1 _ (by simp [targetCount])

/-- Only a byte of TBUF's 64 KiB can be unwritten. -/
theorem Memory.read_none {m : Memory} {a : Nat} (h : m.read a = none) : tbufBase ≤ a ∧ a < dbufBase := by
  induction m with
  | nil =>
    unfold Memory.read Memory.unlisted at h
    split at h
    · assumption
    · cases h
  | cons c m ih =>
    rw [Memory.read] at h
    split at h
    · cases h
    · exact ih h

/-- A track bit faults exactly where its byte is unwritten (R50). -/
theorem trackBit_error {m : Memory} {i : Nat} {f : Fault} :
    trackBit m i = .error f ↔ m.read (tbufBase + i / 8) = none ∧ f = .tbufUnwritten (i / 8) := by
  unfold trackBit
  cases m.read (tbufBase + i / 8) with
  | none => simp [eq_comm]
  | some b => simp

/-- A scan's table changes no byte outside SECT and PBUF. -/
theorem storeTable_read_outside (e : Engine) (es : List SectorEntry) {x : Nat}
    (h1 : x < sectBase ∨ sectBase + 512 ≤ x) (h2 : x < pbufBase ∨ pbufBase + 8192 ≤ x) : (storeTable e es).mem.read x = e.mem.read x := by
  rw [storeTable_mem, Memory.read_store_outside _ _ _ _ _ h2, Memory.read_store_outside _ _ _ _ _ h1]

/-- A bit that stands in an unwritten byte after a scan's start stood in one before it. -/
theorem UnwrittenBit.of_startScan {e : Engine} {f : Fault} (h : UnwrittenBit (startScan e) f) :
    UnwrittenBit e f := by
  intro hc
  obtain ⟨i, hi, hb⟩ := h hc
  refine ⟨i, hi, ?_⟩
  rw [trackBit_error] at hb ⊢
  have hx := (Memory.read_none hb.1).2
  have hd : dbufBase < sectBase := by decide
  have hs : dbufBase < pbufBase := by decide
  rwa [← storeTable_read_outside e [] (.inl (by omega)) (.inl (by omega))]

/-! ## The commands -/

/-- The outcome `o` is that of pseudocode run on the addressed engine with ERR cleared, which goes through or
stops on an unwritten track bit. -/
def EndsAs (s : State) (o : Host.Outcome State Fault Refusal) : Prop :=
  ∃ x, o = s.finish x ∧ Ends s.params s.cur.clearErr x

theorem EndsAs.command {s : State} {body : Params → Engine → CmdEnd}
    (h : Ends s.params s.cur.clearErr (body s.params s.cur.clearErr)) : EndsAs s (s.command body) :=
  ⟨_, rfl, h⟩

theorem execCrst_ends (s : State) : EndsAs s (execCrst s) :=
  .command (.inl (.done (.single (.cursor 0 0 fun _ => by simp))))

theorem execNbit_ends (s : State) : EndsAs s (execNbit s) := by
  refine .command ?_
  split
  · exact .inl (.raise _ (trackReady_ne ‹_›))
  · have hpos := trackReady_pos ‹_›
    split
    · exact .inr ⟨_, rfl, fun hc => ⟨_, hc.lt hpos, nextBit_error.1 ‹_›⟩⟩
    · rename_i r hr
      have hw := moveCursor_writes (P := s.params) (w := r.wraps) fun hc => nextBit_pos_lt (hc.lt hpos) hr
      exact .inl (.after hw (.registers rfl))

theorem execNbyte_ends (s : State) : EndsAs s (execNbyte s) := by
  refine .command ?_
  split
  · exact .inl (.raise _ (trackReady_ne ‹_›))
  · have hpos := trackReady_pos ‹_›
    split
    · rename_i f hf
      refine .inr ⟨f, rfl, fun hc => ?_⟩
      rw [← Nat.mod_eq_of_lt (hc.lt hpos)] at hf
      exact syncByte_fault hpos hf
    · rename_i p w h
      exact .inl (.raised (by simp) (moveCursor_writes fun hc => syncByte_pos_lt (hc.lt hpos) (.inr h)))
    · rename_i v p w h
      have hw := moveCursor_writes (P := s.params) (w := w) fun hc => syncByte_pos_lt (hc.lt hpos) (.inl ⟨v, h⟩)
      exact .inl (.after hw (.registers rfl))

theorem execMat_ends (s : State) : EndsAs s (execMat s) :=
  .command (withDbuf_ends fun _ => .done .refl)

theorem execFind_ends (p0 p1 p2 : Byte) (s : State) : EndsAs s (execFind p0 p1 p2 s) := by
  refine .command (withDbuf_ends fun e => ?_)
  split <;> exact .registers rfl

theorem execSelv_ends (s : State) : EndsAs s (execSelv s) := by
  refine .command ?_
  split
  · refine withDbuf_ends fun e => ?_
    split
    · exact .raised (by simp) (.single (.registers rfl))
    · split
      · exact .raised (by simp) (.single (.registers rfl))
      · exact .registers rfl
  · exact .inl (.raise _ (by simp))

/-- The entries of a scan may be recorded. -/
theorem scanFrom_recordable (P : Params) (e : Engine) (v : Variant) (d rest : List Byte) (a : Nat) :
    Recordable P (scanFrom P e v d a rest []).1 where
  length hP :=
    have ht := targetCount_bounds hP e v
    (scanFrom_count P e v d rest a [] ht.1).1.trans ht.2
  sectors := scanFrom_sectors P e v d rest a [] .nil
  payload := scanFrom_forall (p := fun x => x.payload.length ≤ 512 ∧ (x.status ≠ .ok → x.payload = []))
    (fun a f _ => (entryOf_payload P e v d a f).symm) rest a [] (by simp)

theorem scanTrack_completes (P : Params) (e : Engine) : Completes P e (scanTrack P e) := by
  unfold scanTrack
  simp only []
  split
  · exact .raised (by simp) (.single (.registers rfl))
  · split
    · exact .raised (by simp) (.single (.registers rfl))
    · rename_i v _ _ _ _
      refine .after (.single (.registers (e' := (e.setVariant (some v)).setFound true) rfl)) (.done (.single ?_))
      exact .table _ _ (scanFrom_recordable P e v _ _ 0)

theorem execScan_ends (s : State) : EndsAs s (execScan s) := by
  refine .command ?_
  have hw : EngineWrites s.params s.cur.clearErr (startScan s.cur.clearErr) := .single (startScan_write _ _)
  simp only []
  split
  · split
    · exact .inl (.after hw (.registers rfl))
    · have hend := withDbuf_ends (e := startScan s.cur.clearErr) fun e => scanTrack_completes s.params e
      rcases hend with h | ⟨f, hf, hu⟩
      · exact .inl (h.after hw)
      · exact .inr ⟨f, hf, hu.of_startScan⟩
  · exact .inl (.raised (by simp) hw)

/-- The end of an address-field command. -/
theorem fieldEnd_completes (P : Params) (e : Engine) (r : Except FieldError AddrField) :
    Completes P e (fieldEnd e r) := by
  cases r with
  | ok f => exact .registers rfl
  | error x => exact .raise _ (errOfField_ne x)

/-- The end of a data-field command whose payload fits WBUF. -/
theorem payloadEnd_completes {P : Params} (e : Engine) {r : Except FieldError (List Byte)}
    (h : ∀ p, r = .ok p → p.length ≤ 512) : Completes P e (payloadEnd e r) := by
  cases r with
  | ok p => exact .done (.single (.buffer .wbuf wbufBase p rfl (Nat.le_refl _) (Nat.add_le_add_left (h p rfl) _)))
  | error x => exact .raise _ (errOfField_ne x)

/-- The end of a command over an open data decoder whose payload fits WBUF. -/
theorem openEnd_completes {P : Params} (e : Engine) {r : OpenDecode}
    (h : ∀ p, r = .present (.ok p) → p.length ≤ 512) : Completes P e (openEnd e r) := by
  cases r with
  | absent => exact .raise _ (by simp)
  | present x => exact payloadEnd_completes e fun p hp => h p (congrArg _ hp)

theorem execEd16_ends (s : State) : EndsAs s (execEd16 s) :=
  .command (.inl (.done (.single (.buffer .nbuf nbufBase _ rfl (Nat.le_refl _)
    (Nat.add_le_add_left (by simp [Window.size]) _)))))

theorem execU62_ends (b : Byte) (s : State) : EndsAs s (execU62 b s) := by
  refine .command (.inl ?_)
  split
  · exact .raised (errOfField_ne _) (.single (.registers rfl))
  · exact .registers rfl

theorem execX62_ends (v : Byte) (s : State) : EndsAs s (execX62 v s) := .command (.inl (.registers rfl))

theorem execX44_ends (b : Byte) (s : State) : EndsAs s (execX44 b s) := .command (.inl (.registers rfl))

theorem execU44_ends (bo be : Byte) (s : State) : EndsAs s (execU44 bo be s) := .command (.inl (.registers rfl))

theorem execDa44_ends (s : State) : EndsAs s (execDa44 s) :=
  .command (withDbuf_ends fun e => fieldEnd_completes _ e _)

theorem execDa35_ends (s : State) : EndsAs s (execDa35 s) :=
  .command (withDbuf_ends fun e => fieldEnd_completes _ e _)

theorem execDd16_ends (s : State) : EndsAs s (execDd16 s) :=
  .command (withDbuf_ends fun e => payloadEnd_completes e fun _ h => (decodeData16_length h).trans_le (by omega))

theorem execDd13_ends (s : State) : EndsAs s (execDd13 s) :=
  .command (withDbuf_ends fun e => openEnd_completes e fun _ h => (decodeData13_length h).trans_le (by omega))

theorem execDd35_ends (s : State) : EndsAs s (execDd35 s) :=
  .command (withDbuf_ends fun e => openEnd_completes e fun _ h => (decodeData35_length h).le)

/-- What every command can do: a chain of writes of the addressed engine from ERR cleared on, then completion or an
error, or the stop on an unwritten track bit. -/
theorem exec_ends (i : Instr) (s : State) : EndsAs s (exec i s) := by
  cases i with
  | crst => exact execCrst_ends s
  | nbit => exact execNbit_ends s
  | nbyte => exact execNbyte_ends s
  | mat => exact execMat_ends s
  | find p0 p1 p2 => exact execFind_ends p0 p1 p2 s
  | selv => exact execSelv_ends s
  | scan => exact execScan_ends s
  | da44 => exact execDa44_ends s
  | da35 => exact execDa35_ends s
  | dd16 => exact execDd16_ends s
  | ed16 => exact execEd16_ends s
  | x62 v => exact execX62_ends v s
  | u62 b => exact execU62_ends b s
  | x44 b => exact execX44_ends b s
  | u44 bo be => exact execU44_ends bo be s
  | dd13 => exact execDd13_ends s
  | dd35 => exact execDd35_ends s

/-- A command that answers a next state completed or raised one error after a chain of writes. -/
theorem exec_writes {i : Instr} {s t : State} (h : exec i s = .next t) :
    ∃ e, EngineWrites s.params s.cur.clearErr e ∧ (t.cur = e ∨ ∃ c, c ≠ .noError ∧ t.cur = e.raise c) := by
  obtain ⟨x, hx, hc | ⟨f, rfl, -⟩⟩ := exec_ends i s
  · cases hc with
    | done hw =>
      obtain rfl := Host.Outcome.next.inj (hx.symm.trans h)
      exact ⟨_, hw, .inl rfl⟩
    | raised hc hw =>
      obtain rfl := Host.Outcome.next.inj (hx.symm.trans h)
      exact ⟨_, hw, .inr ⟨_, hc, rfl⟩⟩
  · cases hx.symm.trans h

/-- A command that faults did so on an unwritten bit of the track. -/
theorem exec_fault {i : Instr} {s : State} {f : Fault} (h : exec i s = .fault f) :
    UnwrittenBit s.cur.clearErr f := by
  obtain ⟨x, hx, hc | ⟨g, rfl, hu⟩⟩ := exec_ends i s
  · cases hc <;> cases hx.symm.trans h
  · obtain rfl := Host.Outcome.fault.inj (hx.symm.trans h)
    exact hu

/-! ## A step -/

/-- The engines of a state whose addressed engine was set. -/
theorem State.engines_of_setCur {s : State} {e : Engine} {k : Nat} {x : Engine}
    (h : (State.engines { s with cur := e })[k]? = some x) :
    (k = s.below.length ∧ x = e) ∨ s.engines[k]? = some x := by
  by_cases hk : k = s.below.length
  · subst hk
    exact .inl ⟨rfl, (Option.some.inj ((State.engines_cur { s with cur := e }).symm.trans h)).symm⟩
  · exact .inr (State.engines_setCur s e k hk ▸ h)

/-- What one access of the host, other than reset, does to one engine: a chain of writes from the engine or from ERR
cleared on, and then possibly an error. -/
inductive EngineChange (P : Params) (e : Engine) : Engine → Prop
  | kept : EngineChange P e e
  | host {e' : Engine} : EngineWrite P e e' → EngineChange P e e'
  | completed {e' : Engine} : EngineWrites P e.clearErr e' → EngineChange P e e'
  | failed {e' : Engine} {c : ErrCode} : c ≠ .noError → EngineWrites P e.clearErr e' → EngineChange P e (e'.raise c)

theorem regWrite_write (P : Params) (e : Engine) (off : Nat) (v : Word) : EngineWrite P e (regWrite e off v) := by
  unfold regWrite
  split
  · exact .registers rfl
  · exact .registers rfl
  · exact .bitcount v
  · exact .registers rfl
  · exact .registers rfl

theorem issue_change {s t : State} {w : Word} (h : issue s w = .next t) :
    t = { s with cur := t.cur } ∧ EngineChange s.params s.cur t.cur := by
  unfold issue at h
  split at h
  · refine ⟨exec_next h, ?_⟩
    obtain ⟨e, hw, he | ⟨c, hc, he⟩⟩ := exec_writes h
    · exact he ▸ .completed hw
    · exact he ▸ .failed hc hw
  · rename_i x _
    cases x <;> obtain rfl := Host.Outcome.next.inj h <;> exact ⟨rfl, .failed (by simp) .refl⟩

/-- A host write that goes through changes the engine it addresses. -/
theorem hostWrite_change {s t : State} {n addr : Nat} {v : Word} (h : hostWrite s n addr v = .next t) :
    ∃ s', s.focus (addr / engineStride) = some s' ∧ t = { s' with cur := t.cur } ∧
      EngineChange s.params s'.cur t.cur := by
  obtain ⟨s', hf, h⟩ := hostWrite_next h
  obtain ⟨-, -, -, hp, -⟩ := State.focus_some hf
  refine ⟨s', hf, ?_⟩
  rw [← hp]
  rcases h with ⟨-, -, h⟩ | ⟨-, -, -, rfl⟩ | ⟨w, hw, hwr, hn, rfl⟩
  · exact issue_change h
  · exact ⟨rfl, .host (regWrite_write _ _ _ _)⟩
  · obtain ⟨h1, h2⟩ := windowOf_some hw
    refine ⟨rfl, .host (.buffer w _ _ hwr h1 ?_)⟩
    rw [hp]
    refine Nat.le_trans (Nat.add_le_add_left ?_ _) h2
    rw [List.length_take]
    exact Nat.min_le_left _ _

/-- What every step does to the engines: the parameters stay, and either the reset input resets them all, or each
engine sees at most one access. -/
theorem step_engines {s t : State} (h : step s = .next t) :
    t.params = s.params ∧
      ((∃ ops, s.inbox = .reset :: ops) ∧ (∀ e ∈ t.engines, e = Engine.reset) ∨
        (∀ ops, s.inbox ≠ .reset :: ops) ∧
          ∀ (k : Nat) (e' : Engine), t.engines[k]? = some e' →
            ∃ e, s.engines[k]? = some e ∧ EngineChange s.params e e') := by
  rcases step_next h with ⟨hi, rfl⟩ | ⟨op, ops, hi, h⟩
  · exact ⟨rfl, .inr ⟨by simp [hi], fun k e' h => ⟨e', h, .kept⟩⟩⟩
  · cases op with
    | read n addr =>
      simp only [hostStep] at h
      split at h
      · cases h
      · obtain rfl := Host.Outcome.next.inj h
        exact ⟨rfl, .inr ⟨by simp [hi], fun k e' h => ⟨e', h, .kept⟩⟩⟩
    | reset =>
      obtain rfl := Host.Outcome.next.inj h
      refine ⟨rfl, .inl ⟨⟨ops, hi⟩, fun e he => ?_⟩⟩
      simp only [State.engines, State.assertReset, List.mem_append, List.mem_map, List.mem_cons] at he
      rcases he with ⟨-, -, rfl⟩ | rfl | ⟨-, -, rfl⟩ <;> rfl
    | write n addr v =>
      obtain ⟨s', hf, ht, hc⟩ := hostWrite_change h
      obtain ⟨he, hk, hcur, hp, -⟩ := State.focus_some hf
      refine ⟨(congrArg State.params ht).trans hp, .inr ⟨by simp [hi], fun k e' h => ?_⟩⟩
      rw [ht] at h
      rcases State.engines_of_setCur h with ⟨rfl, rfl⟩ | h
      · exact ⟨s'.cur, hk ▸ hcur, hc⟩
      · exact ⟨e', he ▸ h, .kept⟩

/-- A property of an engine that reset gives and that every write, the clearing of ERR and an error keep. -/
structure Invariant (P : Params) (p : Engine → Prop) : Prop where
  reset : p Engine.reset
  write {e e' : Engine} : EngineWrite P e e' → p e → p e'
  clearErr {e : Engine} : p e → p e.clearErr
  raise {e : Engine} (c : ErrCode) : p e → p (e.raise c)

/-- Every step keeps an invariant of the engines. -/
theorem Invariant.step {p : Params → Engine → Prop} {s t : State} (hp : Invariant s.params (p s.params))
    (hs : ∀ e ∈ s.engines, p s.params e) (h : step s = .next t) : ∀ e ∈ t.engines, p t.params e := by
  obtain ⟨hpar, ⟨-, hr⟩ | ⟨-, hc⟩⟩ := step_engines h <;> rw [hpar] <;> intro e' he'
  · rw [hr e' he']
    exact hp.reset
  · obtain ⟨k, hk⟩ := List.mem_iff_getElem?.1 he'
    obtain ⟨e, he, hch⟩ := hc k e' hk
    have hpe := hs e (List.mem_of_getElem? he)
    cases hch with
    | kept => exact hpe
    | host hw => exact hp.write hw hpe
    | completed hw => exact hw.keeps hp.write (hp.clearErr hpe)
    | failed _ hw => exact hp.raise _ (hw.keeps hp.write (hp.clearErr hpe))

end Sys2Proof.Machine
end

section
/-! PROOFS. The four invariants of an engine that every step keeps: its memory's canonical form, the cursor on the
track, the memo, and the sector table. -/

namespace Sys2Proof.Machine

/-! ## Places of the windows -/

theorem window_bases : tbufBase = 0x10000 ∧ dbufBase = 0x20000 ∧ sectBase = 0x30000 ∧ pbufBase = 0x40000 ∧
    wbufBase = 0x50000 ∧ nbufBase = 0x60000 ∧ guardBytes = 600 := by decide

/-- From DBUF on an unlisted byte reads 0 (R60). -/
theorem Memory.unlisted_of_le {a : Nat} (h : dbufBase ≤ a) : Memory.unlisted a = some 0 :=
  if_neg (by omega)

/-- A window that the host may write is TBUF, or lies past SECT and PBUF (R81). -/
theorem Window.writable_cases {w : Window} (h : w.writable = true) : w = .tbuf ∨ wbufBase ≤ w.base := by
  cases w with
  | tbuf => exact .inl rfl
  | wbuf => exact .inr (by decide)
  | nbuf => exact .inr (by decide)
  | dbuf => cases h
  | sect => cases h
  | pbuf => cases h

/-! ## The memory -/

/-- The memory is canonical and lists bytes of buffer windows alone (R81). -/
def MemoryMapped (P : Params) (m : Memory) : Prop := Memory.wf m ∧ CellsMapped P m

/-- A store inside a window. -/
theorem MemoryMapped.store {P : Params} {m : Memory} {a n : Nat} {bs : List Byte} (w : Window) (h1 : w.base ≤ a)
    (h2 : a + n ≤ w.base + w.size P) (h : MemoryMapped P m) : MemoryMapped P (m.store a n bs) := by
  refine ⟨Memory.store_wf m a n bs h.1, fun c hc => ?_⟩
  rcases Memory.mem_store hc with ⟨hm, -⟩ | ⟨ha, hn, -⟩
  · exact h.2 c hm
  · exact ⟨w, by omega, by omega⟩

theorem memoryMapped_invariant (P : Params) : Invariant P fun e => MemoryMapped P e.mem where
  reset := ⟨Memory.wf_nil, by simp [CellsMapped, Engine.reset]⟩
  clearErr h := h
  raise _ h := h
  write hw h := by
    cases hw with
    | registers hc => exact (congrArg Engine.mem hc :).symm ▸ h
    | cursor pos revs hpos => exact h
    | bitcount v => exact h
    | decoded ys hr hys => exact h.store .dbuf (Nat.le_refl _) (Nat.le_refl _)
    | buffer w off bs hwr h1 h2 =>
      unfold bufWrite
      split <;> exact h.store w h1 h2
    | table es c hes =>
      have hsect := h.store .sect (n := 512) (bs := tableBytes es) (Nat.le_refl _) (Nat.le_refl _)
      exact hsect.store .pbuf (Nat.le_refl _) (Nat.le_refl _)

/-! ## The cursor -/

theorem cursorOk_invariant (P : Params) : Invariant P CursorOk where
  reset := by simp [CursorOk, Engine.reset]
  clearErr h := h
  raise _ h := h
  write {e e'} hw h := by
    cases hw with
    | registers hc =>
      show CursorOk e'.core
      exact hc ▸ (h : CursorOk e.core)
    | cursor pos revs hpos => exact hpos h
    | bitcount v => simp [CursorOk]
    | decoded ys hr hys => exact h
    | buffer w off bs hwr h1 h2 =>
      unfold bufWrite
      split <;> exact h
    | table es c hes => exact h

/-! ## The track -/

/-- The bits of a track depend on TBUF alone. -/
theorem trackBit_congr {P : Params} {m r : Memory} {bc : Nat} (hP : P.Ok) (hbc : bc ≤ 8 * P.tbufBytes)
    (h : ∀ x, tbufBase ≤ x → x < dbufBase → r.read x = m.read x) : ∀ i < bc, trackBit r i = trackBit m i := by
  intro i hi
  have hb := window_bases
  have ht := hP.1.2
  unfold trackBit
  rw [h (tbufBase + i / 8) (by omega) (by omega)]

/-- Two tracks of the same bits give the same array. -/
theorem syncBytes_congr {m r : Memory} {bc : Nat} (hbc : 0 < bc) (h : ∀ i < bc, trackBit m i = trackBit r i) :
    ∀ n u, syncBytes m bc n (u % bc) = syncBytes r bc n (u % bc)
  | 0, _ => rfl
  | n + 1, u => by
    unfold syncBytes
    rw [syncByte_congr hbc h]
    cases hv : syncByte r bc (u % bc) with
    | fault f => rfl
    | noFlux p w => rfl
    | byte v p w =>
      obtain ⟨k, hk⟩ := syncByte_inv hbc hv
      rw [syncByte_stream hbc hk] at hv
      obtain ⟨-, rfl, -⟩ := Sync.byte.inj hv
      simp only [syncBytes_congr hbc h n]

/-- The bits that an array of `n` bytes has read: at least `8 * n` of them. -/
theorem syncBytes_reads {m : Memory} {bc : Nat} (hbc : 0 < bc) :
    ∀ (n u : Nat) {ys : List Byte}, syncBytes m bc n (u % bc) = .ok ys →
      ∀ i < 8 * n, ∃ b, trackBit m ((u + i) % bc) = .ok b
  | 0, _, _, _ => by simp
  | n + 1, u, ys, h => by
    intro i hi
    obtain ⟨k, v, zs, ⟨-, hz, -, hb⟩, -, hr⟩ := syncBytes_cons hbc h
    by_cases h1 : i < k
    · exact ⟨_, hz i h1⟩
    · by_cases h2 : i < k + 8
      · have := hb (i - k) (by omega)
        rw [show u + k + (i - k) = u + i by omega] at this
        exact ⟨_, this⟩
      · have := syncBytes_reads hbc n _ hr (i - (k + 8)) (by omega)
        rwa [show u + k + 8 + (i - (k + 8)) = u + i by omega] at this

/-- A track whose array was read has every byte written. -/
theorem trackLoaded_of_syncBytes {P : Params} {e : Engine} {ys : List Byte} (hr : trackReady P e = none)
    (h : syncBytes e.mem e.bitcount.toNat (decodedLength e.bitcount.toNat) 0 = .ok ys) : TrackLoaded P e := by
  obtain ⟨h0, h1⟩ := trackReady_none hr
  have hbc := trackReady_pos hr
  refine ⟨h0, h1, fun i hi => ?_⟩
  rw [← Nat.zero_mod e.bitcount.toNat] at h
  obtain ⟨b, hb⟩ := syncBytes_reads hbc _ _ h (8 * i) (by unfold decodedLength; omega)
  rw [Nat.zero_add, Nat.mod_eq_of_lt (by omega)] at hb
  cases hm : e.mem.read (tbufBase + i) with
  | some c => rfl
  | none =>
    rw [trackBit_error.2 ⟨by rwa [Nat.mul_div_cancel_left _ (by omega)], rfl⟩] at hb
    cases hb

/-- Whether the track can be read depends on BITCOUNT and TBUF alone. -/
theorem TrackLoaded.congr {P : Params} {e e' : Engine} (hP : P.Ok) (hb : e'.bitcount = e.bitcount)
    (hm : ∀ x, tbufBase ≤ x → x < dbufBase → e'.mem.read x = e.mem.read x) (h : TrackLoaded P e) :
    TrackLoaded P e' := by
  obtain ⟨h0, h1, h2⟩ := h
  have hw := window_bases
  have ht := hP.1.2
  refine ⟨hb ▸ h0, hb ▸ h1, fun i hi => ?_⟩
  rw [hb] at hi
  rw [hm _ (by omega) (by omega)]
  exact h2 i hi

/-! ## The memo -/

/-- The decoded array of a track that fits TBUF fits DBUF (R9, R51). -/
theorem decodedLength_le {P : Params} {bc : Nat} (h : bc ≤ 8 * P.tbufBytes) :
    decodedLength bc ≤ P.tbufBytes + guardBytes := by
  unfold decodedLength
  omega

/-- The memo depends on BITCOUNT, DVALID, DLEN, TBUF and DBUF alone. -/
theorem MemoOk.congr {P : Params} {e e' : Engine} (hP : P.Ok) (hb : e'.bitcount = e.bitcount)
    (hv : e'.dvalid = e.dvalid) (hl : e'.dlen = e.dlen)
    (hm : ∀ x, tbufBase ≤ x → x < sectBase → e'.mem.read x = e.mem.read x) (h : MemoOk P e) : MemoOk P e' := by
  have hw := window_bases
  have ht := hP.1.2
  refine ⟨fun hd => hl.trans (h.1 (hv ▸ hd)), fun hd => ?_⟩
  obtain ⟨hload, hlen, hsync, hzero⟩ := h.2 (hv ▸ hd)
  have hle := decodedLength_le hload.2.1
  have htbuf : ∀ x, tbufBase ≤ x → x < dbufBase → e'.mem.read x = e.mem.read x :=
    fun x h1 h2 => hm x h1 (by omega)
  refine ⟨hload.congr hP hb htbuf, by rw [hl, hb, hlen], ?_, fun j h1 h2 => ?_⟩
  · have hd : decodedArray e' = decodedArray e := by
      unfold decodedArray
      rw [hl]
      exact Memory.bytes_congr _ _ _ _ fun x h1 h2 => hm x (by omega) (by omega)
    have hs := syncBytes_congr hload.pos (trackBit_congr hP hload.2.1 htbuf) e.dlen.toNat 0
    rw [Nat.zero_mod] at hs
    rw [hd, hl, hb, hs, hsync]
  · rw [hl] at h1
    rw [hm _ (by omega) (by omega)]
    exact hzero j h1 h2

/-- A materialization makes the memo hold (R143, R51). -/
theorem setDecoded_memoOk {P : Params} {e : Engine} {ys : List Byte} (hP : P.Ok) (hr : trackReady P e = none)
    (h : syncBytes e.mem e.bitcount.toNat (decodedLength e.bitcount.toNat) 0 = .ok ys) :
    MemoOk P (setDecoded P e ys) := by
  have hload := trackLoaded_of_syncBytes hr h
  have hlen := syncBytes_length h
  have hle := decodedLength_le hload.2.1
  have hw := window_bases
  have ht := hP.1.2
  have hdlen : (setDecoded P e ys).dlen.toNat = ys.length := by
    rw [setDecoded_dlen, BitVec.toNat_ofNat, Nat.mod_eq_of_lt (by omega)]
  have htbuf : ∀ x, tbufBase ≤ x → x < dbufBase → (setDecoded P e ys).mem.read x = e.mem.read x :=
    fun x _ h2 => Memory.read_store_outside _ _ _ _ _ (.inl h2)
  refine ⟨fun hd => (by cases hd), fun _ => ?_⟩
  refine ⟨hload.congr (e := e) hP rfl htbuf, hdlen.trans hlen, ?_, fun j h1 h2 => ?_⟩
  · have hd : decodedArray (setDecoded P e ys) = ys := by
      unfold decodedArray
      rw [hdlen]
      exact Memory.bytes_store_self _ _ _ _ (by omega)
    have hs := syncBytes_congr hload.pos (trackBit_congr hP hload.2.1 htbuf) ys.length 0
    rw [Nat.zero_mod] at hs
    rw [hd, hdlen, setDecoded_bitcount, hs, hlen, h]
  · rw [hdlen] at h1
    rw [setDecoded_mem, Memory.read_store_inside _ _ _ _ _ (by omega) (by omega), if_neg (by omega),
      Memory.unlisted_of_le (by omega)]

theorem memoOk_invariant {P : Params} (hP : P.Ok) : Invariant P (MemoOk P) where
  reset := ⟨fun _ => rfl, fun h => by cases h⟩
  clearErr h := h
  raise _ h := h
  write {e e'} hw h := by
    have hb := window_bases
    cases hw with
    | registers hc =>
      show MemoOk P e'.core
      exact hc ▸ (h : MemoOk P e.core)
    | cursor pos revs hpos => exact h
    | bitcount v => exact ⟨fun _ => rfl, fun h => by cases h⟩
    | decoded ys hr hys => exact setDecoded_memoOk hP hr hys
    | buffer w off bs hwr h1 h2 =>
      unfold bufWrite
      split
      · exact ⟨fun _ => rfl, fun h => by cases h⟩
      · have hbase := (Window.writable_cases hwr).resolve_left ‹_›
        exact h.congr (e := e) hP rfl rfl rfl fun x _ h => Memory.read_store_outside _ _ _ _ _ (.inl (by omega))
    | table es c hes =>
      exact h.congr (e := e) hP rfl rfl rfl fun x _ h => storeTable_read_outside e es (.inl h) (.inl (by omega))

end Sys2Proof.Machine
end

section
/-! PROOFS. Where the entries of a scan stand in SECT and PBUF (R52, R53), and the invariant of the sector table. -/

namespace Sys2Proof.Machine

open Sys2Proof.Certificates

/-! ## Slices of memory -/

/-- A slice of the bytes of a range. -/
theorem Memory.bytes_slice (m : Memory) (a : Nat) {n o k : Nat} (h : o + k ≤ n) :
    m.bytes (a + o) k = ((m.bytes a n).drop o).take k := by
  apply List.ext_getElem
  · simp
    omega
  · intro i h1 h2
    simp [Memory.bytes, Nat.add_assoc]

/-- A slice of stored bytes. -/
theorem Memory.bytes_store_slice (m : Memory) (a : Nat) {n o k : Nat} {bs : List Byte} (h : o + k ≤ bs.length)
    (hn : bs.length ≤ n) : (m.store a n bs).bytes (a + o) k = (bs.drop o).take k := by
  rw [Memory.bytes_slice _ _ h, Memory.bytes_store_self _ _ _ _ hn]

/-- Item `n` of a list of blocks of `c` items each. -/
theorem flatMap_block {α β : Type} {f : α → List β} {c : Nat} :
    ∀ {l : List α} {n : Nat} {x : α}, (∀ y ∈ l, (f y).length = c) → l[n]? = some x →
      ((l.flatMap f).drop (c * n)).take c = f x
  | [], _, _, _, h => by simp at h
  | a :: l, 0, x, hf, h => by
    obtain rfl : a = x := by simpa using h
    simp [← hf a (by simp)]
  | a :: l, n + 1, x, hf, h => by
    have ha := hf a (by simp)
    rw [List.flatMap_cons, Nat.mul_add, Nat.mul_one, Nat.add_comm, ← List.drop_drop, ← ha, List.drop_left, ha]
    exact flatMap_block (fun y hy => hf y (by simp [hy])) (by simpa using h)

/-! ## The stored table -/

section
variable {e : Engine} {es : List SectorEntry} (hlen : es.length ≤ maxSectors)
  (hpay : ∀ x ∈ es, x.payload.length ≤ 512)
include hlen

/-- Entry `n` of SECT (R52). -/
theorem storeTable_entry {n : Nat} {x : SectorEntry} (hx : es[n]? = some x) :
    (storeTable e es).mem.bytes (sectBase + 32 * n) 32 = entryBytes x := by
  obtain ⟨hn, -⟩ := List.getElem?_eq_some_iff.1 hx
  have hb := window_bases
  have hm : maxSectors = 16 := rfl
  rw [storeTable_mem, Memory.bytes_store_outside _ _ _ _ _ _ (.inl (by omega)),
    Memory.bytes_store_slice _ _ (by rw [tableBytes_length]; omega) (by rw [tableBytes_length]; omega)]
  exact flatMap_block (fun y _ => entryBytes_length y) hx

include hpay

/-- Slot `n` of PBUF (R53). -/
theorem storeTable_slot {n : Nat} {x : SectorEntry} (hx : es[n]? = some x) :
    (storeTable e es).mem.bytes (pbufBase + 512 * n) 512 = padTo 512 x.payload := by
  obtain ⟨hn, -⟩ := List.getElem?_eq_some_iff.1 hx
  have hm : maxSectors = 16 := rfl
  have hs := slotBytes_length es hpay
  rw [storeTable_mem, Memory.bytes_store_slice _ _ (by omega) (by omega)]
  refine flatMap_block (fun y hy => ?_) hx
  have := hpay y hy
  simp [padTo]
  omega

end

/-! ## The words of an entry -/

theorem wordOfBytes_wordBytes (w : Word) : wordOfBytes (wordBytes w) = w := by
  apply BitVec.eq_of_getLsbD_eq
  intro i hi
  simp [wordOfBytes, wordBytes]
  interval_cases i <;> simp

/-- The word at offset `k` of an entry is that of the entry's four bytes from `k` on. -/
theorem wordOfBytes_entry {m : Memory} {a k : Nat} {x : SectorEntry} {w : Word} (h : m.bytes a 32 = entryBytes x)
    (hk : k + 4 ≤ 32) (hw : ((entryBytes x).drop k).take 4 = wordBytes w) :
    wordOfBytes (m.bytes (a + k) 4) = w := by
  rw [Memory.bytes_slice _ _ hk, h, hw, wordOfBytes_wordBytes]

theorem sstOf_fields (st : SectorStatus) :
    (sstOf st).extractLsb' 0 8 = st.code ∧ ((sstOf st).getLsbD 8 = true ↔ st = .ok) ∧
      (sstOf st).extractLsb' 9 23 = 0 := by
  cases st <;> decide

/-- The table that a scan stores holds its entries in the order found (R52, R53). -/
theorem storeTable_entryStored {e : Engine} {es : List SectorEntry} (hlen : es.length ≤ maxSectors)
    (hpay : ∀ x ∈ es, x.payload.length ≤ 512) {n : Nat} {x : SectorEntry} (hx : es[n]? = some x) :
    EntryStored (storeTable e es).mem n x := by
  have he := storeTable_entry (e := e) hlen hx
  obtain ⟨hcode, hvalid, hres⟩ := sstOf_fields x.status
  have hsst := wordOfBytes_entry (k := 0x10) (w := sstOf x.status) he (by omega) rfl
  have hword : ∀ {k w}, k + 4 ≤ 32 → ((entryBytes x).drop k).take 4 = wordBytes w → _ := wordOfBytes_entry he
  refine ⟨hword (by omega) rfl, hword (by omega) rfl, hword (by omega) rfl, hword (by omega) rfl, ?_, ?_, ?_,
    hword (by omega) rfl, hword (by omega) rfl, hword (by omega) rfl, storeTable_slot hlen hpay hx⟩
  · exact (congrArg (·.extractLsb' 0 8) hsst).trans hcode
  · exact (congrArg (·.getLsbD 8 = true) hsst).to_iff.trans hvalid
  · exact (congrArg (·.extractLsb' 9 23) hsst).trans hres

/-- After the entries the table holds zeros (R52, R53). -/
theorem storeTable_zeroFrom {e : Engine} {es : List SectorEntry} (hpay : ∀ x ∈ es, x.payload.length ≤ 512) :
    TableZeroFrom (storeTable e es).mem es.length := by
  have hb := window_bases
  constructor
  · intro k hk hn
    rw [storeTable_mem, Memory.read_store_outside _ _ _ _ _ (.inl (by omega)),
      Memory.read_store_inside _ _ _ _ _ (by omega) (by omega), tableBytes_length, if_neg (by omega),
      Memory.unlisted_of_le (by omega)]
  · intro k hk hn
    rw [storeTable_mem, Memory.read_store_inside _ _ _ _ _ (by omega) (by omega), slotBytes_length es hpay,
      if_neg (by omega), Memory.unlisted_of_le (by omega)]

/-! ## The invariant of the table -/

/-- Byte `k` of a range. -/
theorem Memory.getD_bytes (m : Memory) (a : Nat) {n k : Nat} (h : k < n) :
    (m.bytes a n).getD k 0 = (m.read (a + k)).getD 0 := by
  simp [Memory.bytes, List.getD_eq_getElem?_getD, h]

/-- The bytes of an entry that the invariant speaks of: the sector number, the status, PVALID and the reserved
bytes (R52, R291). -/
theorem entryBytes_fields (x : SectorEntry) :
    (entryBytes x).getD 0x0A 0 = x.field.sector ∧ (entryBytes x).getD 0x10 0 = x.status.code ∧
      (entryBytes x).getD 0x11 0 = (if x.status = .ok then 1 else 0) ∧
      ∀ k < 32, 0x12 ≤ k → (entryBytes x).getD k 0 = 0 := by
  refine ⟨?_, ?_, ?_, fun k h1 h2 => ?_⟩
  · show (x.field.volSide ++ x.field.sector ++ x.field.track).extractLsb' 16 8 = x.field.sector
    apply BitVec.eq_of_getLsbD_eq
    intro i hi
    rw [BitVec.getLsbD_extractLsb', BitVec.getLsbD_append, BitVec.getLsbD_append]
    simp [hi]
  · exact (sstOf_fields x.status).1
  · show (sstOf x.status).extractLsb' 8 8 = _
    cases x.status <;> decide
  · by_cases h : k < 0x14
    · have hs : ∀ st, (sstOf st).extractLsb' 16 8 = 0 ∧ (sstOf st).extractLsb' 24 8 = 0 := by
        intro st
        cases st <;> decide
      obtain rfl | rfl : k = 0x12 ∨ k = 0x13 := by omega
      · exact (hs x.status).1
      · exact (hs x.status).2
    · replace h2 : 0x14 ≤ k := by omega
      clear h
      interval_cases k <;> rfl

theorem SectorStatus.code_eq_zero {st : SectorStatus} : st.code = 0 ↔ st = .ok := by
  cases st <;> decide

/-- Two engines agree on the table where they agree on SCOUNT, SECTFAIL, SECT and PBUF. -/
theorem TableOk.congr {e e' : Engine} (hc : e'.scount = e.scount) (hf : e'.sectFail = e.sectFail)
    (hm : ∀ x, sectBase ≤ x → x < wbufBase → e'.mem.read x = e.mem.read x) (h : TableOk e) : TableOk e' := by
  have hb := window_bases
  have hmax : maxSectors = 16 := rfl
  have hs : ∀ n < maxSectors, ∀ k < 32, sectByte e' n k = sectByte e n k := fun n hn k hk =>
    congrArg (·.getD 0) (hm _ (by omega) (by omega))
  have hp : ∀ n < maxSectors, ∀ k < 512, slotByte e' n k = slotByte e n k := fun n hn k hk =>
    congrArg (·.getD 0) (hm _ (by omega) (by omega))
  obtain ⟨h1, h2, h3, h4, h5, h6, h7⟩ := h
  unfold TableOk
  rw [hc, hf]
  refine ⟨h1, fun n hn h k hk => ?_, fun n hn k hk h => ?_, fun n hn => ?_, fun n hn h k hk => ?_,
    fun m n hmn hn => ?_, ?_⟩
  · rw [hs n hn k hk]
    exact h2 n hn h k hk
  · rw [hs n hn k hk]
    exact h3 n hn k hk h
  · rw [hs n (by omega) _ (by omega), hs n (by omega) _ (by omega)]
    exact h4 n hn
  · rw [hs n hn _ (by omega)] at h
    rw [hp n hn k hk]
    exact h5 n hn h k hk
  · rw [hs m (by omega) _ (by omega), hs n (by omega) _ (by omega)]
    exact h6 m n hmn hn
  · rw [h7]
    refine exists_congr fun n => and_congr_right fun hn => ?_
    rw [hs n (by omega) _ (by omega)]

section
variable {P : Params} {es : List SectorEntry} (e : Engine) (c : StopCode) (hP : P.Ok) (hes : Recordable P es)
include hP hes

theorem endScan_scount_toNat : (endScan e (es, c)).scount.toNat = es.length := by
  have hlen := hes.length hP
  have hmax : maxSectors = 16 := rfl
  rw [endScan_scount, BitVec.toNat_ofNat, Nat.mod_eq_of_lt (by show es.length < 2 ^ 32; omega)]

/-- Byte `k` of a stored entry. -/
theorem sectByte_endScan {n : Nat} (hn : n < es.length) {k : Nat} (hk : k < 32) :
    sectByte (endScan e (es, c)) n k = (entryBytes es[n]).getD k 0 :=
  (Memory.getD_bytes _ _ hk).symm.trans
    (congrArg (·.getD k 0) (storeTable_entry (hes.length hP) (List.getElem?_eq_getElem hn)))

/-- Byte `k` of a stored slot. -/
theorem slotByte_endScan {n : Nat} (hn : n < es.length) {k : Nat} (hk : k < 512) :
    slotByte (endScan e (es, c)) n k = (padTo 512 es[n].payload).getD k 0 :=
  (Memory.getD_bytes _ _ hk).symm.trans (congrArg (·.getD k 0)
    (storeTable_slot (hes.length hP) (fun x hx => (hes.payload x hx).1) (List.getElem?_eq_getElem hn)))

omit hP

theorem sectByte_endScan_past {n : Nat} (hn : n < maxSectors) (h : es.length ≤ n) {k : Nat} (hk : k < 32) :
    sectByte (endScan e (es, c)) n k = 0 := by
  have hmax : maxSectors = 16 := rfl
  have hz := (storeTable_zeroFrom (e := e) fun x hx => (hes.payload x hx).1).1 (32 * n + k) (by omega) (by omega)
  rw [← Nat.add_assoc] at hz
  exact congrArg (·.getD 0) hz

theorem slotByte_endScan_past {n : Nat} (hn : n < maxSectors) (h : es.length ≤ n) {k : Nat} (hk : k < 512) :
    slotByte (endScan e (es, c)) n k = 0 := by
  have hmax : maxSectors = 16 := rfl
  have hz := (storeTable_zeroFrom (e := e) fun x hx => (hes.payload x hx).1).2 (512 * n + k) (by omega) (by omega)
  rw [← Nat.add_assoc] at hz
  exact congrArg (·.getD 0) hz

include hP

/-- SECTFAIL says that some stored entry failed (R58). -/
theorem endScan_sectFail_iff :
    (endScan e (es, c)).sectFail = true ↔ ∃ n < es.length, sectByte (endScan e (es, c)) n 0x10 ≠ 0 := by
  have hbyte : ∀ n (hn : n < es.length), sectByte (endScan e (es, c)) n 0x10 ≠ 0 ↔ es[n].status ≠ .ok := by
    intro n hn
    rw [sectByte_endScan e c hP hes hn (by omega), (entryBytes_fields _).2.1, ne_eq, SectorStatus.code_eq_zero]
  rw [endScan_sectFail, List.any_eq_true]
  constructor
  · rintro ⟨x, hx, hst⟩
    obtain ⟨n, hn, rfl⟩ := List.getElem_of_mem hx
    exact ⟨n, hn, (hbyte n hn).2 (by simpa using hst)⟩
  · rintro ⟨n, hn, hst⟩
    exact ⟨es[n], List.getElem_mem hn, by simpa using (hbyte n hn).1 hst⟩

/-- A slot whose entry has no PVALID is all zero (R53, R291). -/
theorem slotByte_endScan_of_invalid {n : Nat} (hn : n < maxSectors) (h : sectByte (endScan e (es, c)) n 0x11 = 0)
    {k : Nat} (hk : k < 512) : slotByte (endScan e (es, c)) n k = 0 := by
  rcases Nat.lt_or_ge n es.length with hlt | hge
  · obtain ⟨-, -, hvalid, -⟩ := entryBytes_fields es[n]
    rw [sectByte_endScan e c hP hes hlt (by omega), hvalid] at h
    have hst : es[n].status ≠ .ok := fun hok => by simp [hok] at h
    rw [slotByte_endScan e c hP hes hlt hk, (hes.payload _ (List.getElem_mem hlt)).2 hst, padTo, List.nil_append,
      List.getD_eq_getElem?_getD, List.getElem?_replicate, if_pos (by exact hk)]
    rfl
  · exact slotByte_endScan_past e c hes hn hge hk

/-- A stored table agrees with SCOUNT and SECTFAIL (R44, R58, R180). -/
theorem endScan_tableOk : TableOk (endScan e (es, c)) := by
  have hlen := hes.length hP
  unfold TableOk
  rw [endScan_scount_toNat e c hP hes]
  refine ⟨hlen, fun n hn h k hk => sectByte_endScan_past e c hes hn h hk, fun n hn k hk h => ?_, fun n hn => ?_,
    fun n hn h k hk => slotByte_endScan_of_invalid e c hP hes hn h hk, fun m n hmn hn => ?_,
    endScan_sectFail_iff e c hP hes⟩
  · rcases Nat.lt_or_ge n es.length with hlt | hge
    · rw [sectByte_endScan e c hP hes hlt hk]
      exact (entryBytes_fields _).2.2.2 k hk h
    · exact sectByte_endScan_past e c hes hn hge hk
  · obtain ⟨-, hcode, hvalid, -⟩ := entryBytes_fields es[n]
    rw [sectByte_endScan e c hP hes hn (by omega), sectByte_endScan e c hP hes hn (by omega), hcode, hvalid]
    simp only [SectorStatus.code_eq_zero]
  · rw [sectByte_endScan e c hP hes (n := m) (by omega) (by omega), sectByte_endScan e c hP hes hn (by omega),
      (entryBytes_fields _).1, (entryBytes_fields _).1]
    exact List.pairwise_iff_getElem.1 hes.sectors m n _ hn hmn

end

theorem tableOk_invariant {P : Params} (hP : P.Ok) : Invariant P TableOk where
  reset := by
    have hb := window_bases
    have hs : ∀ n k, sectByte Engine.reset n k = 0 := fun n k =>
      congrArg (·.getD 0) (Memory.unlisted_of_le (a := sectBase + 32 * n + k) (by omega))
    have hp : ∀ n k, slotByte Engine.reset n k = 0 := fun n k =>
      congrArg (·.getD 0) (Memory.unlisted_of_le (a := pbufBase + 512 * n + k) (by omega))
    have h0 : ∀ n, ¬n < Engine.reset.scount.toNat := fun n => Nat.not_lt_zero n
    exact ⟨Nat.zero_le _, fun _ _ _ _ _ => hs _ _, fun _ _ _ _ _ => hs _ _, fun n hn => absurd hn (h0 n),
      fun _ _ _ _ _ => hp _ _, fun _ n _ hn => absurd hn (h0 n), by simp [Engine.reset]⟩
  clearErr h := h
  raise _ h := h
  write {e e'} hw h := by
    have hb := window_bases
    have ht := hP.1.2
    cases hw with
    | registers hc =>
      show TableOk e'.core
      exact hc ▸ (h : TableOk e.core)
    | cursor pos revs hpos => exact h
    | bitcount v => exact h
    | decoded ys hr hys =>
      exact h.congr (e := e) rfl rfl fun x h _ => Memory.read_store_outside _ _ _ _ _ (.inr (by omega))
    | buffer w off bs hwr h1 h2 =>
      have hm : ∀ x, sectBase ≤ x → x < wbufBase → (e.mem.store off bs.length bs).read x = e.mem.read x :=
        fun x h3 h4 => Memory.read_store_outside _ _ _ _ _ (by
          rcases Window.writable_cases hwr with rfl | hbase
          · have : off + bs.length ≤ tbufBase + P.tbufBytes := h2
            omega
          · omega)
      unfold bufWrite
      split <;> exact h.congr (e := e) rfl rfl hm
    | table es c hes => exact endScan_tableOk e c hP hes

end Sys2Proof.Machine
end

section
/-! PROOFS. The statements about every step and every command: the invariants, the reset state, the stops and
ANYERR. -/

namespace Sys2Proof.Machine

open Sys2Proof.Certificates

/-- Settles O21: every write stores inside a window. -/
theorem stepKeepsMemoryCanonical : Obligations.StepKeepsMemoryCanonical :=
  fun s _ hs h => (memoryMapped_invariant s.params).step (p := fun P e => MemoryMapped P e.mem) hs h

/-- Settles O22: the cursor is moved by reads of the track, which end on it, and to 0. -/
theorem stepKeepsCursorOnTrack : Obligations.StepKeepsCursorOnTrack :=
  fun s _ hs h => (cursorOk_invariant s.params).step (p := fun _ => CursorOk) hs h

/-- Settles O23: a materialization makes the memo hold, a write to TBUF or BITCOUNT drops it, and every other write
leaves TBUF and DBUF. -/
theorem stepKeepsMemoCoherent : Obligations.StepKeepsMemoCoherent :=
  fun _ _ hP hs h => (memoOk_invariant hP).step (p := MemoOk) hs h

/-- Settles O24: a scan stores a table that agrees with SCOUNT and SECTFAIL, and every other write leaves SECT and
PBUF. -/
theorem stepKeepsSectorTable : Obligations.StepKeepsSectorTable :=
  fun _ _ hP hs h => (tableOk_invariant hP).step (p := fun _ => TableOk) hs h

/-- Settles O44, by the slices of a store. -/
theorem sectorTableLayout : Obligations.SectorTableLayout :=
  fun _ _ hlen hpay => ⟨fun _ _ hx => storeTable_entryStored hlen hpay hx, storeTable_zeroFrom hpay⟩

/-- The default parameters are legal (R9, R176, R219). -/
theorem defaultParams_ok : defaultParams.Ok := by
  refine ⟨by decide, fun n hn => ?_, by decide +kernel, by decide +kernel, by decide, by decide, by decide⟩
  have hv : defaultParams.spt35.toList = List.replicate 256 12 := by simp [defaultParams]
  rw [hv] at hn
  rw [List.eq_of_mem_replicate hn]
  decide

/-- Settles O20: the reset engine is where each invariant starts. -/
theorem resetIsConsistent : Obligations.ResetIsConsistent := by
  refine ⟨defaultParams_ok, fun e he => ?_⟩
  obtain rfl : e = Engine.reset := List.mem_singleton.1 he
  obtain ⟨hwf, hmap⟩ := (memoryMapped_invariant State.reset.params).reset
  exact ⟨hwf, hmap, (cursorOk_invariant State.reset.params).reset, (memoOk_invariant defaultParams_ok).reset,
    (tableOk_invariant defaultParams_ok).reset, fun h => absurd rfl h⟩

/-- Settles O8: a fault of a command is that of an unwritten track bit. -/
theorem commandsStopOnlyOnUnwrittenTrack : Obligations.CommandsStopOnlyOnUnwrittenTrack := by
  refine fun i s hc => ⟨exec_not_refused i s, fun f hf => ?_⟩
  obtain ⟨j, hj, hb⟩ := exec_fault hf hc
  obtain ⟨hnone, rfl⟩ := trackBit_error.1 hb
  have hj : j < s.cur.bitcount.toNat := hj
  exact ⟨j / 8, rfl, by omega, hnone⟩

/-! ## ANYERR -/

/-- What a command does to ANYERR (R57, R292). -/
theorem exec_anyErr {i : Instr} {s t : State} (h : exec i s = .next t) :
    t.cur.anyErr = (s.cur.anyErr || decide (t.cur.err ≠ .noError)) := by
  obtain ⟨e, hw, he | ⟨c, hc, he⟩⟩ := exec_writes h
  · obtain ⟨herr, hany⟩ := hw.err_anyErr
    simp [he, herr, hany]
  · simp [he, hc]

/-- No access but reset clears ANYERR (R57). -/
theorem EngineChange.anyErr {P : Params} {e e' : Engine} (h : EngineChange P e e') (he : e.anyErr = true) :
    e'.anyErr = true := by
  cases h with
  | kept => exact he
  | host hw => exact hw.err_anyErr.2.trans he
  | completed hw => exact hw.err_anyErr.2.trans he
  | failed _ _ => rfl

/-- Settles O25: an error sets ANYERR, and every other write leaves it. -/
theorem anyErrIsSticky : Obligations.AnyErrIsSticky := by
  refine ⟨rfl, fun i s t h => exec_anyErr h, fun s t op ops k e e' hi hop h he he' hany => ?_,
    fun s t ops hi h e he => ?_⟩
  · rcases (step_engines h).2 with ⟨⟨ops', hr⟩, -⟩ | ⟨-, hc⟩
    · exact absurd (List.cons.inj (hi.symm.trans hr)).1 hop
    · obtain ⟨x, hx, hch⟩ := hc k e' he'
      obtain rfl := Option.some.inj (hx.symm.trans he)
      exact hch.anyErr hany
  · rcases (step_engines h).2 with ⟨-, hr⟩ | ⟨hno, -⟩
    · rw [hr e he]
      rfl
    · exact absurd hi (hno ops)

end Sys2Proof.Machine
end

section
/-! PROOFS. The register window: which engine an access addresses, what a read of a register returns and what a write
stores (R33, R81, R82, R84). -/

namespace Sys2Proof.Machine

/-! ## The addressed engine -/

/-- Every engine that exists can be addressed (R81). -/
theorem State.focus_of_lt {s : State} {k : Nat} (h : k < s.engines.length) : ∃ s', s.focus k = some s' := by
  cases hf : s.focus k with
  | none => exact absurd (State.focus_none hf) (by omega)
  | some s' => exact ⟨s', rfl⟩

/-- Addressing an engine does not look at the pending accesses. -/
theorem State.focus_setInbox {s s' : State} {k : Nat} (ops : List HostOp) (h : s.focus k = some s') :
    State.focus { s with inbox := ops } k = some { s' with inbox := ops } := by
  unfold State.focus at h ⊢
  split at h
  · cases h
  · rename_i e he
    obtain rfl := Option.some.inj h
    have he' : (State.engines { s with inbox := ops })[k]? = some e := he
    rw [he']
    rfl

/-! ## Accesses of the register window -/

/-- An aligned access of a register's offset (R82). -/
abbrev RegOffset (off : Nat) : Prop := off < regWindow ∧ off % 4 = 0

theorem RegOffset.split {off : Nat} (h : RegOffset off) (k : Nat) :
    engineAddr k off / engineStride = k ∧ engineAddr k off % engineStride = off :=
  engineAddr_split k (Nat.lt_trans h.1 (by decide))

theorem RegOffset.access {off : Nat} (h : RegOffset off) : regAccess 4 off = true := by
  simp [regAccess, h.1, h.2]

/-- A host read of a register (R33). -/
theorem hostRead_register {s : State} {k off : Nat} {e : Engine} (he : s.engines[k]? = some e)
    (h : RegOffset off) : hostRead s 4 (engineAddr k off) = some (regRead s.params e off) := by
  obtain ⟨hk, hoff⟩ := h.split k
  unfold hostRead
  simp only [hk, hoff, he, h.access, if_true]

/-- A host write of a register: CMD issues a command, the others store (R33, R34). -/
theorem hostStep_writeRegister {s s' : State} {k off : Nat} (v : Word) (hf : s.focus k = some s')
    (h : RegOffset off) :
    hostStep s (.write 4 (engineAddr k off) v) =
      if off = 0 then issue s' v else .next { s' with cur := regWrite s'.cur off v } := by
  obtain ⟨hk, hoff⟩ := h.split k
  simp only [hostStep, hostWrite, hk, hoff, hf, h.access, if_true]

/-- A read of a register of the engine that a write addressed. -/
theorem hostRead_addressed {s s' : State} {k off : Nat} {e : Engine} (hf : s.focus k = some s') (h : RegOffset off) :
    hostRead { s' with cur := e } 4 (engineAddr k off) = some (regRead s'.params e off) := by
  obtain ⟨-, hk, -⟩ := State.focus_some hf
  exact hostRead_register (hk ▸ State.engines_cur { s' with cur := e }) h

/-! ## Packed registers -/

/-- STATUS bit by bit (R35). -/
theorem statusWord_bits (e : Engine) :
    (statusWord e).getLsbD 0 = false ∧ (statusWord e).getLsbD 1 = e.found ∧ (statusWord e).getLsbD 2 = e.dvalid ∧
      (statusWord e).getLsbD 3 = e.anyErr ∧ (statusWord e).getLsbD 4 = e.sectFail := by
  simp only [statusWord, BitVec.getLsbD_append]
  simp

/-- ERR, STOP and the reserved fields of STATUS (R35). -/
theorem statusWord_fields (e : Engine) :
    (statusWord e).extractLsb' 5 3 = 0 ∧ (statusWord e).extractLsb' 8 8 = e.err.code ∧
      (statusWord e).extractLsb' 16 4 = e.stop.code ∧ (statusWord e).extractLsb' 20 12 = 0 := by
  refine ⟨?_, ?_, ?_, ?_⟩ <;>
  · apply BitVec.eq_of_getLsbD_eq
    intro i hi
    simp only [statusWord, BitVec.getLsbD_extractLsb', BitVec.getLsbD_append]
    interval_cases i <;> simp

/-- CFG's fields (R38). -/
theorem cfgWord_fields (e : Engine) :
    (cfgWord e).extractLsb' 0 4 = e.cfgVersion ∧ (cfgWord e).extractLsb' 4 4 = e.cfgDiskType ∧
      (cfgWord e).extractLsb' 8 4 = e.cfgBootFmt ∧ (cfgWord e).extractLsb' 13 19 = 0 := by
  refine ⟨?_, ?_, ?_, ?_⟩ <;>
  · apply BitVec.eq_of_getLsbD_eq
    intro i hi
    simp only [cfgWord, BitVec.getLsbD_extractLsb', BitVec.getLsbD_append]
    interval_cases i <;> simp

theorem cfgWord_a35pol (e : Engine) : (cfgWord e).getLsbD 12 = e.cfgA35pol := by
  simp only [cfgWord, BitVec.getLsbD_append]
  simp

/-- CFG reads back the bits written, the reserved ones dropped (R38). -/
theorem cfgWord_writeCfg (e : Engine) (v : Word) : cfgWord (writeCfg e v) = v &&& 0x1FFF := by
  apply BitVec.eq_of_getLsbD_eq
  intro i hi
  simp only [cfgWord, writeCfg, BitVec.getLsbD_and, BitVec.getLsbD_append]
  interval_cases i <;> simp

/-- TRKIDX reads back its eight bits (R40). -/
theorem trkidx_readBack (v : Word) : (v.setWidth 8).setWidth 32 = v &&& 0xFF := by
  apply BitVec.eq_of_getLsbD_eq
  intro i hi
  simp only [BitVec.getLsbD_and, BitVec.getLsbD_setWidth]
  interval_cases i <;> simp

/-! ## The obligations -/

/-- Settles O6: the access is a write to CMD of the engine that it addresses. -/
theorem stepRunsDecodedCommand : Obligations.StepRunsDecodedCommand := by
  have hrun : ∀ (s s' : State) (k : Nat) (w : Word) (i : Instr) (ops : List HostOp),
      s.inbox = .write 4 (engineAddr k 0) w :: ops → s.focus k = some s' → decode w = .ok i →
        step s = exec i { s' with inbox := ops } := by
    intro s s' k w i ops hi hf hd
    unfold step
    rw [hi]
    simp only []
    rw [hostStep_writeRegister w (State.focus_setInbox ops hf) ⟨by decide, rfl⟩, if_pos rfl, issue, hd]
  refine ⟨hrun, fun s nbits w i hd => ?_⟩
  exact hrun (s.withFetchWord nbits w) (s.withFetchWord nbits w) s.below.length _ i s.inbox rfl
    (State.focus_self _) hd

/-- Settles O13: each register's read is its field, or its packed word. -/
theorem statusReadsItsFields : Obligations.StatusReadsItsFields := by
  refine ⟨fun s k e he => ?_, fun s k e he => ?_, fun s k e he r hr => ?_, rfl, rfl, rfl⟩
  · obtain ⟨h0, h1, h2, h3, h4⟩ := statusWord_bits e
    obtain ⟨h5, h8, h16, h20⟩ := statusWord_fields e
    exact ⟨statusWord e, hostRead_register he ⟨by decide, rfl⟩, h0, h1, h2, h3, h4, h5, h8, h16, h20⟩
  · obtain ⟨h0, h4, h8, h13⟩ := cfgWord_fields e
    exact ⟨cfgWord e, hostRead_register he ⟨by decide, rfl⟩, h0, h4, h8, cfgWord_a35pol e, h13⟩
  · have hreg : RegOffset r.1 ∧ regRead s.params e r.1 = r.2 := by
      revert r
      simp only [List.forall_mem_cons, List.not_mem_nil, false_imp_iff, implies_true, and_true]
      simp only [RegOffset, regWindow, regRead, and_true]
      rcases e.variant with _ | _ | _ | _ <;> decide
    exact (hostRead_register he hreg.1).trans (congrArg some hreg.2)

/-- Settles O14: a register write goes to the engine it addresses, and stores the register's bits. -/
theorem registerWritesReadBack : Obligations.RegisterWritesReadBack := by
  refine ⟨fun s k hk => ?_, fun s s' k v hf => ⟨?_, ?_, ?_, fun off hoff => ?_⟩⟩
  · obtain ⟨s', hf⟩ := State.focus_of_lt hk
    obtain ⟨he, hb, -, hp, hi, hr, hn⟩ := State.focus_some hf
    exact ⟨s', hf, he, hb, hp, hi, hr, hn⟩
  · exact ⟨_, hostStep_writeRegister v hf ⟨by decide, rfl⟩, rfl, hostRead_addressed hf ⟨by decide, rfl⟩⟩
  · refine ⟨_, hostStep_writeRegister v hf ⟨by decide, rfl⟩, rfl, ?_⟩
    exact (hostRead_addressed hf ⟨by decide, rfl⟩).trans (congrArg some (cfgWord_writeCfg _ v))
  · refine ⟨_, hostStep_writeRegister v hf ⟨by decide, rfl⟩, ?_, ?_⟩
    · show _ = { s' with cur := { s'.cur with trkidx := v.extractLsb' 0 8 } }
      rw [← BitVec.setWidth_eq_extractLsb' (by omega)]
      rfl
    · exact (hostRead_addressed hf ⟨by decide, rfl⟩).trans (congrArg some (trkidx_readBack v))
  · have hreg : RegOffset off ∧ off ≠ 0 ∧ regWrite s'.cur off v = s'.cur := by
      revert off
      simp [RegOffset, regWindow, regWrite]
    rw [hostStep_writeRegister v hf hreg.1, if_neg hreg.2.1, hreg.2.2]

/-- Settles O15: the write to BITCOUNT is a register write of the addressed engine. -/
theorem bitcountWriteResetsCursor : Obligations.BitcountWriteResetsCursor :=
  fun _ _ _ v hf => hostStep_writeRegister v hf ⟨by decide, rfl⟩

/-- Settles O18: an engine after reset holds zeros but for A35POL, and lists no byte. -/
theorem resetValues : Obligations.ResetValues := by
  have hread : ∀ off, RegOffset off →
      hostRead State.reset 4 off = some (regRead defaultParams Engine.reset off) := by
    intro off h
    have := hostRead_register (s := State.reset) (k := 0) rfl h
    rwa [show engineAddr 0 off = off by simp [engineAddr]] at this
  refine ⟨fun off hoff => ?_, hread 0x10 ⟨by decide, rfl⟩, hread 0x34 ⟨by decide, rfl⟩, rfl, rfl,
    fun w hw k hk => ?_⟩
  · have hreg : RegOffset off ∧ regRead defaultParams Engine.reset off = 0 := by
      revert off
      decide
    exact (hread off hreg.1).trans (congrArg some hreg.2)
  · refine Memory.unlisted_of_le (Nat.le_trans ?_ (Nat.le_add_right _ _))
    cases w with
    | tbuf => exact absurd rfl hw
    | _ => decide

end Sys2Proof.Machine
end

section
/-! PROOFS. The TrackCursor's commands and SELV: what EnsureDBUF does to each kind of track, what a search finds, and
the outcomes of NBIT, NBYTE, MAT, FIND and SELV (R141 to R148, R171, R172). -/

namespace Sys2Proof.Machine

open Sys2Proof.Certificates

/-! ## The end of a command -/

theorem State.command_faults {s : State} {body : Params → Engine → CmdEnd} {f : Fault}
    (h : body s.params s.cur.clearErr = .fault f) : s.command body = .fault f := by
  rw [State.command, h]
  rfl

/-- Pseudocode that raises an error before it writes. -/
theorem State.command_endsInError {s : State} {body : Params → Engine → CmdEnd} {c : ErrCode}
    (h : body s.params s.cur.clearErr = .raised c s.cur.clearErr) : EndsInError (s.command body) s c :=
  (State.command_raised h).trans rfl

/-! ## TrackReady -/

theorem trackReady_noTrack {P : Params} {e : Engine} (h : e.bitcount = 0) : trackReady P e = some .noTrack :=
  if_pos h

theorem trackReady_overflow {P : Params} {e : Engine} (h : 8 * P.tbufBytes < e.bitcount.toNat) :
    trackReady P e = some .trackOverflow := by
  have h0 : e.bitcount ≠ 0 := fun h0 => by simp [h0] at h
  rw [trackReady, if_neg h0, if_pos h]

theorem trackReady_ok {P : Params} {e : Engine} (h0 : e.bitcount ≠ 0) (h : e.bitcount.toNat ≤ 8 * P.tbufBytes) :
    trackReady P e = none := by
  rw [trackReady, if_neg h0, if_neg (by omega)]

/-! ## Reads of the track -/

theorem bitcount_pos {w : Word} (h : w ≠ 0) : 0 < w.toNat :=
  Nat.pos_of_ne_zero fun h0 => h (BitVec.eq_of_toNat_eq (by simpa using h0))

theorem trackBit_unwritten {m : Memory} {i : Nat} (h : m.read (tbufBase + i / 8) = none) :
    trackBit m i = .error (.tbufUnwritten (i / 8)) :=
  trackBit_error.2 ⟨h, rfl⟩

theorem trackBit_written {m : Memory} {i : Nat} {b : Byte} (h : m.read (tbufBase + i / 8) = some b) :
    trackBit m i = .ok (b.getLsbD (7 - i % 8)) := by
  rw [trackBit, h]

/-- A self-sync read stops on its first bit where the bit's byte is unwritten (R50). -/
theorem syncByte_unwritten {m : Memory} {bc pos : Nat} (hbc : 0 < bc) (h : m.read (tbufBase + pos / 8) = none) :
    syncByte m bc pos = .fault (.tbufUnwritten (pos / 8)) := by
  obtain ⟨n, rfl⟩ : ∃ n, bc = n + 1 := ⟨bc - 1, by omega⟩
  rw [syncByte, syncSkip, nextBit_error.2 (trackBit_unwritten h)]

/-- An array of an all-zero track raises NoFlux at its first byte (R143). -/
theorem syncBytes_noFlux {m : Memory} {bc n : Nat} (hbc : 0 < bc) (hz : ∀ i < bc, trackBit m i = .ok false) :
    syncBytes m bc (n + 1) 0 = .error (.raise .noFlux) := by
  have h := syncByte_noFlux (u := 0) hbc hz
  rw [Nat.zero_mod] at h
  rw [syncBytes, h]

/-! ## EnsureDBUF -/

theorem decodedLength_eq_succ (bc : Nat) : decodedLength bc = ((bc + 7) / 8 + 599) + 1 := by
  unfold decodedLength guardBytes
  omega

/-- EnsureDBUF raises the error that `DbufError` says (R147). -/
theorem ensureDbuf_of_dbufError {P : Params} {e : Engine} {c : ErrCode} (h : DbufError P e c) :
    ensureDbuf P e = .error (.raise c) := by
  obtain ⟨hd, ⟨rfl, h0⟩ | ⟨rfl, ho⟩ | ⟨rfl, hl, hz⟩⟩ := h <;> unfold ensureDbuf <;> rw [hd]
  · rw [trackReady_noTrack h0]
    rfl
  · rw [trackReady_overflow ho]
    rfl
  · rw [hl.ready, decodedLength_eq_succ, syncBytes_noFlux hl.pos hz]
    rfl

/-- EnsureDBUF stops on the track's first byte where it is unwritten (R50, R143). -/
theorem ensureDbuf_unwritten {P : Params} {e : Engine} (hd : e.dvalid = false) (h0 : e.bitcount ≠ 0)
    (hle : e.bitcount.toNat ≤ 8 * P.tbufBytes) (hm : e.mem.read tbufBase = none) :
    ensureDbuf P e = .error (.fault (.tbufUnwritten 0)) := by
  have hs := syncByte_unwritten (pos := 0) (bitcount_pos h0) hm
  unfold ensureDbuf
  rw [hd, trackReady_ok h0 hle, decodedLength_eq_succ, syncBytes, hs]
  rfl

/-- EnsureDBUF writes the memo's registers and the memory alone (R143). -/
theorem ensureDbuf_frame {P : Params} {e e' : Engine} (h : ensureDbuf P e = .ok e') :
    ∃ v l m, e' = { e with dvalid := v, dlen := l, mem := m } := by
  rcases ensureDbuf_ok h with ⟨-, rfl⟩ | ⟨-, -, ys, -, rfl⟩
  · exact ⟨_, _, _, rfl⟩
  · exact ⟨_, _, _, rfl⟩

/-- EnsureDBUF leaves the operands of the commands (R37, R38, R40). -/
theorem ensureDbuf_operands {P : Params} {e e' : Engine} (h : ensureDbuf P e = .ok e') :
    e'.opa = e.opa ∧ e'.cfgVersion = e.cfgVersion ∧ e'.cfgDiskType = e.cfgDiskType ∧
      e'.cfgBootFmt = e.cfgBootFmt ∧ e'.cfgA35pol = e.cfgA35pol ∧ e'.trkidx = e.trkidx := by
  obtain ⟨v, l, m, rfl⟩ := ensureDbuf_frame h
  exact ⟨rfl, rfl, rfl, rfl, rfl, rfl⟩

/-- Where EnsureDBUF goes through the memo holds. -/
theorem ensureDbuf_dvalid {P : Params} {e e' : Engine} (h : ensureDbuf P e = .ok e') : e'.dvalid = true := by
  rcases ensureDbuf_ok h with ⟨hd, rfl⟩ | ⟨-, -, ys, -, rfl⟩
  · exact hd
  · rfl

/-- A command over DBUF raises MAT's error where the array cannot be made (R147). -/
theorem command_dbufError {s : State} {rest : Params → Engine → CmdEnd} {c : ErrCode}
    (h : DbufError s.params s.cur c) : EndsInError (s.command fun P e => withDbuf P e (rest P)) s c := by
  refine State.command_endsInError ?_
  rw [withDbuf, ensureDbuf_of_dbufError (e := s.cur.clearErr) h]

/-- A command over DBUF goes on with the engine that EnsureDBUF leaves (R147). -/
theorem command_dbufOk {s : State} {e : Engine} {rest : Params → Engine → CmdEnd}
    (h : ensureDbuf s.params s.cur.clearErr = .ok e) :
    s.command (fun P e => withDbuf P e (rest P)) = s.finish (rest s.params e) := by
  rw [State.command, withDbuf_ok h]

/-! ## Searches -/

theorem drop_eq_cons {α : Type} {d rest : List α} {b : α} {o : Nat} (h : d.drop o = b :: rest) :
    d.drop (o + 1) = rest := by
  rw [← List.drop_drop, h]
  rfl

/-- FindFn finds the first occurrence (R148). -/
theorem findFn_some {d : List Byte} {s o : Nat} {p : Pattern} (h : findFn d s p = some o) :
    s ≤ o ∧ OccursAt p d o ∧ ∀ x, s ≤ x → x < o → ¬OccursAt p d x := by
  suffices H : ∀ rest s, d.drop s = rest → findFrom p s rest = some o →
      s ≤ o ∧ OccursAt p d o ∧ ∀ x, s ≤ x → x < o → ¬OccursAt p d x from H _ s rfl h
  intro rest
  induction rest with
  | nil => intro s _ h; cases h
  | cons b rest ih =>
    intro s hs h
    rw [findFrom, ← hs] at h
    split at h
    · rename_i hp
      obtain rfl := Option.some.inj h
      exact ⟨Nat.le_refl _, (patternAtHead_drop p d s).1 hp, fun x h1 h2 => by omega⟩
    · rename_i hp
      obtain ⟨hle, hat, hno⟩ := ih (s + 1) (drop_eq_cons hs) h
      refine ⟨by omega, hat, fun x h1 h2 => ?_⟩
      by_cases hx : x = s
      · subst hx
        exact fun hx => hp ((patternAtHead_drop p d x).2 hx)
      · exact hno x (by omega) h2

/-- FindFn finds nothing where there is no occurrence (R148). -/
theorem findFn_none {d : List Byte} {s : Nat} {p : Pattern} (h : findFn d s p = none) :
    ∀ o, s ≤ o → ¬OccursAt p d o := by
  suffices H : ∀ rest s, d.drop s = rest → findFrom p s rest = none → ∀ o, s ≤ o → ¬OccursAt p d o from
    H _ s rfl h
  intro rest
  induction rest with
  | nil =>
    intro s hs _ o ho hat
    have := hat.lt
    have := List.drop_eq_nil_iff.1 hs
    omega
  | cons b rest ih =>
    intro s hs h o ho
    rw [findFrom, ← hs] at h
    split at h
    · cases h
    · rename_i hp
      by_cases ho' : o = s
      · subst ho'
        exact fun hat => hp ((patternAtHead_drop p d o).2 hat)
      · exact ih (s + 1) (drop_eq_cons hs) h o (by omega)

/-- A pattern that occurs is found. -/
theorem findFn_of_occurs {d : List Byte} {p : Pattern} (h : Occurs p d) : ∃ o, findFn d 0 p = some o := by
  obtain ⟨x, hx⟩ := h
  cases hf : findFn d 0 p with
  | none => exact absurd hx (findFn_none hf x (Nat.zero_le _))
  | some o => exact ⟨o, rfl⟩

/-- A pattern that does not occur is not found. -/
theorem findFn_of_not_occurs {d : List Byte} {p : Pattern} (h : ¬Occurs p d) : findFn d 0 p = none := by
  cases hf : findFn d 0 p with
  | none => rfl
  | some o => exact absurd ⟨o, (findFn_some hf).2.1⟩ h

/-! ## The variant -/

theorem cfgOk_iff {e : Engine} : cfgOk e = true ↔ CfgLegal e := by
  simp [cfgOk, CfgLegal, and_assoc, imp_iff_not_or, or_assoc]

/-- Without a fixed variant the prologues decide, PRO16 first (R172). -/
theorem selectVariant_auto (P : Params) {e : Engine} (d : List Byte)
    (h : e.cfgDiskType = 1 ∧ ¬(e.cfgVersion = 2 ∧ (e.cfgBootFmt = 1 ∨ e.cfgBootFmt = 2))) :
    selectVariant P e d =
      if (findFn d 0 P.pro16).isSome then some .s16
      else if (findFn d 0 P.pro13).isSome then some .s13
      else none := by
  obtain ⟨hd, hf⟩ := h
  rw [selectVariant, if_neg (by simp [hd]), if_neg fun h => hf ⟨h.1, .inl h.2⟩, if_neg fun h => hf ⟨h.1, .inr h.2⟩]

/-- The model's selection is R172's. -/
theorem selectVariant_selects (P : Params) (e : Engine) (d : List Byte) :
    Selects P e d (selectVariant P e d) := by
  refine ⟨fun h => if_pos h, fun h hv hb => ?_, fun h hv hb => ?_, fun h h16 => ?_, fun h h16 h13 => ?_,
    fun h h16 h13 => ?_⟩
  · rw [selectVariant, if_neg (by simp [h]), if_pos ⟨hv, hb⟩]
  · rw [selectVariant, if_neg (by simp [h]), if_neg (by simp [hb]), if_pos ⟨hv, hb⟩]
  · obtain ⟨o, ho⟩ := findFn_of_occurs h16
    simp [selectVariant_auto P d h, ho]
  · obtain ⟨o, ho⟩ := findFn_of_occurs h13
    simp [selectVariant_auto P d h, findFn_of_not_occurs h16, ho]
  · simp [selectVariant_auto P d h, findFn_of_not_occurs h16, findFn_of_not_occurs h13]

/-- What SELV does with the decoded array (R171). -/
def selvTrack (P : Params) (e : Engine) : CmdEnd :=
  match selectVariant P e (decodedArray e) with
  | none => .raised .prologueNotFound ((e.setVariant none).setFound false)
  | some v =>
    match findFn (decodedArray e) 0 (prologueOf P v) with
    | none => .raised .prologueNotFound ((e.setVariant (some v)).setFound false)
    | some _ => .done ((e.setVariant (some v)).setFound true)

/-- SELV under a legal CFG (R171). -/
theorem execSelv_legal {s : State} (h : CfgLegal s.cur) :
    exec .selv s = s.command fun P e => withDbuf P e (selvTrack P) :=
  congrArg s.finish (if_pos (cfgOk_iff.2 (show CfgLegal s.cur.clearErr from h)))

theorem selvTrack_none {P : Params} {e : Engine} (h : selectVariant P e (decodedArray e) = none) :
    selvTrack P e = .raised .prologueNotFound ((e.setVariant none).setFound false) := by
  rw [selvTrack, h]

theorem selvTrack_found {P : Params} {e : Engine} {v : Variant}
    (h : selectVariant P e (decodedArray e) = some v) (ho : Occurs (prologueOf P v) (decodedArray e)) :
    selvTrack P e = .done ((e.setVariant (some v)).setFound true) := by
  obtain ⟨o, ho⟩ := findFn_of_occurs ho
  simp only [selvTrack, h, ho]

theorem selvTrack_absent {P : Params} {e : Engine} {v : Variant}
    (h : selectVariant P e (decodedArray e) = some v) (ho : ¬Occurs (prologueOf P v) (decodedArray e)) :
    selvTrack P e = .raised .prologueNotFound ((e.setVariant (some v)).setFound false) := by
  simp only [selvTrack, h, findFn_of_not_occurs ho]

/-! ## NBIT and NBYTE -/

section
variable {s : State}

theorem execNbit_raises {c : ErrCode} (h : trackReady s.params s.cur.clearErr = some c) :
    EndsInError (execNbit s) s c :=
  State.command_endsInError (by rw [h])

theorem execNbyte_raises {c : ErrCode} (h : trackReady s.params s.cur.clearErr = some c) :
    EndsInError (execNbyte s) s c :=
  State.command_endsInError (by rw [h])

variable (h0 : s.cur.bitcount ≠ 0) (hle : s.cur.bitcount.toNat ≤ 8 * s.params.tbufBytes)
include h0 hle

theorem execNbit_unwritten (hm : s.cur.mem.read (tbufBase + s.cur.bitpos.toNat / 8) = none) :
    execNbit s = .fault (.tbufUnwritten (s.cur.bitpos.toNat / 8)) := by
  refine State.command_faults ?_
  rw [trackReady_ok (e := s.cur.clearErr) h0 hle]
  simp only [Engine.clearErr_mem, Engine.clearErr_bitpos, nextBit_error.2 (trackBit_unwritten hm)]

/-- NBIT on a written byte: the bit, and the cursor one bit on (R141, R146). -/
theorem execNbit_written {b : Byte} (hm : s.cur.mem.read (tbufBase + s.cur.bitpos.toNat / 8) = some b) :
    execNbit s = .next { s with cur := { s.cur with
      err := .noError
      bitpos := if s.cur.bitpos.toNat + 1 = s.cur.bitcount.toNat then 0 else s.cur.bitpos + 1
      revs := if s.cur.bitpos.toNat + 1 = s.cur.bitcount.toNat then s.cur.revs + 1 else s.cur.revs
      result := if b.getLsbD (7 - s.cur.bitpos.toNat % 8) then 1 else 0 } } := by
  have hbit : ∀ x : Bool, BitVec.setWidth 32 (BitVec.ofBool x) = if x then 1 else 0 := by decide
  have hnext : BitVec.ofNat 32 (s.cur.bitpos.toNat + 1) = s.cur.bitpos + 1 := by simp [BitVec.ofNat_add]
  have hrun : ∀ r, nextBit s.cur.mem s.cur.bitcount.toNat s.cur.bitpos.toNat = .ok r →
      execNbit s = .next { s with cur :=
        (s.cur.clearErr.moveCursor r.pos r.wraps).setResult (BitVec.setWidth 32 (BitVec.ofBool r.bit)) } := by
    intro r hr
    refine State.command_done ?_
    rw [trackReady_ok (e := s.cur.clearErr) h0 hle]
    simp only [Engine.clearErr_mem, Engine.clearErr_bitpos, Engine.clearErr_bitcount, hr]
  by_cases hw : s.cur.bitpos.toNat + 1 = s.cur.bitcount.toNat
  · rw [hrun ⟨_, 0, 1⟩ (by rw [nextBit, trackBit_written hm]; exact if_pos hw), hbit]
    simp only [if_pos hw]
    rfl
  · rw [hrun ⟨_, s.cur.bitpos.toNat + 1, 0⟩ (by rw [nextBit, trackBit_written hm]; exact if_neg hw), hbit]
    simp only [if_neg hw, Engine.moveCursor, hnext, BitVec.ofNat_eq_ofNat, BitVec.add_zero]
    rfl

theorem execNbyte_unwritten (hm : s.cur.mem.read (tbufBase + s.cur.bitpos.toNat / 8) = none) :
    execNbyte s = .fault (.tbufUnwritten (s.cur.bitpos.toNat / 8)) := by
  refine State.command_faults ?_
  rw [trackReady_ok (e := s.cur.clearErr) h0 hle]
  simp only [Engine.clearErr_mem, Engine.clearErr_bitpos, Engine.clearErr_bitcount,
    syncByte_unwritten (bitcount_pos h0) hm]

end

/-- NBYTE on an all-zero track: NoFlux after one revolution, back at the same bit (R142, R146). -/
theorem execNbyte_noFlux {s : State} (hl : TrackLoaded s.params s.cur) (hc : CursorOk s.cur)
    (hz : ∀ i < s.cur.bitcount.toNat, trackBit s.cur.mem i = .ok false) :
    execNbyte s = .next { s with cur := { s.cur with err := .noFlux, anyErr := true, revs := s.cur.revs + 1 } } := by
  have hsync := syncByte_noFlux (u := s.cur.bitpos.toNat) hl.pos hz
  rw [Nat.mod_eq_of_lt (hc.lt hl.pos)] at hsync
  refine (State.command_raised (c := .noFlux) (e := s.cur.clearErr.moveCursor s.cur.bitpos.toNat 1) ?_).trans ?_
  · rw [TrackLoaded.ready (e := s.cur.clearErr) hl]
    simp only [Engine.clearErr_mem, Engine.clearErr_bitpos, Engine.clearErr_bitcount, hsync]
  · have hpos : BitVec.ofNat 32 s.cur.bitpos.toNat = s.cur.bitpos := by simp
    rw [Engine.moveCursor, hpos]
    rfl

/-! ## The obligations -/

theorem exec_mat (s : State) : exec .mat s = execMat s := rfl

theorem exec_find (p0 p1 p2 : Byte) (s : State) : exec (.find p0 p1 p2) s = execFind p0 p1 p2 s := rfl

/-- Settles O27: one bit is read at BITPOS. -/
theorem nbitReadsOneTrackBit : Obligations.NbitReadsOneTrackBit :=
  ⟨rfl, fun _ => ⟨fun h => execNbit_raises (trackReady_noTrack h), fun h => execNbit_raises (trackReady_overflow h),
    fun h0 hle hm => execNbit_unwritten h0 hle hm, fun _ h0 hle hm => execNbit_written h0 hle hm⟩⟩

/-- Settles O29: the errors of TrackReady, the stop on an unwritten byte, and one revolution of zero bits. -/
theorem nbyteErrors : Obligations.NbyteErrors :=
  fun _ => ⟨fun h => execNbyte_raises (trackReady_noTrack h), fun h => execNbyte_raises (trackReady_overflow h),
    fun h0 hle hm => execNbyte_unwritten h0 hle hm, fun hl hc hz => execNbyte_noFlux hl hc hz⟩

/-- Settles O31: each outcome is EnsureDBUF's. -/
theorem matMaterializesTrack : Obligations.MatMaterializesTrack := by
  intro s
  rw [exec_mat]
  refine ⟨fun hd => ?_, fun hd h0 => command_dbufError ⟨hd, .inl ⟨rfl, h0⟩⟩,
    fun hd ho => command_dbufError ⟨hd, .inr (.inl ⟨rfl, ho⟩)⟩, fun hd h0 hle hm => ?_,
    fun hd hl hz => command_dbufError ⟨hd, .inr (.inr ⟨rfl, hl, hz⟩)⟩, fun hd hl hf => ?_⟩
  · exact command_dbufOk (ensureDbuf_of_dvalid hd)
  · refine State.command_faults ?_
    rw [withDbuf, ensureDbuf_unwritten (e := s.cur.clearErr) hd h0 hle hm]
  · obtain ⟨e, he⟩ := DbufReady.ok (e := s.cur.clearErr) (.inr ⟨hl, hf⟩)
    rcases ensureDbuf_ok he with ⟨hd', -⟩ | ⟨-, -, ys, hys, rfl⟩
    · exact absurd (hd.symm.trans hd') (by decide)
    · have hlen : ys.length = decodedLength s.cur.bitcount.toNat := syncBytes_length hys
      have hle := decodedLength_le hl.2.1
      have hg : guardBytes = 600 := rfl
      have hrun : execMat s = _ := command_dbufOk (rest := fun _ => .done) he
      refine ⟨ys, _, hlen, hlen ▸ hys, hrun, fun j hj => ?_, fun j h1 h2 => ?_, fun x hx => ?_⟩
      · rw [Memory.read_store_inside _ _ _ _ _ (by omega) (by omega), if_pos (by omega),
          Nat.add_sub_cancel_left, List.getElem?_eq_getElem hj]
        simp [List.getD_eq_getElem?_getD, hj]
      · rw [Memory.read_store_inside _ _ _ _ _ (by omega) (by omega), if_neg (by omega),
          Memory.unlisted_of_le (by omega)]
      · exact Memory.read_store_outside _ _ _ _ _ hx

/-- Settles O35: FIND is FindFn on the array that EnsureDBUF leaves. -/
theorem findReportsFirstOccurrence : Obligations.FindReportsFirstOccurrence := by
  intro s p0 p1 p2
  rw [exec_find]
  refine ⟨fun c h => command_dbufError h, fun h => ?_⟩
  obtain ⟨e, he⟩ := DbufReady.ok (e := s.cur.clearErr) h
  refine ⟨e, he, ?_⟩
  have hopa : opaOffset e = s.cur.opa.toNat := congrArg BitVec.toNat (ensureDbuf_operands he).1
  have hrun : execFind p0 p1 p2 s = _ := command_dbufOk he
  rw [hrun, hopa]
  cases hf : findFn (decodedArray e) s.cur.opa.toNat ⟨p0, p1, p2⟩ with
  | some o =>
    obtain ⟨hle, hat, hno⟩ := findFn_some hf
    exact .inl ⟨o, hle, hat, hno, rfl⟩
  | none => exact .inr ⟨findFn_none hf, rfl⟩

/-- Settles O37: SELV records the variant that R172 selects and whether its prologue occurs. -/
theorem selvSelectsVariant : Obligations.SelvSelectsVariant := by
  intro s hcfg
  rw [execSelv_legal hcfg]
  refine ⟨fun c h => command_dbufError h, fun h => ?_⟩
  obtain ⟨e, he⟩ := DbufReady.ok (e := s.cur.clearErr) h
  refine ⟨e, he, ?_⟩
  obtain ⟨-, hver, hdt, hbf, -, -⟩ := ensureDbuf_operands he
  have hsel := selectVariant_selects s.params e (decodedArray e)
  rw [Selects, hver, hdt, hbf] at hsel
  obtain ⟨h35, h16, h13, hauto16, hauto13, hnone⟩ := hsel
  intro found absent fixed bySector auto
  have hrun : s.command (fun P e => withDbuf P e (selvTrack P)) = s.finish (selvTrack s.params e) :=
    command_dbufOk he
  have hfound : ∀ v, selectVariant s.params e (decodedArray e) = some v →
      Occurs (prologueOf s.params v) (decodedArray e) → s.command _ = found v := fun v hv ho =>
    hrun.trans (congrArg s.finish (selvTrack_found hv ho))
  have hfixed : ∀ v, selectVariant s.params e (decodedArray e) = some v → fixed v (prologueOf s.params v) :=
    fun v hv => ⟨hfound v hv, fun ho => hrun.trans (congrArg s.finish (selvTrack_absent hv ho))⟩
  exact ⟨fun hd => hfixed _ (h35 hd), fun hd hv hb => hfixed _ (h16 hd hv hb),
    fun hd hv hb => hfixed _ (h13 hd hv hb),
    fun ha ho => hfound _ (hauto16 ha ho) ho, fun ha hno ho => hfound _ (hauto13 ha hno ho) ho,
    fun ha hno16 hno13 => hrun.trans (congrArg s.finish (selvTrack_none (hnone ha hno16 hno13)))⟩

end Sys2Proof.Machine
end

section
/-! PROOFS. The frames of the commands over DBUF and of ED16: which registers and which bytes they leave (R143, R144,
R171, R240, R242, R250, R255, R260, R262). -/

namespace Sys2Proof.Machine

open Sys2Proof.Certificates

/-- EnsureDBUF stores nothing outside DBUF, and nothing where it does not materialize (R143, R147). -/
theorem ensureDbuf_memory {P : Params} {e e' : Engine} (h : ensureDbuf P e = .ok e') :
    ∀ x, DbufStoredOnly P e e' x → e'.mem.read x = e.mem.read x := by
  rcases ensureDbuf_ok h with ⟨-, rfl⟩ | ⟨hd, -, ys, -, rfl⟩ <;> intro x hx
  · rfl
  · rcases hx with hv | hx
    · exact Bool.noConfusion (hv.trans hd : true = false)
    · exact Memory.read_store_outside _ _ _ _ _ hx

/-- What a command over DBUF answers: MAT's error with nothing written, or the end of what it does with the engine
that EnsureDBUF leaves. -/
theorem command_dbufNext {s t : State} {rest : Params → Engine → CmdEnd}
    (h : s.command (fun P e => withDbuf P e (rest P)) = .next t) :
    (∃ c, c ≠ .noError ∧ t = { s with cur := s.cur.clearErr.raise c }) ∨
      ∃ e, ensureDbuf s.params s.cur.clearErr = .ok e ∧ s.finish (rest s.params e) = .next t := by
  rcases withDbuf_cases (rfl : withDbuf s.params s.cur.clearErr (rest s.params) = _) with
    ⟨e, he, -⟩ | ⟨c, hc, hx⟩ | ⟨f, -, hx⟩
  · exact .inr ⟨e, he, (command_dbufOk he).symm.trans h⟩
  · rcases ensureDbuf_error hc with ⟨c', hc', hne⟩ | ⟨f, hf, -⟩
    · obtain rfl := Halt.raise.inj hc'
      exact .inl ⟨c, hne, Host.Outcome.next.inj (h.symm.trans (State.command_raised hx))⟩
    · cases hf
  · cases h.symm.trans (State.command_faults hx)

/-- The memory of `t` is that of `s` but for a materialized DBUF. -/
def StoresDbufOnly (s t : State) : Prop :=
  ∀ x, DbufStoredOnly s.params s.cur t.cur x → t.cur.mem.read x = s.cur.mem.read x

section
variable {s t : State}

theorem execMat_frame (h : execMat s = .next t) :
    t = { s with cur := { s.cur with
      err := t.cur.err, anyErr := t.cur.anyErr, dvalid := t.cur.dvalid, dlen := t.cur.dlen, mem := t.cur.mem } } ∧
      StoresDbufOnly s t := by
  rcases command_dbufNext (rest := fun _ => .done) h with ⟨c, -, rfl⟩ | ⟨e, he, h⟩
  · exact ⟨rfl, fun _ _ => rfl⟩
  · have hmem := ensureDbuf_memory he
    obtain ⟨v, l, m, rfl⟩ := ensureDbuf_frame he
    obtain rfl := Host.Outcome.next.inj h
    exact ⟨rfl, hmem⟩

theorem execFind_frame {p0 p1 p2 : Byte} (h : execFind p0 p1 p2 s = .next t) :
    t = { s with cur := { s.cur with
      err := t.cur.err, anyErr := t.cur.anyErr, dvalid := t.cur.dvalid, dlen := t.cur.dlen, mem := t.cur.mem
      found := t.cur.found, result := t.cur.result } } ∧
      (t.cur.err ≠ .noError → t.cur.result = s.cur.result ∧ t.cur.found = s.cur.found) ∧ StoresDbufOnly s t := by
  rcases command_dbufNext h with ⟨c, -, rfl⟩ | ⟨e, he, h⟩
  · exact ⟨rfl, fun _ => ⟨rfl, rfl⟩, fun _ _ => rfl⟩
  · have hmem := ensureDbuf_memory he
    obtain ⟨v, l, m, rfl⟩ := ensureDbuf_frame he
    split at h <;> obtain rfl := Host.Outcome.next.inj h <;> exact ⟨rfl, fun hne => absurd rfl hne, hmem⟩

theorem execSelv_frame (h : execSelv s = .next t) :
    t = { s with cur := { s.cur with
      err := t.cur.err, anyErr := t.cur.anyErr, dvalid := t.cur.dvalid, dlen := t.cur.dlen, mem := t.cur.mem
      found := t.cur.found, variant := t.cur.variant } } ∧
      (t.cur.err ≠ .noError → t.cur.err ≠ .prologueNotFound →
        t.cur.variant = s.cur.variant ∧ t.cur.found = s.cur.found) ∧ StoresDbufOnly s t := by
  by_cases hcfg : cfgOk s.cur.clearErr = true
  · have hrun : execSelv s = _ := execSelv_legal (cfgOk_iff.1 hcfg)
    rcases command_dbufNext (hrun.symm.trans h) with ⟨c, -, rfl⟩ | ⟨e, he, h⟩
    · exact ⟨rfl, fun _ _ => ⟨rfl, rfl⟩, fun _ _ => rfl⟩
    · have hmem := ensureDbuf_memory he
      obtain ⟨v, l, m, rfl⟩ := ensureDbuf_frame he
      unfold selvTrack at h
      split at h
      · obtain rfl := Host.Outcome.next.inj h
        exact ⟨rfl, fun _ hne => absurd rfl hne, hmem⟩
      · split at h <;> obtain rfl := Host.Outcome.next.inj h
        · exact ⟨rfl, fun _ hne => absurd rfl hne, hmem⟩
        · exact ⟨rfl, fun hne _ => absurd rfl hne, hmem⟩
  · have hrun : execSelv s = .next { s with cur := s.cur.clearErr.raise .badConfig } :=
      State.command_raised (if_neg hcfg)
    obtain rfl := Host.Outcome.next.inj (hrun.symm.trans h)
    exact ⟨rfl, fun _ _ => ⟨rfl, rfl⟩, fun _ _ => rfl⟩

/-- The address-field commands, whatever the field decoder. -/
theorem fieldCommand_frame {decode : Params → Engine → Except FieldError AddrField}
    (h : s.command (fun P e => withDbuf P e fun e => fieldEnd e (decode P e)) = .next t) :
    t = { s with cur := { s.cur with
      err := t.cur.err, anyErr := t.cur.anyErr, dvalid := t.cur.dvalid, dlen := t.cur.dlen, mem := t.cur.mem
      afa := t.cur.afa, afb := t.cur.afb } } ∧
      (t.cur.err ≠ .noError → t.cur.afa = s.cur.afa ∧ t.cur.afb = s.cur.afb) ∧ StoresDbufOnly s t := by
  rcases command_dbufNext (rest := fun P e => fieldEnd e (decode P e)) h with ⟨c, -, rfl⟩ | ⟨e, he, h⟩
  · exact ⟨rfl, fun _ => ⟨rfl, rfl⟩, fun _ _ => rfl⟩
  · have hmem := ensureDbuf_memory he
    obtain ⟨v, l, m, rfl⟩ := ensureDbuf_frame he
    cases hr : decode s.params _ with
    | ok f =>
      rw [hr] at h
      obtain rfl := Host.Outcome.next.inj h
      exact ⟨rfl, fun hne => absurd rfl hne, hmem⟩
    | error x =>
      rw [hr] at h
      obtain rfl := Host.Outcome.next.inj h
      exact ⟨rfl, fun _ => ⟨rfl, rfl⟩, hmem⟩

end

/-- Settles O58, by the frame of each command. -/
theorem dbufReadersFrame : Obligations.DbufReadersFrame := by
  have hda : ∀ {s t : State}, exec .da44 s = .next t ∨ exec .da35 s = .next t → _ := fun h =>
    h.elim (fun h => fieldCommand_frame (decode := fun _ e => decode44Addr (decodedArray e) (opaOffset e)) h)
      (fun h => fieldCommand_frame (decode := fun P e => decode35Addr P (decodedArray e) (opaOffset e)) h)
  intro s t
  refine ⟨fun h => (execMat_frame h).1, fun p0 p1 p2 h => (execFind_frame h).1, fun h => (execSelv_frame h).1,
    fun h => (hda h).1, fun ⟨p0, p1, p2, h⟩ => (execFind_frame h).2.1, fun h => (execSelv_frame h).2.1,
    fun h => (hda h).2.1, fun h => ?_⟩
  rcases h with h | ⟨p0, p1, p2, h⟩ | h | h
  · exact (execMat_frame h).2
  · exact (execFind_frame h).2.2
  · exact (execSelv_frame h).2.2
  · exact (hda h).2.2

/-! ## The payload commands -/

/-- The end of a payload command on the engine `e`: an error with nothing more written, or at most `n` bytes stored
from WBUF[0] on. -/
def EndsWithPayload (n : Nat) (e : Engine) (x : CmdEnd) : Prop :=
  (∃ c, c ≠ .noError ∧ x = .raised c e) ∨ ∃ p, p.length ≤ n ∧ x = .done (storePayload e p)

theorem payloadEnd_endsWithPayload {n : Nat} (e : Engine) {r : Except FieldError (List Byte)}
    (h : ∀ p, r = .ok p → p.length = n) : EndsWithPayload n e (payloadEnd e r) := by
  cases r with
  | ok p => exact .inr ⟨p, (h p rfl).le, rfl⟩
  | error f => exact .inl ⟨_, errOfField_ne f, rfl⟩

theorem openEnd_endsWithPayload {n : Nat} (e : Engine) {r : OpenDecode}
    (h : ∀ p, r = .present (.ok p) → p.length = n) : EndsWithPayload n e (openEnd e r) := by
  cases r with
  | absent => exact .inl ⟨_, by simp, rfl⟩
  | present x => exact payloadEnd_endsWithPayload e fun p hp => h p (congrArg _ hp)

/-- The frame of a payload command. -/
theorem payloadCommand_frame {n : Nat} {s t : State} {rest : Params → Engine → CmdEnd}
    (hrest : ∀ e, EndsWithPayload n e (rest s.params e))
    (h : s.command (fun P e => withDbuf P e (rest P)) = .next t) :
    t = { s with cur := { s.cur with
      err := t.cur.err, anyErr := t.cur.anyErr, dvalid := t.cur.dvalid, dlen := t.cur.dlen, mem := t.cur.mem } } ∧
      ∀ x, DbufStoredOnly s.params s.cur t.cur x → (t.cur.err ≠ .noError ∨ Outside wbufBase n x) →
        t.cur.mem.read x = s.cur.mem.read x := by
  rcases command_dbufNext h with ⟨c, -, rfl⟩ | ⟨e, he, h⟩
  · exact ⟨rfl, fun _ _ _ => rfl⟩
  · have hmem := ensureDbuf_memory he
    have hend := hrest e
    obtain ⟨v, l, m, rfl⟩ := ensureDbuf_frame he
    rcases hend with ⟨c, -, hx⟩ | ⟨p, hp, hx⟩
    · rw [hx] at h
      obtain rfl := Host.Outcome.next.inj h
      exact ⟨rfl, fun x hx _ => hmem x hx⟩
    · rw [hx] at h
      obtain rfl := Host.Outcome.next.inj h
      refine ⟨rfl, fun x hx ho => (Memory.read_store_outside _ _ _ _ _ ?_).trans (hmem x hx)⟩
      have ho := ho.resolve_left fun hne => hne rfl
      unfold Outside at ho
      omega

/-- Settles O59, by the frame of the payload commands and of a store. -/
theorem payloadCommandsFrame : Obligations.PayloadCommandsFrame := by
  intro s t
  have h16 : execDd16 s = .next t → _ := payloadCommand_frame (n := 256)
    (rest := fun P e => payloadEnd e (decodeData16 P (decodedArray e) (opaOffset e)))
    fun e => payloadEnd_endsWithPayload e fun _ h => decodeData16_length h
  have h13 : execDd13 s = .next t → _ := payloadCommand_frame (n := 256)
    (rest := fun P e => openEnd e (decodeData13 P (decodedArray e) (opaOffset e)))
    fun e => openEnd_endsWithPayload e fun _ h => decodeData13_length h
  have h35 : execDd35 s = .next t → _ := payloadCommand_frame (n := 512)
    (rest := fun P e => openEnd e (decodeData35 P (decodedArray e) (opaOffset e)))
    fun e => openEnd_endsWithPayload e fun _ h => decodeData35_length h
  refine ⟨fun h => ?_, fun h => ?_, fun h => (h35 h).2, fun h => ?_⟩
  · rcases h with h | h | h
    · exact (h16 h).1
    · exact (h13 h).1
    · exact (h35 h).1
  · rcases h with h | h
    · exact (h16 h).2
    · exact (h13 h).2
  · obtain rfl := Host.Outcome.next.inj h
    refine ⟨rfl, fun x hx => Memory.read_store_outside _ _ _ _ _ ?_⟩
    rwa [encodeData16_length]

end Sys2Proof.Machine
end

section
/-! PROOFS. SCAN of a present track (R175): what its start leaves of the track and of the memo, what its search
answers for each selected variant, and the statement of its completion. -/

namespace Sys2Proof.Machine

open Sys2Proof.Certificates

/-! ## A scan's start -/

/-- A scan's start changes no byte outside SECT and PBUF. -/
theorem startScan_read_outside (e : Engine) {x : Nat} (h1 : Outside sectBase 512 x) (h2 : Outside pbufBase 8192 x) :
    (startScan e).mem.read x = e.mem.read x :=
  storeTable_read_outside e [] h1 h2

/-- A scan's start leaves TBUF. -/
theorem startScan_read_track (e : Engine) {x : Nat} (h : x < dbufBase) : (startScan e).mem.read x = e.mem.read x := by
  have hb := window_bases
  exact startScan_read_outside e (.inl (by omega)) (.inl (by omega))

theorem startScan_zeroFrom (e : Engine) : TableZeroFrom (startScan e).mem 0 :=
  storeTable_zeroFrom (es := []) (by simp)

section
variable {P : Params} (hP : P.Ok) {e : Engine}
include hP

theorem TrackLoaded.startScan (h : TrackLoaded P e) : TrackLoaded P (startScan e) :=
  h.congr (e := e) hP rfl fun _ _ hx => startScan_read_track e hx

theorem TrackLoaded.startScan_trackBit (h : TrackLoaded P e) :
    ∀ i < e.bitcount.toNat, trackBit (Machine.startScan e).mem i = trackBit e.mem i :=
  trackBit_congr hP h.2.1 fun _ _ hx => startScan_read_track e hx

theorem DbufReady.startScan (h : DbufReady P e) : DbufReady P (startScan e) := by
  rcases h with hd | ⟨hl, i, hi, hb⟩
  · exact .inl hd
  · exact .inr ⟨hl.startScan hP, i, hi, (hl.startScan_trackBit hP i hi).trans hb⟩

theorem DbufError.startScan {c : ErrCode} (h : DbufError P e c) : DbufError P (startScan e) c := by
  obtain ⟨hd, h0 | ho | ⟨hc, hl, hz⟩⟩ := h
  · exact ⟨hd, .inl h0⟩
  · exact ⟨hd, .inr (.inl ho)⟩
  · exact ⟨hd, .inr (.inr ⟨hc, hl.startScan hP, fun i hi => (hl.startScan_trackBit hP i hi).trans (hz i hi)⟩)⟩

end

/-- SCAN of a present track under a legal CFG (R175). -/
theorem execScan_present {s : State} (hcfg : CfgLegal s.cur) (h0 : s.cur.bitcount ≠ 0) :
    exec .scan s = s.finish (withDbuf s.params (startScan s.cur.clearErr) (scanTrack s.params)) :=
  congrArg s.finish ((if_pos (cfgOk_iff.2 (show CfgLegal (startScan s.cur.clearErr) from hcfg))).trans (if_neg h0))

/-! ## A scan's search -/

/-- A scan's end without the selected variant's prologue (R175). -/
def endWithoutPrologue (e : Engine) (v : Option Variant) : Engine :=
  (((e.setVariant v).setFound false).setStop .noPrologue).raise .prologueNotFound

section
variable {s : State} {P : Params} {e : Engine}

theorem scanTrack_none (h : selectVariant P e (decodedArray e) = none) :
    s.finish (scanTrack P e) = .next { s with cur := endWithoutPrologue e none } := by
  simp only [scanTrack, h]
  rfl

theorem scanTrack_absent {v : Variant} (h : selectVariant P e (decodedArray e) = some v)
    (ho : ¬Occurs (prologueOf P v) (decodedArray e)) :
    s.finish (scanTrack P e) = .next { s with cur := endWithoutPrologue e (some v) } := by
  simp only [scanTrack, h, findFn_of_not_occurs ho]
  rfl

theorem scanTrack_found {v : Variant} (h : selectVariant P e (decodedArray e) = some v)
    (ho : Occurs (prologueOf P v) (decodedArray e)) :
    s.finish (scanTrack P e) = .next { s with
      cur := endScan ((e.setVariant (some v)).setFound true)
        (scanFrom P e v (decodedArray e) 0 (decodedArray e) []) } := by
  obtain ⟨o, ho⟩ := findFn_of_occurs ho
  simp only [scanTrack, h, ho]
  rfl

end

theorem addressPrologue_eq (P : Params) (v : Variant) : addressPrologue P v = prologueOf P v := by
  cases v <;> rfl

theorem sectorTarget_eq (P : Params) (e : Engine) (v : Variant) : sectorTarget P e.trkidx v = targetCount P e v := by
  cases v <;> rfl

/-- With DVALID = 1 the decoded array lies below SECT (R51). -/
theorem MemoOk.dlen_le {P : Params} {e : Engine} (hP : P.Ok) (h : MemoOk P e) (hd : e.dvalid = true) :
    dbufBase + e.dlen.toNat ≤ sectBase := by
  obtain ⟨hl, hlen, -⟩ := h.2 hd
  have hle := decodedLength_le hl.2.1
  have hb := window_bases
  have ht := hP.1.2
  omega

/-- A scan's end leaves the decoded array. -/
theorem endScan_decodedArray {P : Params} {e : Engine} (hP : P.Ok) (h : MemoOk P e) (hd : e.dvalid = true)
    (r : List SectorEntry × StopCode) : decodedArray (endScan e r) = decodedArray e := by
  have hle := h.dlen_le hP hd
  have hb := window_bases
  refine Memory.bytes_congr _ _ _ _ fun x _ hx => ?_
  rw [endScan_dlen] at hx
  exact storeTable_read_outside e r.1 (.inl (by omega)) (.inl (by omega))

/-- EnsureDBUF leaves an empty sector table empty. -/
theorem TableZeroFrom.ensureDbuf {P : Params} {e e' : Engine} {n : Nat} (hP : P.Ok)
    (h : Machine.ensureDbuf P e = .ok e') (hz : TableZeroFrom e.mem n) : TableZeroFrom e'.mem n := by
  have hb := window_bases
  have ht := hP.1.2
  have hm : ∀ x, sectBase ≤ x → e'.mem.read x = e.mem.read x := fun x hx =>
    ensureDbuf_memory h x (.inr (.inr (by omega)))
  exact ⟨fun k hk hn => (hm _ (by omega)).trans (hz.1 k hk hn),
    fun k hk hn => (hm _ (by omega)).trans (hz.2 k hk hn)⟩

/-- What a scan that found its prologue leaves: its entries, counted, stopped for one of three reasons, stored in
order with zeros after them, and SECTFAIL (R52, R53, R58, R59, R175, R176). -/
theorem endScan_scanFrom {P : Params} (hP : P.Ok) (e x : Engine) (v : Variant) (d : List Byte) :
    let r := scanFrom P e v d 0 d []
    (endScan x r).scount.toNat = r.1.length ∧ r.1.length ≤ targetCount P e v ∧
      (r.2 = .count ∨ r.2 = .noMatch ∨ r.2 = .duplicate) ∧ (r.2 = .count ↔ r.1.length = targetCount P e v) ∧
      (∀ n y, r.1[n]? = some y → EntryStored (endScan x r).mem n y) ∧ TableZeroFrom (endScan x r).mem r.1.length ∧
      ((endScan x r).sectFail = true ↔ ∃ y ∈ r.1, y.status ≠ .ok) := by
  intro r
  have hrec : Recordable P r.1 := scanFrom_recordable P e v d d 0
  have hlen := hrec.length hP
  have hmax : maxSectors = 16 := rfl
  have hpay := fun y hy => (hrec.payload y hy).1
  obtain ⟨hle, hstop, hcount⟩ := scanFrom_count P e v d d 0 [] (targetCount_bounds hP e v).1
  refine ⟨?_, hle, hstop, hcount, fun n y hy => storeTable_entryStored hlen hpay hy, storeTable_zeroFrom hpay, ?_⟩
  · rw [endScan_scount, BitVec.toNat_ofNat, Nat.mod_eq_of_lt (by omega)]
  · rw [endScan_sectFail, List.any_eq_true]
    simp

/-- A scan has started, with an empty table, and has its decoded array: the engine `e` on which it searches
(R175). -/
structure ScanStarted (s : State) (e : Engine) : Prop where
  ensured : ensureDbuf s.params (startScan s.cur.clearErr) = .ok e
  memo : MemoOk s.params e
  dvalid : e.dvalid = true
  empty : TableZeroFrom e.mem 0
  scount : e.scount = 0
  sectFail : e.sectFail = false
  err : e.err = .noError
  trkidx : e.trkidx = s.cur.trkidx
  cfgA35pol : e.cfgA35pol = s.cur.cfgA35pol
  selects : Selects s.params s.cur (decodedArray e) (selectVariant s.params e (decodedArray e))

theorem scanStarted_of_ready {s : State} (hP : s.params.Ok) (hmemo : MemoOk s.params s.cur)
    (hready : DbufReady s.params s.cur) : ∃ e, ScanStarted s e := by
  obtain ⟨e, he⟩ := (DbufReady.startScan (e := s.cur.clearErr) hP hready).ok
  have hmemo := (ensureDbuf_writes he).keeps (memoOk_invariant hP).write
    ((memoOk_invariant hP).write (startScan_write s.params s.cur.clearErr) hmemo)
  have hdv := ensureDbuf_dvalid he
  have hzero := TableZeroFrom.ensureDbuf hP he (startScan_zeroFrom s.cur.clearErr)
  have hsel := selectVariant_selects s.params e (decodedArray e)
  obtain ⟨v, l, m, rfl⟩ := ensureDbuf_frame he
  exact ⟨_, he, hmemo, hdv, hzero, rfl, rfl, rfl, rfl, rfl, hsel⟩

section
variable {s : State} {e : Engine} (h : ScanStarted s e)
include h

/-- What a scan without the selected variant's prologue leaves (R175). -/
theorem ScanStarted.endWithoutPrologue (v : Option Variant) :
    let e' := Machine.endWithoutPrologue e v
    e'.err = .prologueNotFound ∧ e'.found = false ∧ e'.stop = .noPrologue ∧ e'.scount = 0 ∧ e'.sectFail = false ∧
      TableZeroFrom e'.mem 0 :=
  ⟨rfl, rfl, rfl, h.scount, h.sectFail, h.empty⟩

/-- The search sees TRKIDX and A35POL as they were before the scan. -/
theorem ScanStarted.scanFrom_eq (v : Variant) (d : List Byte) :
    scanFrom s.params s.cur v d 0 d [] = scanFrom s.params e v d 0 d [] :=
  scanFrom_congr h.trkidx.symm h.cfgA35pol.symm _ _ _

/-- The target count is that of TRKIDX as it was before the scan (R176). -/
theorem ScanStarted.sectorTarget_eq (v : Variant) :
    sectorTarget s.params s.cur.trkidx v = targetCount s.params e v := by
  rw [← h.trkidx, Machine.sectorTarget_eq]

end

/-- Settles O39: EnsureDBUF on the started scan, then its search for each selected variant. -/
theorem scanCompletes : Obligations.ScanCompletes := by
  intro s hP hcfg h0
  rw [execScan_present hcfg h0]
  refine ⟨fun c hc => ?_, fun hmemo hready => ?_⟩
  · have he := ensureDbuf_of_dbufError (DbufError.startScan (e := s.cur.clearErr) hP hc)
    refine ⟨(startScan s.cur).mem, ?_, startScan_zeroFrom s.cur, fun x h1 h2 => startScan_read_outside s.cur h1 h2⟩
    rw [withDbuf, he]
    rfl
  · obtain ⟨e, h⟩ := scanStarted_of_ready hP hmemo hready
    have hsel := h.selects
    rw [withDbuf_ok h.ensured]
    cases hv : selectVariant s.params e (decodedArray e) with
    | none =>
      rw [hv] at hsel
      exact ⟨_, scanTrack_none hv, h.dvalid, hsel, h.endWithoutPrologue none⟩
    | some v =>
      rw [hv] at hsel
      by_cases ho : Occurs (prologueOf s.params v) (decodedArray e)
      · have hd : _ = decodedArray e := endScan_decodedArray (e := (e.setVariant (some v)).setFound true) hP h.memo
          h.dvalid (scanFrom s.params e v (decodedArray e) 0 (decodedArray e) [])
        refine ⟨_, scanTrack_found hv ho, h.dvalid, ?_⟩
        simp only []
        rw [hd]
        refine ⟨hsel, fun hno => absurd (addressPrologue_eq s.params v ▸ ho) hno, fun _ => ?_⟩
        rw [h.scanFrom_eq, h.sectorTarget_eq]
        obtain ⟨hn, hle, hstop, hcount, hent, hzero, hfail⟩ := endScan_scanFrom hP e
          ((e.setVariant (some v)).setFound true) v (decodedArray e)
        exact ⟨h.err, rfl, hn, rfl, hle, hstop, hcount, hent, hzero, hfail⟩
      · exact ⟨_, scanTrack_absent hv ho, h.dvalid, hsel, fun _ => h.endWithoutPrologue (some v),
          fun ho' => absurd (addressPrologue_eq s.params v ▸ ho') ho⟩

end Sys2Proof.Machine
end

section
/-! PROOFS. The host port's windows: which accesses are answered (R81 to R83), what a buffer read returns and a buffer
write stores (R83, R84, R86, R88), and that an access reaches the addressed engine alone (R310). -/

namespace Sys2Proof.Machine

open Sys2Proof.Certificates

/-! ## Faults of commands

`exec_fault` places the unwritten bit on the track if the cursor is on it. That the fault is one of TBUF, and so no
BusError, holds wherever the cursor stands. -/

/-- A fault of the bits after the first 1 bit is that of a track bit. -/
theorem syncShift_fault {m : Memory} {bc : Nat} {f : Fault} :
    ∀ {n pos w : Nat} {acc : Byte}, syncShift m bc n pos w acc = .fault f → ∃ i, trackBit m i = .error f
  | 0, _, _, _, h => nomatch h
  | n + 1, pos, w, acc, h => by
    unfold syncShift at h
    split at h
    · rename_i g hg
      obtain rfl := Sync.fault.inj h
      exact ⟨pos, nextBit_error.1 hg⟩
    · exact syncShift_fault h

/-- A fault of a self-sync read is that of a track bit. -/
theorem syncSkip_fault {m : Memory} {bc : Nat} {f : Fault} :
    ∀ {left pos w : Nat}, syncSkip m bc left pos w = .fault f → ∃ i, trackBit m i = .error f
  | 0, _, _, h => nomatch h
  | left + 1, pos, w, h => by
    unfold syncSkip at h
    split at h
    · rename_i g hg
      obtain rfl := Sync.fault.inj h
      exact ⟨pos, nextBit_error.1 hg⟩
    · split at h
      · exact syncShift_fault h
      · exact syncSkip_fault h

/-- A command's pseudocode stops, if it does, on an unwritten byte of TBUF (R50). -/
def StopsOnTbuf (x : CmdEnd) : Prop := ∀ f, x = .fault f → ∃ off, f = .tbufUnwritten off

theorem StopsOnTbuf.done (e : Engine) : StopsOnTbuf (.done e) := nofun

theorem StopsOnTbuf.raised (c : ErrCode) (e : Engine) : StopsOnTbuf (.raised c e) := nofun

theorem StopsOnTbuf.of_completes {P : Params} {e : Engine} {x : CmdEnd} (h : Completes P e x) : StopsOnTbuf x := by
  cases h with
  | done => exact .done _
  | raised => exact .raised _ _

theorem StopsOnTbuf.of_trackBit {m : Memory} {f : Fault} (h : ∃ i, trackBit m i = .error f) :
    StopsOnTbuf (.fault f) := by
  obtain ⟨i, h⟩ := h
  intro g hg
  obtain rfl := CmdEnd.fault.inj hg
  exact ⟨_, (trackBit_error.1 h).2⟩

theorem StopsOnTbuf.withDbuf {P : Params} {e : Engine} {rest : Engine → CmdEnd}
    (h : ∀ e', StopsOnTbuf (rest e')) : StopsOnTbuf (withDbuf P e rest) := by
  rcases withDbuf_cases (rfl : Machine.withDbuf P e rest = _) with ⟨e', -, hx⟩ | ⟨c, -, hx⟩ | ⟨f, hf, hx⟩
  · exact hx ▸ h e'
  · exact hx ▸ .raised c e
  · rcases ensureDbuf_error hf with ⟨c, hc, -⟩ | ⟨g, hg, i, -, hb⟩
    · cases hc
    · obtain rfl := Halt.fault.inj hg
      exact hx ▸ .of_trackBit ⟨i, hb⟩

theorem payloadEnd_stopsOnTbuf (e : Engine) (r : Except FieldError (List Byte)) : StopsOnTbuf (payloadEnd e r) := by
  cases r with
  | ok p => exact .done _
  | error x => exact .raised _ _

theorem openEnd_stopsOnTbuf (e : Engine) (r : OpenDecode) : StopsOnTbuf (openEnd e r) := by
  cases r with
  | absent => exact .raised _ _
  | present x => exact payloadEnd_stopsOnTbuf e x

/-- A command's fault is that of its pseudocode. -/
theorem StopsOnTbuf.command {s : State} {body : Params → Engine → CmdEnd} {f : Fault}
    (hb : ∀ P e, StopsOnTbuf (body P e)) (h : s.command body = .fault f) : ∃ off, f = .tbufUnwritten off :=
  hb _ _ f (State.command_fault h)

section
variable {s : State} {f : Fault}

theorem execNbit_fault (h : execNbit s = .fault f) : ∃ off, f = .tbufUnwritten off := by
  refine StopsOnTbuf.command (fun P e => ?_) h
  split
  · exact .raised _ _
  · split
    · exact .of_trackBit ⟨_, nextBit_error.1 ‹_›⟩
    · exact .done _

theorem execNbyte_fault (h : execNbyte s = .fault f) : ∃ off, f = .tbufUnwritten off := by
  refine StopsOnTbuf.command (fun P e => ?_) h
  split
  · exact .raised _ _
  · split
    · exact .of_trackBit (syncSkip_fault ‹_›)
    · exact .raised _ _
    · exact .done _

theorem execMat_fault (h : execMat s = .fault f) : ∃ off, f = .tbufUnwritten off :=
  StopsOnTbuf.command (fun _ _ => .withDbuf .done) h

theorem execFind_fault {p0 p1 p2 : Byte} (h : execFind p0 p1 p2 s = .fault f) : ∃ off, f = .tbufUnwritten off := by
  refine StopsOnTbuf.command (fun P e => .withDbuf fun e => ?_) h
  split <;> exact .done _

theorem execSelv_fault (h : execSelv s = .fault f) : ∃ off, f = .tbufUnwritten off := by
  refine StopsOnTbuf.command (fun P e => ?_) h
  split
  · refine .withDbuf fun e => ?_
    split
    · exact .raised _ _
    · split
      · exact .raised _ _
      · exact .done _
  · exact .raised _ _

theorem execScan_fault (h : execScan s = .fault f) : ∃ off, f = .tbufUnwritten off := by
  refine StopsOnTbuf.command (fun P e => ?_) h
  dsimp only
  split
  · split
    · exact .done _
    · exact .withDbuf fun e => .of_completes (scanTrack_completes P e)
  · exact .raised _ _

theorem execDa44_fault (h : execDa44 s = .fault f) : ∃ off, f = .tbufUnwritten off :=
  StopsOnTbuf.command (fun P _ => .withDbuf fun e => .of_completes (fieldEnd_completes P e _)) h

theorem execDa35_fault (h : execDa35 s = .fault f) : ∃ off, f = .tbufUnwritten off :=
  StopsOnTbuf.command (fun P _ => .withDbuf fun e => .of_completes (fieldEnd_completes P e _)) h

theorem execDd16_fault (h : execDd16 s = .fault f) : ∃ off, f = .tbufUnwritten off :=
  StopsOnTbuf.command (fun _ _ => .withDbuf fun e => payloadEnd_stopsOnTbuf e _) h

theorem execU62_fault {b : Byte} (h : execU62 b s = .fault f) : ∃ off, f = .tbufUnwritten off := by
  refine StopsOnTbuf.command (fun P e => ?_) h
  split
  · exact .raised _ _
  · exact .done _

theorem execDd13_fault (h : execDd13 s = .fault f) : ∃ off, f = .tbufUnwritten off :=
  StopsOnTbuf.command (fun _ _ => .withDbuf fun e => openEnd_stopsOnTbuf e _) h

theorem execDd35_fault (h : execDd35 s = .fault f) : ∃ off, f = .tbufUnwritten off :=
  StopsOnTbuf.command (fun _ _ => .withDbuf fun e => openEnd_stopsOnTbuf e _) h

end

/-- A fault of any command is that of an unwritten byte of TBUF. -/
theorem exec_fault_tbuf {i : Instr} {s : State} {f : Fault} (h : exec i s = .fault f) :
    ∃ off, f = .tbufUnwritten off := by
  cases i with
  | crst | ed16 | x62 _ | x44 _ | u44 _ _ => cases h
  | nbit => exact execNbit_fault h
  | nbyte => exact execNbyte_fault h
  | mat => exact execMat_fault h
  | find p0 p1 p2 => exact execFind_fault h
  | selv => exact execSelv_fault h
  | scan => exact execScan_fault h
  | da44 => exact execDa44_fault h
  | da35 => exact execDa35_fault h
  | dd16 => exact execDd16_fault h
  | u62 b => exact execU62_fault h
  | dd13 => exact execDd13_fault h
  | dd35 => exact execDd35_fault h

/-- A command word written to CMD is no BusError (R82). -/
theorem issue_ne_busError (s : State) (w : Word) (addr : Nat) : issue s w ≠ .fault (.busError addr) := by
  intro h
  unfold issue at h
  split at h
  · obtain ⟨off, hoff⟩ := exec_fault_tbuf h
    cases hoff
  · rename_i x _
    cases x <;> cases h

/-! ## Supported accesses -/

/-- An aligned 32-bit access of the REG window (R82). -/
def RegAccess (n off : Nat) : Prop := off < 0x40 ∧ n = 4 ∧ off % 4 = 0

/-- A naturally aligned access of 1, 2 or 4 bytes inside the window `w` (R83). -/
def WindowAccess (P : Params) (n off : Nat) (w : Window) : Prop :=
  (n = 1 ∨ n = 2 ∨ n = 4) ∧ off % n = 0 ∧ w.base ≤ off ∧ off + n ≤ w.base + w.size P

theorem regAccess_iff {n off : Nat} : regAccess n off = true ↔ RegAccess n off := by
  exact decide_eq_true_iff

theorem windowAccess_iff {P : Params} (hP : P.Ok) {n off : Nat} {w : Window} :
    WindowAccess P n off w ↔ bufAccess n off = true ∧ windowOf P off n = some w := by
  unfold bufAccess
  rw [decide_eq_true_iff]
  constructor
  · rintro ⟨hn, hal, h1, h2⟩
    exact ⟨⟨hn, hal⟩, windowOf_eq hP (by omega) h1 h2⟩
  · rintro ⟨⟨hn, hal⟩, hw⟩
    exact ⟨hn, hal, windowOf_some hw⟩

/-- Every buffer window lies above the REG window (R81). -/
theorem Window.le_base (w : Window) : 0x10000 ≤ w.base := by
  cases w <;> decide

theorem WindowAccess.not_reg {P : Params} {n off : Nat} {w : Window} (h : WindowAccess P n off w) :
    ¬regAccess n off = true := by
  have hb := w.le_base
  have hoff := h.2.2.1
  rw [regAccess_iff]
  rintro ⟨hlt, -⟩
  omega

/-- The engine and the offset of the address of a supported buffer access. -/
theorem WindowAccess.split {P : Params} (hP : P.Ok) {n off : Nat} {w : Window} (h : WindowAccess P n off w)
    (k : Nat) : engineAddr k off / engineStride = k ∧ engineAddr k off % engineStride = off := by
  obtain ⟨hn, -, -, hend⟩ := h
  exact engineAddr_split k (Window.lt_stride hP (w := w) (by omega))

/-- A byte of a window can be accessed on its own. -/
theorem WindowAccess.byte {P : Params} {off : Nat} {w : Window} (h1 : w.base ≤ off) (h2 : off < w.base + w.size P) :
    WindowAccess P 1 off w :=
  ⟨.inl rfl, Nat.mod_one _, h1, h2⟩

/-- Each byte of an access can be accessed on its own. -/
theorem WindowAccess.byteAt {P : Params} {n off j : Nat} {w : Window} (h : WindowAccess P n off w) (hj : j < n) :
    WindowAccess P 1 (off + j) w := by
  obtain ⟨-, -, h1, h2⟩ := h
  exact .byte (by omega) (by omega)

theorem engineAddr_div_mod (addr : Nat) : engineAddr (addr / engineStride) (addr % engineStride) = addr :=
  Nat.div_add_mod _ _

/-! ## Reads -/

/-- A host read inside a buffer window of engine `k` (R83). -/
theorem hostRead_window {s : State} {k n off : Nat} {e : Engine} {w : Window} (hP : s.params.Ok)
    (he : s.engines[k]? = some e) (h : WindowAccess s.params n off w) :
    hostRead s n (engineAddr k off) =
      some (wordOfBytes ((List.range n).map fun j => hostByte s e (engineAddr k 0) (off + j))) := by
  obtain ⟨hk, hoff⟩ := h.split hP k
  obtain ⟨hbuf, hw⟩ := (windowAccess_iff hP).1 h
  have hbase : engineAddr k off - off = engineAddr k 0 := Nat.add_sub_cancel ..
  simp [hostRead, hk, hoff, he, h.not_reg, hbuf, hw, hbase]

/-- A host read that is answered is one of the REG window or inside a buffer window, of an engine that exists. -/
theorem hostRead_some {s : State} {n addr : Nat} {v : Word} (hP : s.params.Ok) (h : hostRead s n addr = some v) :
    ∃ e, s.engines[addr / engineStride]? = some e ∧
      (RegAccess n (addr % engineStride) ∨ ∃ w, WindowAccess s.params n (addr % engineStride) w) := by
  unfold hostRead at h
  dsimp only at h
  split at h
  · cases h
  · rename_i e he
    refine ⟨e, he, ?_⟩
    split at h
    · exact .inl (regAccess_iff.1 ‹_›)
    · split at h
      · rename_i hb
        obtain ⟨hbuf, hw⟩ := (Bool.and_eq_true_iff).1 hb
        obtain ⟨w, hw⟩ := Option.isSome_iff_exists.1 hw
        exact .inr ⟨w, (windowAccess_iff hP).2 ⟨hbuf, hw⟩⟩
      · cases h

/-- Which host reads are answered (R82, R83). -/
theorem hostRead_ne_none_iff {s : State} {n addr : Nat} (hP : s.params.Ok) :
    hostRead s n addr ≠ none ↔ addr / engineStride < s.engines.length ∧
      (RegAccess n (addr % engineStride) ∨ ∃ w, WindowAccess s.params n (addr % engineStride) w) := by
  constructor
  · intro h
    obtain ⟨v, hv⟩ := Option.ne_none_iff_exists'.1 h
    obtain ⟨e, he, hacc⟩ := hostRead_some hP hv
    exact ⟨(List.getElem?_eq_some_iff.1 he).1, hacc⟩
  · rintro ⟨hlt, hacc⟩
    have he := List.getElem?_eq_getElem hlt
    rw [← engineAddr_div_mod addr]
    rcases hacc with ⟨h1, rfl, h2⟩ | ⟨w, hw⟩
    · rw [hostRead_register he ⟨h1, h2⟩]
      simp
    · rw [hostRead_window hP he hw]
      simp

/-- A host read of one byte of a buffer window (R83). -/
theorem hostRead_byte {s : State} {k off : Nat} {e : Engine} {w : Window} (hP : s.params.Ok)
    (he : s.engines[k]? = some e) (h : WindowAccess s.params 1 off w) :
    hostRead s 1 (engineAddr k off) = some ((hostByte s e (engineAddr k 0) off).setWidth 32) := by
  rw [hostRead_window hP he h]
  simp [wordOfBytes]

/-- A host read of one byte that the engine's memory holds (R83, R84). -/
theorem hostRead_byte_held {s : State} {k off : Nat} {e : Engine} {w : Window} {b : Byte} (hP : s.params.Ok)
    (he : s.engines[k]? = some e) (h : WindowAccess s.params 1 off w) (hb : e.mem.read off = some b) :
    hostRead s 1 (engineAddr k off) = some (b.setWidth 32) := by
  rw [hostRead_byte hP he h, hostByte, hb, Option.getD_some]

/-- What an answered host read does (R84). -/
theorem hostStep_read {s : State} {n addr : Nat} {v : Word} (h : hostRead s n addr = some v) :
    hostStep s (.read n addr) = .next { s with rdata := some v } := by
  rw [hostStep, h]

theorem hostStep_read_busError {s : State} {n addr : Nat} :
    hostStep s (.read n addr) = .fault (.busError addr) ↔ hostRead s n addr = none := by
  rw [hostStep]
  cases hostRead s n addr <;> simp

/-! ## Bytes of words -/

/-- A word has four bytes. -/
theorem byteOf_of_le {k : Nat} (w : Word) (h : 4 ≤ k) : byteOf w k = 0 := by
  apply BitVec.eq_of_getLsbD_eq
  intro i hi
  rw [byteOf, BitVec.getLsbD_extractLsb', BitVec.getLsbD_of_ge _ _ (by omega)]
  simp

/-- The bytes of the word of a list of bytes, the first lowest (R83, R86). -/
theorem byteOf_wordOfBytes : ∀ (bs : List Byte) {k : Nat}, k < 4 → byteOf (wordOfBytes bs) k = bs.getD k 0
  | [], _, _ => by simp [wordOfBytes, byteOf]
  | b :: bs, 0, _ => by
    apply BitVec.eq_of_getLsbD_eq
    intro i hi
    simp [wordOfBytes, byteOf, hi]
    omega
  | b :: bs, k + 1, h => by
    rw [List.getD_cons_succ, ← byteOf_wordOfBytes bs (by omega)]
    apply BitVec.eq_of_getLsbD_eq
    intro i hi
    have hge : 8 ≤ 8 * (k + 1) + i := by omega
    have hsub : 8 * (k + 1) + i - 8 = 8 * k + i := by omega
    simp [wordOfBytes, byteOf, hi, hge, hsub]
    omega

/-- The low bytes of a word. -/
theorem getD_take_wordBytes (v : Word) {n j : Nat} (hj : j < n) (hn : n ≤ 4) :
    ((wordBytes v).take n).getD j 0 = byteOf v j := by
  rw [List.getD_eq_getElem?_getD, List.getElem?_take_of_lt hj]
  obtain rfl | rfl | rfl | rfl : j = 0 ∨ j = 1 ∨ j = 2 ∨ j = 3 := by omega
  all_goals rfl

theorem length_take_wordBytes (v : Word) {n : Nat} (hn : n ≤ 4) : ((wordBytes v).take n).length = n := by
  rw [List.length_take]
  exact Nat.min_eq_left hn

/-! ## Writes -/

/-- The low bytes of a word stored read back. -/
theorem Memory.read_store_wordBytes (m : Memory) (off : Nat) (v : Word) {n j : Nat} (hj : j < n) (hn : n ≤ 4) :
    (m.store off n ((wordBytes v).take n)).read (off + j) = some (byteOf v j) := by
  have hlen := length_take_wordBytes v hn
  have h := Memory.read_store_self m off ((wordBytes v).take n) j (by omega)
  rwa [hlen, getD_take_wordBytes v hj hn] at h

/-- What a host write of the low bytes of a word into a buffer changes (R83, R88). -/
theorem bufWrite_wordBytes (e : Engine) (w : Window) (off : Nat) (v : Word) {n : Nat} (hn : n ≤ 4) :
    bufWrite e w off ((wordBytes v).take n) =
      { e with
        mem := e.mem.store off n ((wordBytes v).take n)
        dvalid := if w = .tbuf then false else e.dvalid
        dlen := if w = .tbuf then 0 else e.dlen } := by
  rw [bufWrite, length_take_wordBytes v hn]
  split <;> rfl

/-- A host write inside a window of engine `k` goes through exactly where the host may write the window (R83). -/
theorem hostWrite_window {s s' : State} {k n off : Nat} {w : Window} (v : Word) (hP : s.params.Ok)
    (hf : s.focus k = some s') (h : WindowAccess s.params n off w) :
    hostWrite s n (engineAddr k off) v =
      if w.writable then .next { s' with cur := bufWrite s'.cur w off ((wordBytes v).take n) }
      else .fault (.busError (engineAddr k off)) := by
  obtain ⟨hk, hoff⟩ := h.split hP k
  obtain ⟨hbuf, hw⟩ := (windowAccess_iff hP).1 h
  simp [hostWrite, hk, hoff, hf, h.not_reg, hbuf, hw]

/-- A host write that is supported goes through: a command may still stop in it, on the track (R82, R83). -/
theorem hostWrite_ne_busError {s : State} {n addr : Nat} (v : Word) (hP : s.params.Ok)
    (hlt : addr / engineStride < s.engines.length)
    (hacc : RegAccess n (addr % engineStride) ∨
      ∃ w : Window, w.writable = true ∧ WindowAccess s.params n (addr % engineStride) w) :
    hostWrite s n addr v ≠ .fault (.busError addr) := by
  obtain ⟨s', hf⟩ := State.focus_of_lt hlt
  rcases hacc with ⟨h1, rfl, h2⟩ | ⟨w, hwr, hw⟩
  · have hreg : hostWrite s 4 _ v = _ := hostStep_writeRegister v hf ⟨h1, h2⟩
    rw [engineAddr_div_mod] at hreg
    rw [hreg]
    split
    · exact issue_ne_busError s' v addr
    · nofun
  · have hbuf := hostWrite_window v hP hf hw
    rw [engineAddr_div_mod, if_pos hwr] at hbuf
    rw [hbuf]
    nofun

/-- A host write that no window supports is a BusError (R81, R82, R83). -/
theorem hostWrite_busError {s : State} {n addr : Nat} (v : Word) (hP : s.params.Ok)
    (h : ¬(addr / engineStride < s.engines.length ∧
      (RegAccess n (addr % engineStride) ∨
        ∃ w : Window, w.writable = true ∧ WindowAccess s.params n (addr % engineStride) w))) :
    hostWrite s n addr v = .fault (.busError addr) := by
  unfold hostWrite
  dsimp only
  split
  · rfl
  · rename_i s' hf
    obtain ⟨-, -, hcur, -⟩ := State.focus_some hf
    have hlt := (List.getElem?_eq_some_iff.1 hcur).1
    split
    · exact absurd ⟨hlt, .inl (regAccess_iff.1 ‹_›)⟩ h
    · split
      · split
        · rfl
        · rename_i hbuf _ w hw
          split
          · exact absurd ⟨hlt, .inr ⟨w, ‹_›, (windowAccess_iff hP).2 ⟨hbuf, hw⟩⟩⟩ h
          · rfl
      · rfl

/-! ## The obligations -/

/-- Settles O12: the access is taken off the list, and a read looks at no pending access. -/
theorem readsHaveNoSideEffects : Obligations.ReadsHaveNoSideEffects := by
  intro s n addr v ops hi hr
  rw [step, hi]
  exact hostStep_read (s := { s with inbox := ops }) hr

/-- Settles O11: an access goes through exactly where a window supports it, and a command's own stop is one on the
track. -/
theorem busErrorExactlyOnUnsupportedAccess : Obligations.BusErrorExactlyOnUnsupportedAccess := by
  intro s n addr v hP
  refine ⟨?_, fun h hacc => hostWrite_ne_busError v hP hacc.1 hacc.2 h, fun h => hostWrite_busError v hP h⟩
  exact hostStep_read_busError.trans (not_not.symm.trans (hostRead_ne_none_iff hP).not)

/-- Settles O10: a read leaves the engines, and a write sets the engine it addresses. -/
theorem enginesAreIsolated : Obligations.EnginesAreIsolated := by
  intro s t h
  refine ⟨(step_engines h).1, ?_⟩
  rcases step_next h with ⟨hi, rfl⟩ | ⟨op, ops, hi, h⟩
  · exact ⟨rfl, fun _ _ _ _ => rfl, fun _ _ _ _ _ _ _ => rfl⟩
  · rw [hi]
    cases op with
    | read n addr =>
      have ht : t.engines = s.engines := by
        rw [hostStep] at h
        split at h
        · cases h
        · obtain rfl := Host.Outcome.next.inj h
          rfl
      exact ⟨congrArg _ ht, fun _ _ _ _ => ht, nofun⟩
    | reset =>
      obtain rfl := Host.Outcome.next.inj h
      exact ⟨by simp [State.assertReset], nofun, nofun⟩
    | write n addr v =>
      obtain ⟨s', hf, ht, -⟩ := hostWrite_change h
      obtain ⟨he, hk, -⟩ := State.focus_some hf
      have he : s'.engines = s.engines := he
      rw [ht, ← he]
      refine ⟨by simp, nofun, fun n' addr' v' ops' k hop hne => ?_⟩
      cases hop
      exact State.engines_setCur s' t.cur k (hk ▸ hne)

/-- Settles O16: the write is a store of the addressed engine's memory, and its bytes are read back one by one. -/
theorem bufferWriteReadsBack : Obligations.BufferWriteReadsBack := by
  intro s s' k n off v w hP hf hn hal hwr h1 h2
  have hacc : WindowAccess s.params n off w := ⟨hn, hal, h1, h2⟩
  have hn4 : n ≤ 4 := by omega
  obtain ⟨-, rfl, -, hp, -⟩ := State.focus_some hf
  have hwrite := (hostWrite_window v hP hf hacc).trans (if_pos hwr)
  rw [bufWrite_wordBytes _ _ _ _ hn4] at hwrite
  have hstored : ∀ j < n, _ := fun j hj => Memory.read_store_wordBytes s'.cur.mem off v hj hn4
  refine ⟨_, _, hwrite, rfl, fun j hj => ⟨hstored j hj, ?_⟩, fun x hx => Memory.read_store_outside _ _ _ _ _ hx⟩
  have hbyte : WindowAccess s'.params 1 (off + j) w := hp ▸ hacc.byteAt hj
  exact hostRead_byte_held (hp ▸ hP :) (State.engines_cur _) hbyte (hstored j hj)

/-- Settles O17: an access of several bytes is made of the accesses of its bytes. -/
theorem bufferReadIsLittleEndian : Obligations.BufferReadIsLittleEndian := by
  refine ⟨fun s k off e w b hP he h1 h2 hb => ?_, fun s n addr v hP hreg hv => ?_⟩
  · exact hostRead_byte_held hP he (.byte h1 h2) hb
  · obtain ⟨e, he, ⟨hlt, -⟩ | ⟨w, hacc⟩⟩ := hostRead_some hP hv
    · omega
    · have hn : n = 1 ∨ n = 2 ∨ n = 4 := hacc.1
      have hword := hostRead_window hP he hacc
      rw [engineAddr_div_mod, hv] at hword
      obtain rfl := Option.some.inj hword
      refine ⟨fun j hj => ?_, fun j hj => ?_⟩
      · have haddr : addr + j = engineAddr (addr / engineStride) (addr % engineStride + j) := by
          rw [engineAddr, ← Nat.add_assoc, Nat.div_add_mod]
        refine ⟨_, haddr ▸ hostRead_byte hP he (hacc.byteAt hj), ?_⟩
        rw [byteOf_wordOfBytes _ (by omega)]
        simp [List.getD_eq_getElem?_getD, hj]
      · rcases Nat.lt_or_ge j 4 with h4 | h4
        · rw [byteOf_wordOfBytes _ h4]
          simp [List.getD_eq_getElem?_getD, hj]
        · exact byteOf_of_le _ h4

end Sys2Proof.Machine
end

section
/-! PROOFS. The encoding (30_encoding.md R110 to R116): a command word as its four bytes, the round trip of the
decoder and the encoder, the rows of R114's table, and the words that are no command. -/

namespace Sys2Proof

/-! ## A word as its four bytes -/

/-- The bytes of a word as digits to the base 256 (R110, R112). -/
theorem wordOf_toNat (o a b c : Byte) :
    (wordOf o a b c).toNat = 2 ^ 24 * o.toNat + 2 ^ 16 * a.toNat + 2 ^ 8 * b.toNat + c.toNat := by
  have happend {n : Nat} (x : BitVec n) (y : Byte) : (x ++ y).toNat = 2 ^ 8 * x.toNat + y.toNat := by
    rw [BitVec.toNat_append, ← Nat.shiftLeft_add_eq_or_of_lt y.isLt, Nat.shiftLeft_eq, Nat.mul_comm]
  rw [wordOf, happend, happend, happend]
  omega

theorem opcOf_toNat (w : Word) : (opcOf w).toNat = w.toNat / 2 ^ 24 % 2 ^ 8 := by
  rw [opcOf, BitVec.extractLsb'_toNat, Nat.shiftRight_eq_div_pow]

theorem immOf_toNat (w : Word) : (immOf w).toNat = w.toNat % 2 ^ 24 := by
  simp [immOf]

theorem immByte_toNat (w : Word) (k : Nat) :
    (immByte w k).toNat = w.toNat % 2 ^ 24 / 2 ^ (8 * k) % 2 ^ 8 := by
  rw [immByte, BitVec.extractLsb'_toNat, immOf_toNat, Nat.shiftRight_eq_div_pow]

section
variable (o a b c : Byte)

@[simp] theorem opcOf_wordOf : opcOf (wordOf o a b c) = o := by
  apply BitVec.eq_of_toNat_eq
  rw [opcOf_toNat, wordOf_toNat]
  omega

@[simp] theorem immByte_wordOf_zero : immByte (wordOf o a b c) 0 = c := by
  apply BitVec.eq_of_toNat_eq
  rw [immByte_toNat, wordOf_toNat]
  omega

@[simp] theorem immByte_wordOf_one : immByte (wordOf o a b c) 1 = b := by
  apply BitVec.eq_of_toNat_eq
  rw [immByte_toNat, wordOf_toNat]
  omega

@[simp] theorem immByte_wordOf_two : immByte (wordOf o a b c) 2 = a := by
  apply BitVec.eq_of_toNat_eq
  rw [immByte_toNat, wordOf_toNat]
  omega

theorem immOf_wordOf_toNat :
    (immOf (wordOf o a b c)).toNat = 2 ^ 16 * a.toNat + 2 ^ 8 * b.toNat + c.toNat := by
  rw [immOf_toNat, wordOf_toNat]
  omega

end

/-- A word is its opcode and its three IMM bytes. -/
theorem wordOf_eq {w : Word} {o a b c : Byte} (ho : opcOf w = o) (ha : immByte w 2 = a) (hb : immByte w 1 = b)
    (hc : immByte w 0 = c) : wordOf o a b c = w := by
  subst ho ha hb hc
  apply BitVec.eq_of_toNat_eq
  rw [wordOf_toNat, opcOf_toNat, immByte_toNat, immByte_toNat, immByte_toNat]
  omega

theorem exists_wordOf (w : Word) : ∃ o a b c, wordOf o a b c = w :=
  ⟨_, _, _, _, wordOf_eq rfl rfl rfl rfl⟩

theorem wordOf_inj {o a b c o' a' b' c' : Byte} :
    wordOf o a b c = wordOf o' a' b' c' ↔ o = o' ∧ a = a' ∧ b = b' ∧ c = c' := by
  refine ⟨fun h => ⟨?_, ?_, ?_, ?_⟩, by rintro ⟨rfl, rfl, rfl, rfl⟩; rfl⟩
  · simpa using congrArg opcOf h
  · simpa using congrArg (immByte · 2) h
  · simpa using congrArg (immByte · 1) h
  · simpa using congrArg (immByte · 0) h

/-- A mask works byte by byte. -/
theorem wordOf_and (o a b c o' a' b' c' : Byte) :
    wordOf o a b c &&& wordOf o' a' b' c' = wordOf (o &&& o') (a &&& a') (b &&& b') (c &&& c') := by
  unfold wordOf
  rw [← BitVec.and_append, ← BitVec.and_append, ← BitVec.and_append]

/-! ## The must-be-zero check -/

/-- The check of R111 step 2 passes exactly where IMM is a number of the format's used bits. -/
theorem withZeroFrom_ok_iff {w : Word} {used : Nat} {i j : Instr} :
    withZeroFrom w used i = .ok j ↔ (immOf w).toNat < 2 ^ used ∧ i = j := by
  have hzero : immOf w >>> used = 0 ↔ (immOf w).toNat < 2 ^ used := by
    simp [← BitVec.toNat_inj, Nat.shiftRight_eq_div_pow]
  simp only [withZeroFrom, hzero]
  split <;> simp [*]

theorem withZeroFrom_ne_illegalCommand (w : Word) (used : Nat) (i : Instr) :
    withZeroFrom w used i ≠ .error .illegalCommand := by
  unfold withZeroFrom
  split <;> simp

theorem immByte_eq_zero {w : Word} {used k : Nat} (h : (immOf w).toNat < 2 ^ used) (hk : used ≤ 8 * k) :
    immByte w k = 0 := by
  have hlt : (immOf w).toNat < 2 ^ (8 * k) := h.trans_le (Nat.pow_le_pow_right (by decide) hk)
  apply BitVec.eq_of_toNat_eq
  rw [immByte_toNat, ← immOf_toNat, Nat.div_eq_of_lt hlt]
  rfl

/-! ## The round trip -/

theorem decode_encode {i : Instr} (hi : i.wellFormed = true) : decode (encode i) = .ok i := by
  cases i with
  | find p0 p1 p2 => simp [encode, decode]
  | x62 v =>
    have hv : v.toNat < 64 := by simpa [Instr.wellFormed] using hi
    simp [encode, decode, withZeroFrom_ok_iff, immOf_wordOf_toNat, hv]
  | u62 b => simp [encode, decode, withZeroFrom_ok_iff, immOf_wordOf_toNat, b.isLt]
  | x44 b => simp [encode, decode, withZeroFrom_ok_iff, immOf_wordOf_toNat, b.isLt]
  | u44 bo be =>
    have himm : 2 ^ 8 * bo.toNat + be.toNat < 2 ^ 16 := by omega
    simpa [encode, decode, withZeroFrom_ok_iff, immOf_wordOf_toNat] using himm
  | _ => rfl

theorem opcOf_eq_ofNat {w : Word} {n : Nat} (h : (opcOf w).toNat = n) : opcOf w = BitVec.ofNat 8 n :=
  (BitVec.toNat_eq_nat.1 h).2

/-- A command without operands, read from a word whose check passes, has that word. -/
theorem encode_of_noOperand {w : Word} {n : Nat} {i j : Instr} (ho : (opcOf w).toNat = n)
    (h : withZeroFrom w 0 i = .ok j) (hwf : i.wellFormed = true)
    (hi : encode i = wordOf (BitVec.ofNat 8 n) 0 0 0) : j.wellFormed = true ∧ encode j = w := by
  obtain ⟨himm, rfl⟩ := withZeroFrom_ok_iff.1 h
  have hzero (k : Nat) : immByte w k = 0 := immByte_eq_zero himm (Nat.zero_le _)
  exact ⟨hwf, hi.trans (wordOf_eq (opcOf_eq_ofNat ho) (hzero 2) (hzero 1) (hzero 0))⟩

theorem encode_of_decode {w : Word} {i : Instr} (h : decode w = .ok i) :
    i.wellFormed = true ∧ encode i = w := by
  unfold decode at h
  split at h
  case h_5 ho => -- FIND
    obtain rfl := Except.ok.inj h
    exact ⟨rfl, wordOf_eq (opcOf_eq_ofNat ho) rfl rfl rfl⟩
  case h_12 ho => -- X62
    obtain ⟨himm, rfl⟩ := withZeroFrom_ok_iff.1 h
    have hv : (immByte w 0).toNat < 64 := by
      rw [immOf_toNat] at himm
      rw [immByte_toNat]
      omega
    exact ⟨decide_eq_true hv, wordOf_eq (opcOf_eq_ofNat ho) (immByte_eq_zero himm (by decide))
      (immByte_eq_zero himm (by decide)) rfl⟩
  case h_13 ho | h_14 ho => -- U62, X44
    obtain ⟨himm, rfl⟩ := withZeroFrom_ok_iff.1 h
    exact ⟨rfl, wordOf_eq (opcOf_eq_ofNat ho) (immByte_eq_zero himm (by decide))
      (immByte_eq_zero himm (by decide)) rfl⟩
  case h_15 ho => -- U44
    obtain ⟨himm, rfl⟩ := withZeroFrom_ok_iff.1 h
    exact ⟨rfl, wordOf_eq (opcOf_eq_ofNat ho) (immByte_eq_zero himm (by decide)) rfl rfl⟩
  case h_18 => cases h -- the unlisted opcodes
  all_goals exact encode_of_noOperand ‹_› h rfl rfl

/-- The words that decode are the words of the well-formed commands, one word each. -/
theorem decode_ok_iff {w : Word} {i : Instr} : decode w = .ok i ↔ i.wellFormed = true ∧ encode i = w :=
  ⟨encode_of_decode, fun ⟨hwf, hw⟩ => hw ▸ decode_encode hwf⟩

/-! ## The rows of the opcode map -/

theorem encode_matches_row : ∀ i : Instr, Laws.EncodesRow.Statement i
  | .crst => Laws.EncodesRow.crst
  | .nbit => Laws.EncodesRow.nbit
  | .nbyte => Laws.EncodesRow.nbyte
  | .mat => Laws.EncodesRow.mat
  | .find p0 p1 p2 => Laws.EncodesRow.find p0 p1 p2
  | .selv => Laws.EncodesRow.selv
  | .scan => Laws.EncodesRow.scan
  | .da44 => Laws.EncodesRow.da44
  | .da35 => Laws.EncodesRow.da35
  | .dd16 => Laws.EncodesRow.dd16
  | .ed16 => Laws.EncodesRow.ed16
  | .x62 v => Laws.EncodesRow.x62 v
  | .u62 b => Laws.EncodesRow.u62 b
  | .x44 b => Laws.EncodesRow.x44 b
  | .u44 bo be => Laws.EncodesRow.u44 bo be
  | .dd13 => Laws.EncodesRow.dd13
  | .dd35 => Laws.EncodesRow.dd35

/-- A word that decodes matches the row of its command under the row's mask. -/
theorem row_of_decode {w : Word} {i : Instr} (h : decode w = .ok i) :
    ∃ r, opcodeRows[i.row]? = some r ∧ w &&& r.2 = r.1 := by
  obtain ⟨hwf, rfl⟩ := encode_of_decode h
  exact encode_matches_row i hwf

/-- A row's mask holds all of OPC and its match no IMM bit, so a match fixes OPC and the masked bits of each
IMM byte. -/
theorem bytes_of_match {w mask m : Word} {o ma mb mc : Byte} (h : w &&& mask = m)
    (hmask : mask = wordOf (BitVec.allOnes 8) ma mb mc) (hm : m = wordOf o 0 0 0) :
    opcOf w = o ∧ immByte w 2 &&& ma = 0 ∧ immByte w 1 &&& mb = 0 ∧ immByte w 0 &&& mc = 0 := by
  obtain ⟨o', a, b, c, rfl⟩ := exists_wordOf w
  rw [hmask, hm, wordOf_and, wordOf_inj, BitVec.and_allOnes] at h
  simpa using h

/-- The full mask selects one word. -/
theorem decode_of_match_all {w m : Word} {i : Instr} (hm : decode m = .ok i) (h : w &&& 0xFFFFFFFF = m) :
    ∃ j, decode w = .ok j ∧ j.row = i.row :=
  ⟨i, by rwa [show w = m from (BitVec.and_allOnes (x := w)).symm.trans h], rfl⟩

theorem decode_of_match_find {w : Word} (h : w &&& 0xFF000000 = 0x05000000) :
    ∃ i, decode w = .ok i ∧ i.row = 4 := by
  obtain ⟨ho, -⟩ := bytes_of_match (o := 5) (ma := 0) (mb := 0) (mc := 0) h (by decide) (by decide)
  exact ⟨.find _ _ _, decode_ok_iff.2 ⟨rfl, wordOf_eq ho rfl rfl rfl⟩, rfl⟩

theorem lt_64_of_and_eq_zero : ∀ v : Byte, v &&& 0xC0 = 0 → v.toNat < 64 := by decide +kernel

theorem decode_of_match_x62 {w : Word} (h : w &&& 0xFFFFFFC0 = 0x0C000000) :
    ∃ i, decode w = .ok i ∧ i.row = 11 := by
  obtain ⟨ho, ha, hb, hc⟩ :=
    bytes_of_match (o := 0x0C) (ma := .allOnes 8) (mb := .allOnes 8) (mc := 0xC0) h (by decide) (by decide)
  rw [BitVec.and_allOnes] at ha hb
  exact ⟨.x62 _, decode_ok_iff.2 ⟨decide_eq_true (lt_64_of_and_eq_zero _ hc), wordOf_eq ho ha hb rfl⟩, rfl⟩

/-- A mask that leaves out one IMM byte selects the words of a one-byte command. -/
theorem wordOf_of_match_one {w m : Word} {o : Byte} (h : w &&& 0xFFFFFF00 = m) (hm : m = wordOf o 0 0 0) :
    wordOf o 0 0 (immByte w 0) = w := by
  obtain ⟨ho, ha, hb, -⟩ := bytes_of_match (ma := .allOnes 8) (mb := .allOnes 8) (mc := 0) h (by decide) hm
  rw [BitVec.and_allOnes] at ha hb
  exact wordOf_eq ho ha hb rfl

theorem decode_of_match_u44 {w : Word} (h : w &&& 0xFFFF0000 = 0x0F000000) :
    ∃ i, decode w = .ok i ∧ i.row = 14 := by
  obtain ⟨ho, ha, -⟩ :=
    bytes_of_match (o := 0x0F) (ma := .allOnes 8) (mb := 0) (mc := 0) h (by decide) (by decide)
  rw [BitVec.and_allOnes] at ha
  exact ⟨.u44 _ _, decode_ok_iff.2 ⟨rfl, wordOf_eq ho ha rfl rfl⟩, rfl⟩

/-- A word that matches a row decodes to a command of the row. -/
theorem decode_of_match {w : Word} : ∀ {k : Nat} {r : Word × Word}, opcodeRows[k]? = some r → w &&& r.2 = r.1 →
    ∃ i, decode w = .ok i ∧ i.row = k
  | 0, _, rfl, h => decode_of_match_all (i := .crst) rfl h
  | 1, _, rfl, h => decode_of_match_all (i := .nbit) rfl h
  | 2, _, rfl, h => decode_of_match_all (i := .nbyte) rfl h
  | 3, _, rfl, h => decode_of_match_all (i := .mat) rfl h
  | 4, _, rfl, h => decode_of_match_find h
  | 5, _, rfl, h => decode_of_match_all (i := .selv) rfl h
  | 6, _, rfl, h => decode_of_match_all (i := .scan) rfl h
  | 7, _, rfl, h => decode_of_match_all (i := .da44) rfl h
  | 8, _, rfl, h => decode_of_match_all (i := .da35) rfl h
  | 9, _, rfl, h => decode_of_match_all (i := .dd16) rfl h
  | 10, _, rfl, h => decode_of_match_all (i := .ed16) rfl h
  | 11, _, rfl, h => decode_of_match_x62 h
  | 12, _, rfl, h => ⟨.u62 _, decode_ok_iff.2 ⟨rfl, wordOf_of_match_one h (by decide)⟩, rfl⟩
  | 13, _, rfl, h => ⟨.x44 _, decode_ok_iff.2 ⟨rfl, wordOf_of_match_one h (by decide)⟩, rfl⟩
  | 14, _, rfl, h => decode_of_match_u44 h
  | 15, _, rfl, h => decode_of_match_all (i := .dd13) rfl h
  | 16, _, rfl, h => decode_of_match_all (i := .dd35) rfl h

/-! ## Words that are no command -/

/-- The opcodes that R114 lists are 0x01 to 0x11 (R115). -/
theorem decode_illegalCommand_iff {w : Word} :
    decode w = .error .illegalCommand ↔ (opcOf w).toNat = 0 ∨ 0x12 ≤ (opcOf w).toNat := by
  unfold decode
  split
  case h_5 => exact iff_of_false nofun (by omega) -- FIND, whose format has no must-be-zero bit
  case h_18 => exact iff_of_true rfl (by simp only [imp_false] at *; omega) -- the unlisted opcodes
  all_goals exact iff_of_false (withZeroFrom_ne_illegalCommand _ _ _) (by omega)

/-- A listed opcode in a word that matches no row: a must-be-zero bit is 1 (R116). -/
theorem decode_badOperand {w : Word} (h1 : 1 ≤ (opcOf w).toNat) (h11 : (opcOf w).toNat ≤ 0x11)
    (hmask : ∀ r ∈ opcodeRows, w &&& r.2 ≠ r.1) : decode w = .error .badOperand := by
  cases hd : decode w with
  | ok i =>
    obtain ⟨r, hr, hmatch⟩ := row_of_decode hd
    exact absurd hmatch (hmask r (List.mem_of_getElem? hr))
  | error x =>
    cases x with
    | badOperand => rfl
    | illegalCommand =>
      have := decode_illegalCommand_iff.1 hd
      omega

namespace Machine

open Sys2Proof.Certificates

theorem issue_illegalCommand {w : Word} (s : State) (h : decode w = .error .illegalCommand) :
    EndsInError (issue s w) s .illegalCommand := by
  rw [issue, h]
  exact State.command_endsInError (body := fun _ e => .raised .illegalCommand e) rfl

theorem issue_badOperand {w : Word} (s : State) (h : decode w = .error .badOperand) :
    EndsInError (issue s w) s .badOperand := by
  rw [issue, h]
  exact State.command_endsInError (body := fun _ e => .raised .badOperand e) rfl

end Machine

/-! ## The obligations -/

/-- Settles O1: the decoder reads back each byte that the encoder writes, and every check passes. -/
theorem decodeOfEncode : Obligations.DecodeOfEncode := fun _ => decode_encode

/-- Settles O2: the opcode, the operand bytes and the zero bytes that the check leaves make up the word. -/
theorem encodeOfDecode : Obligations.EncodeOfDecode := fun _ _ => encode_of_decode

/-- Settles O3: the word of a command matches the command's row, and a match fixes every byte that holds no
operand. -/
theorem wordSelectsByMatchAndMask : Obligations.WordSelectsByMatchAndMask := by
  refine fun w k r hr => ⟨?_, decode_of_match hr⟩
  rintro ⟨i, hi, rfl⟩
  obtain ⟨r', hr', hmatch⟩ := row_of_decode hi
  obtain rfl := Option.some.inj (hr.symm.trans hr')
  exact hmatch

/-- Settles O4: each kind of word has its decode error, and a rejected word raises it before any write. -/
theorem rejectedWordChangesOnlyErr : Obligations.RejectedWordChangesOnlyErr := fun _ s =>
  ⟨fun h => Machine.issue_illegalCommand s (decode_illegalCommand_iff.2 h),
    fun h1 h11 hmask => Machine.issue_badOperand s (decode_badOperand h1 h11 hmask)⟩

/-- Settles O5: each word is the encoding of its command. -/
theorem sampleWordsDecode : Obligations.SampleWordsDecode :=
  ⟨decode_encode (i := .nbyte) rfl, decode_encode (i := .find 0xD5 0xAA 0x96) rfl,
    decode_encode (i := .scan) rfl, decode_encode (i := .dd16) rfl, decode_encode (i := .x62 0x3F) rfl,
    decode_encode (i := .u44 0xFF 0xAE) rfl⟩

end Sys2Proof
end

section
/-! PROOFS. The TrackCursor's reads: CRST, the self-sync byte that NBYTE returns, the rule's own loop of SyncByte, the
places of the decoded array's bytes on the unwrapped bit stream, and searches (R140 to R150); and the frame of the
commands that store nothing. -/

namespace Sys2Proof.Machine

open Sys2Proof.Certificates

/-! ## The rule's loop of SyncByte -/

/-- The highest 1 bit of the accumulator is bit `k`. -/
def LeadingBit (k : Nat) (acc : Byte) : Prop := ∀ i < 8, k ≤ i → acc.getLsbD i = decide (i = k)

theorem leadingBit_one : LeadingBit 0 1 := by
  unfold LeadingBit
  decide

theorem LeadingBit.ne_zero {k : Nat} {acc : Byte} (h : LeadingBit k acc) (hk : k < 8) : acc ≠ 0 := by
  rintro rfl
  simpa using h k hk (Nat.le_refl k)

/-- One more bit moves the highest 1 bit up. -/
theorem LeadingBit.shiftIn {k : Nat} {acc : Byte} (h : LeadingBit k acc) (b : Bool) :
    LeadingBit (k + 1) ((acc <<< 1) ||| BitVec.setWidth 8 (BitVec.ofBool b)) := by
  intro i hi hki
  rw [shiftIn_getLsbD _ _ _ hi, if_neg (by omega), h (i - 1) (by omega) (by omega)]
  exact decide_eq_decide.2 (by omega)

/-- From its first 1 bit on the rule's loop shifts bits in until bit 7 is set (R146). -/
theorem syncLoop_shift {m : Memory} {bc : Nat} :
    ∀ (n fuel pos z w : Nat) (acc : Byte), LeadingBit (6 - n) acc → n < 7 → n + 1 ≤ fuel →
      syncLoop m bc fuel pos z w acc = some (syncShift m bc (n + 1) pos w acc)
  | _, 0, _, _, _, _, _, _, hf => absurd hf (by omega)
  | n, fuel + 1, pos, z, w, acc, hacc, hn, hf => by
    rw [syncLoop, syncShift]
    cases nextBit m bc pos with
    | error f => rfl
    | ok r =>
      have hlead := hacc.shiftIn r.bit
      have hne := hlead.ne_zero (by omega)
      simp only [hne, false_and, if_false]
      rw [hlead 7 (by omega) (by omega)]
      rcases n with _ | n
      · rfl
      · rw [show 6 - (n + 1) + 1 = 6 - n by omega] at hlead ⊢
        rw [if_neg (by simp; omega)]
        exact syncLoop_shift n fuel _ _ _ _ hlead (by omega) (by omega)

/-- Before its first 1 bit the rule's loop counts the zero bits up to BITCOUNT (R146). -/
theorem syncLoop_skip {m : Memory} {bc : Nat} :
    ∀ (left fuel pos z w : Nat), z + (left + 1) = bc → left + 8 ≤ fuel →
      syncLoop m bc fuel pos z w 0 = some (syncSkip m bc (left + 1) pos w)
  | _, 0, _, _, _, _, hf => absurd hf (by omega)
  | left, fuel + 1, pos, z, w, hz, hf => by
    rw [syncLoop, syncSkip]
    cases nextBit m bc pos with
    | error f => rfl
    | ok r =>
      obtain ⟨b, p, x⟩ := r
      cases b with
      | true => simpa using syncLoop_shift 6 fuel p z (w + x) 1 leadingBit_one (by omega) (by omega)
      | false =>
        rcases left with _ | left
        · simp [syncSkip, hz]
        · have hne : z + 1 ≠ bc := by omega
          simpa [hne] using syncLoop_skip left fuel p (z + 1) (w + x) (by omega) (by omega)

/-! ## NBYTE -/

/-- The zero bits before a 1 bit are those that a self-sync read skips. -/
theorem SyncAt.gap_eq {m : Memory} {bc u k j : Nat} {v : Byte} (h : SyncAt m bc u j v)
    (hz : ∀ i < k, trackBit m ((u + i) % bc) = .ok false) (h1 : trackBit m ((u + k) % bc) = .ok true) : j = k := by
  obtain ⟨-, hzj, h7, hb⟩ := h
  rcases Nat.lt_trichotomy j k with hlt | heq | hgt
  · have h0 := (hb 0 (by omega)).symm.trans (hz j hlt)
    rw [h7] at h0
    cases h0
  · exact heq
  · cases h1.symm.trans (hzj k hgt)

/-- NBYTE where a byte starts: the byte, and the cursor after its eight bits (R142, R146). -/
theorem execNbyte_byte {s : State} {k : Nat} {v : Byte} (hl : TrackLoaded s.params s.cur) (hc : CursorOk s.cur)
    (h : SyncAt s.cur.mem s.cur.bitcount.toNat s.cur.bitpos.toNat k v) :
    execNbyte s = .next { s with cur := { s.cur with
      err := .noError
      bitpos := BitVec.ofNat 32 ((s.cur.bitpos.toNat + k + 8) % s.cur.bitcount.toNat)
      revs := s.cur.revs + BitVec.ofNat 32 ((s.cur.bitpos.toNat + k + 8) / s.cur.bitcount.toNat)
      result := v.setWidth 32 } } := by
  have hlt := hc.lt hl.pos
  have hsync := syncByte_stream hl.pos h
  rw [Nat.mod_eq_of_lt hlt, Nat.div_eq_of_lt hlt, Nat.sub_zero] at hsync
  refine (State.command_done (e := (s.cur.clearErr.moveCursor _ _).setResult (v.setWidth 32)) ?_).trans rfl
  rw [TrackLoaded.ready (e := s.cur.clearErr) hl]
  simp only [Engine.clearErr_mem, Engine.clearErr_bitpos, Engine.clearErr_bitcount, hsync]

/-! ## The decoded array on the stream -/

/-- Byte `v` is read from bit `a` of the stream on, zero bits skipped, and ends before bit `b`. -/
def ReadBetween (m : Memory) (bc a b : Nat) (v : Byte) : Prop := ∃ k, b = a + k + 8 ∧ SyncAt m bc a k v

/-- What a byte read between two places says of the bits between them (R146). -/
theorem ReadBetween.bits {m : Memory} {bc a b : Nat} {v : Byte} (h : ReadBetween m bc a b v) :
    a + 8 ≤ b ∧ b < a + 8 + bc ∧ (∀ i, a ≤ i → i + 8 < b → trackBit m (i % bc) = .ok false) ∧
      v.getLsbD 7 = true ∧ ∀ j < 8, trackBit m ((b - 8 + j) % bc) = .ok (v.getLsbD (7 - j)) := by
  obtain ⟨k, rfl, hk, hz, h7, hb⟩ := h
  refine ⟨by omega, by omega, fun i h1 h2 => ?_, h7, fun j hj => ?_⟩
  · have := hz (i - a) (by omega)
    rwa [Nat.add_sub_cancel' h1] at this
  · rw [Nat.add_sub_cancel]
    exact hb j hj

/-- The place that `f` gives each byte, the first byte's place `u` before them. -/
def placesFrom (u : Nat) (f : Nat → Nat) : Nat → Nat
  | 0 => u
  | j + 1 => f j

/-- The bytes of an array stand one after the other on the stream (R143). -/
theorem syncBytes_places {m : Memory} {bc : Nat} (hbc : 0 < bc) :
    ∀ (n u : Nat) {ys : List Byte}, syncBytes m bc n (u % bc) = .ok ys →
      ∃ start : Nat → Nat, start 0 = u ∧ ∀ j < n, ReadBetween m bc (start j) (start (j + 1)) (ys.getD j 0)
  | 0, u, _, _ => ⟨fun _ => u, rfl, by simp⟩
  | n + 1, u, ys, h => by
    obtain ⟨k, v, zs, hv, rfl, hzs⟩ := syncBytes_cons hbc h
    obtain ⟨start, h0, hstart⟩ := syncBytes_places hbc n _ hzs
    refine ⟨placesFrom u start, rfl, fun j hj => ?_⟩
    rcases j with _ | j
    · exact ⟨k, h0, hv⟩
    · exact hstart j (by omega)

/-! ## Frames -/

section
variable {s t : State}

theorem execNbit_frame (h : execNbit s = .next t) :
    t = { s with cur := { s.cur with
      err := t.cur.err, anyErr := t.cur.anyErr, bitpos := t.cur.bitpos, revs := t.cur.revs,
      result := t.cur.result } } := by
  rcases State.command_next h with ⟨e, he, rfl⟩ | ⟨c, e, he, rfl⟩ <;> split at he
  · cases he
  · split at he <;> cases he
    rfl
  · cases he
    rfl
  · split at he <;> cases he

theorem execNbyte_frame (h : execNbyte s = .next t) :
    t = { s with cur := { s.cur with
      err := t.cur.err, anyErr := t.cur.anyErr, bitpos := t.cur.bitpos, revs := t.cur.revs,
      result := t.cur.result } } := by
  rcases State.command_next h with ⟨e, he, rfl⟩ | ⟨c, e, he, rfl⟩ <;> split at he
  · cases he
  · split at he <;> cases he
    rfl
  · cases he
    rfl
  · split at he <;> cases he
    rfl

theorem execU62_frame {b : Byte} (h : execU62 b s = .next t) :
    t = { s with cur := { s.cur with
      err := t.cur.err, anyErr := t.cur.anyErr, result := t.cur.result } } := by
  rcases State.command_next h with ⟨e, he, rfl⟩ | ⟨c, e, he, rfl⟩ <;> split at he <;> cases he <;> rfl

end

/-! ## The obligations -/

/-- Settles O26: both registers are written on the engine whose ERR is cleared. -/
theorem crstResetsCursor : Obligations.CrstResetsCursor :=
  ⟨decode_encode (i := .crst) rfl, fun _ => rfl⟩

/-- Settles O28: the byte of the track's next self-sync read starts at the first 1 bit, and `k` is its gap. -/
theorem nbyteReadsNextSyncByte : Obligations.NbyteReadsNextSyncByte := by
  intro s k hl hc _ hz h1
  obtain ⟨j, v, hv⟩ := syncAt_exists (u := s.cur.bitpos.toNat) hl.pos hl.bits ⟨_, Nat.mod_lt _ hl.pos, h1⟩
  obtain rfl := hv.gap_eq hz h1
  have hrun : exec .nbyte s = _ := execNbyte_byte hl hc hv
  obtain ⟨-, -, -, hbits⟩ := hv
  exact ⟨v, hbits, hrun⟩

/-- Settles O30: the loop runs as the skip of zero bits until the accumulator is nonzero, and as the shift after. -/
theorem syncByteIsSpecLoop : Obligations.SyncByteIsSpecLoop := by
  intro m bc pos hbc
  obtain ⟨n, rfl⟩ : ∃ n, bc = n + 1 := ⟨bc - 1, by omega⟩
  exact syncLoop_skip n _ pos 0 0 (by omega) (by omega)

/-- Settles O32: the bytes stand one after the other, each at least eight bits long. -/
theorem decodedArrayFollowsTrack : Obligations.DecodedArrayFollowsTrack := by
  intro m bc ys hbc h
  have hlen : ys.length = (bc + 7) / 8 + 600 := syncBytes_length h
  obtain ⟨start, h0, hread⟩ := syncBytes_places hbc (decodedLength bc) 0 (by rwa [Nat.zero_mod])
  have hplace : ∀ j, j < decodedLength bc → 8 * j ≤ start j := by
    intro j
    induction j with
    | zero => omega
    | succ j ih =>
      intro hj
      have := ih (by omega)
      have := (hread j (by omega)).bits.1
      omega
  refine ⟨start, h0, fun j hj => (hread j hj).bits, fun j hj => ⟨hplace j hj, fun hlt => ?_⟩⟩
  have := hplace j hj
  omega

/-- Settles O33: two tracks of the same bits read alike from any place, and from bit 0. -/
theorem decodedArrayDependsOnTrackAlone : Obligations.DecodedArrayDependsOnTrackAlone := by
  intro m r bc n h hbc
  have := syncBytes_congr hbc h n 0
  rwa [Nat.zero_mod] at this

/-- Settles O34: what FindFn answers is the first occurrence, and an occurrence keeps it from answering none. -/
theorem findFnIsFirstOccurrence : Obligations.FindFnIsFirstOccurrence := by
  intro d s p
  refine ⟨fun o => ⟨findFn_some, ?_⟩, findFn_none, fun hno => ?_⟩
  · rintro ⟨hle, hat, hfirst⟩
    cases hf : findFn d s p with
    | none => exact absurd hat (findFn_none hf o hle)
    | some x =>
      obtain ⟨hlex, hatx, hfirstx⟩ := findFn_some hf
      rcases Nat.lt_trichotomy x o with hlt | rfl | hgt
      · exact absurd hatx (hfirst x hlex hlt)
      · rfl
      · exact absurd hat (hfirstx o hle hgt)
  · cases hf : findFn d s p with
    | none => rfl
    | some x =>
      obtain ⟨hle, hat, -⟩ := findFn_some hf
      exact absurd hat (hno x hle)

/-- Settles O57: CRST, X62, X44 and U44 complete with RESULT or the cursor written, and the others end in one of the
outcomes of their checks. -/
theorem registerCommandsFrame : Obligations.RegisterCommandsFrame := by
  intro s t
  refine ⟨fun h => ?_, fun h => h.elim execNbit_frame execNbyte_frame, fun v h => ?_, fun b => execU62_frame,
    fun b h => ?_, fun bo be h => ?_⟩ <;>
    (obtain rfl := Host.Outcome.next.inj h; rfl)

end Sys2Proof.Machine
end

section
/-! PROOFS. The SectorCodec's decoders (R211, R240 to R263): the 6-and-2 table read backwards, the end of a command over
the decoded array, the address fields, and the open data decoders. -/

namespace Sys2Proof.Machine

open Sys2Proof.Certificates

/-! ## The 6-and-2 table -/

/-- A legal table has no byte twice, so the byte of a value has that value (R218, R219). -/
theorem unx62_x62f {P : Params} (hP : P.Ok) (v : BitVec 6) : unx62 P (x62f P v) = .ok v := by
  obtain ⟨-, -, hmono, -⟩ := hP
  have hidx : P.xlate62.toList.findIdx? (· == x62f P v) = some v.toNat := by
    have hv : v.toNat < P.xlate62.toList.length := by simpa using v.isLt
    refine List.findIdx?_eq_some_iff_getElem.2 ⟨hv, by simp [x62f], fun j hj heq => ?_⟩
    have hlt := List.pairwise_iff_getElem.1 hmono j v.toNat (by omega) hv hj
    simp only [Vector.getElem_toList, x62f, beq_iff_eq] at heq hlt
    rw [heq] at hlt
    exact Nat.lt_irrefl _ hlt
  rw [unx62, hidx]
  simp

/-- A byte outside L62 has no value (R213, R214). -/
theorem unx62_of_illegal {P : Params} {b : Byte} (h : legal62 P b = false) : unx62 P b = .error .illegalNibble := by
  have hidx : P.xlate62.toList.findIdx? (· == b) = none := by
    refine List.findIdx?_eq_none_iff.2 fun x hx => ?_
    simp only [beq_eq_false_iff_ne]
    rintro rfl
    simp only [legal62, List.contains_eq_mem, hx, decide_true] at h
    cases h
  rw [unx62, hidx]

/-- The one way in which a byte has no value. -/
theorem unx62_error {P : Params} {b : Byte} {f : FieldError} (h : unx62 P b = .error f) : f = .illegalNibble := by
  unfold unx62 at h
  split at h <;> cases h
  rfl

/-! ## The end of a command over the decoded array -/

/-- With an array to read, every command over it goes on with one engine, at the offset OPA (R147). -/
theorem command_dbufReady {s : State} (h : DbufReady s.params s.cur) :
    ∃ e, ensureDbuf s.params { s.cur with err := .noError } = .ok e ∧ opaOffset e = s.cur.opa.toNat ∧
      ∀ rest : Params → Engine → CmdEnd,
        s.command (fun P e => withDbuf P e (rest P)) = s.finish (rest s.params e) := by
  obtain ⟨e, he⟩ := DbufReady.ok (e := s.cur.clearErr) h
  exact ⟨e, he, congrArg BitVec.toNat (ensureDbuf_operands he).1, fun _ => command_dbufOk he⟩

section
variable {s : State} {e : Engine}

theorem finish_fieldEnd_ok {r : Except FieldError AddrField} {f : AddrField} (h : r = .ok f) :
    s.finish (fieldEnd e r) = .next { s with cur := e.setField f } := by
  rw [h]
  rfl

theorem finish_fieldEnd_error {r : Except FieldError AddrField} {f : FieldError} (h : r = .error f) :
    s.finish (fieldEnd e r) = .next { s with cur := withError e (errOfField f) } := by
  rw [h]
  rfl

theorem finish_payloadEnd_error {r : Except FieldError (List Byte)} {f : FieldError} (h : r = .error f) :
    s.finish (payloadEnd e r) = .next { s with cur := withError e (errOfField f) } := by
  rw [h]
  rfl

/-- A decoded payload stands from WBUF[0] on, and nothing else changes (R54). -/
theorem finish_payloadEnd_ok {r : Except FieldError (List Byte)} {p : List Byte} (h : r = .ok p) :
    ∃ mem', s.finish (payloadEnd e r) = .next { s with cur := { e with mem := mem' } } ∧
      (∀ c < p.length, mem'.read (wbufBase + c) = p[c]?) ∧
      ∀ x, Outside wbufBase p.length x → mem'.read x = e.mem.read x := by
  rw [h]
  refine ⟨_, rfl, fun c hc => ?_, fun x hx => Memory.read_store_outside _ _ _ _ _ hx⟩
  rw [Memory.read_store_self _ _ _ _ hc]
  simp [hc]

end

/-! ## Address fields -/

/-- The word AFA of a 3.5" field, its track and side put together from the bits of two values (R243, R45). -/
theorem afaOf_fieldOf35 (b1 sec b3 fmt chk : BitVec 6) :
    afaOf (fieldOf35 b1 sec b3 fmt chk) =
      (b3.extractLsb' 5 1).setWidth 8 ++ sec.setWidth 8 ++ ((b3.extractLsb' 0 5 ++ b1).setWidth 16) := by
  have hside : (b3.setWidth 8 &&& 0x20) >>> 5 = (b3.extractLsb' 5 1).setWidth 8 := by
    revert b3
    decide
  have htrack : (b1.setWidth 16 &&& 0x3F) ||| ((b3.setWidth 16 &&& 0x1F) <<< 6) =
      (b3.extractLsb' 0 5 ++ b1).setWidth 16 := by
    refine BitVec.eq_of_getLsbD_eq fun i hi => ?_
    rw [BitVec.getLsbD_setWidth, BitVec.getLsbD_append]
    interval_cases i <;> simp
  rw [← hside, ← htrack]
  rfl

/-- A 3.5" field of which one byte is outside L62 is decoded no further (R243). -/
theorem decode35Addr_illegal {P : Params} {d : List Byte} {a : Nat} (h : a + 8 ≤ d.length)
    (hk : ∃ k < 5, legal62 P (d.getD (a + 3 + k) 0) = false) : decode35Addr P d a = .error .illegalNibble := by
  rw [decode35Addr, if_neg (by omega)]
  split
  · obtain ⟨k, hk, hf⟩ := hk
    have hf := unx62_of_illegal hf
    interval_cases k <;> simp_all
  · rfl

/-- A 3.5" field whose bytes carry five values (R243). -/
theorem decode35Addr_ok {P : Params} (hP : P.Ok) {d : List Byte} {a : Nat} {b1 sec b3 fmt chk : BitVec 6}
    (h : a + 8 ≤ d.length) (hd : [b1, sec, b3, fmt, chk].map (x62f P) = (d.drop (a + 3)).take 5) :
    decode35Addr P d a = .ok (fieldOf35 b1 sec b3 fmt chk) := by
  have hget : ∀ k v, [b1, sec, b3, fmt, chk][k]? = some v → unx62 P (d.getD (a + 3 + k) 0) = .ok v := by
    intro k v hv
    have hk : k < 5 := (List.getElem?_eq_some_iff.1 hv).1
    have hb : ((d.drop (a + 3)).take 5)[k]? = some (x62f P v) := by rw [← hd, List.getElem?_map, hv, Option.map_some]
    rw [List.getElem?_take_of_lt hk, List.getElem?_drop] at hb
    rw [List.getD_eq_getElem?_getD, hb]
    exact unx62_x62f hP v
  rw [decode35Addr, if_neg (by omega), hget 0 b1 rfl, hget 1 sec rfl, hget 2 b3 rfl, hget 3 fmt rfl, hget 4 chk rfl]

/-! ## The commands -/

section
variable (s : State)

theorem exec_da44 : exec .da44 s =
    s.command fun P e => withDbuf P e fun e => fieldEnd e (decode44Addr (decodedArray e) (opaOffset e)) := rfl

theorem exec_da35 : exec .da35 s =
    s.command fun P e => withDbuf P e fun e => fieldEnd e (decode35Addr P (decodedArray e) (opaOffset e)) := rfl

theorem exec_dd16 : exec .dd16 s =
    s.command fun P e => withDbuf P e fun e => payloadEnd e (decodeData16 P (decodedArray e) (opaOffset e)) := rfl

theorem exec_dd13 : exec .dd13 s =
    s.command fun P e => withDbuf P e fun e => openEnd e (decodeData13 P (decodedArray e) (opaOffset e)) := rfl

theorem exec_dd35 : exec .dd35 s =
    s.command fun P e => withDbuf P e fun e => openEnd e (decodeData35 P (decodedArray e) (opaOffset e)) := rfl

end

/-! ## The obligations -/

/-- Settles O50: DA44 ends as the field decoder does on the array at OPA. -/
theorem da44ReportsAddressField : Obligations.Da44ReportsAddressField := by
  intro s
  rw [exec_da44]
  refine ⟨fun c h => command_dbufError h, fun h => ?_⟩
  obtain ⟨e, he, hopa, hrun⟩ := command_dbufReady h
  refine ⟨e, he, ?_⟩
  rw [hrun, hopa]
  intro d a value
  have hlen := decodedArray_length e
  exact ⟨fun hlt => finish_fieldEnd_error (if_pos (by omega)),
    fun hle => (finish_fieldEnd_ok (if_neg (by omega))).trans rfl⟩

/-- Settles O51: DA35 ends as the field decoder does on the array at OPA. -/
theorem da35ReportsAddressField : Obligations.Da35ReportsAddressField := by
  intro s hP
  rw [exec_da35]
  refine ⟨fun c h => command_dbufError h, fun h => ?_⟩
  obtain ⟨e, he, hopa, hrun⟩ := command_dbufReady h
  refine ⟨e, he, ?_⟩
  rw [hrun, hopa]
  intro d a
  have hlen := decodedArray_length e
  refine ⟨fun hlt => finish_fieldEnd_error (if_pos (by omega)),
    fun hle hk => finish_fieldEnd_error (decode35Addr_illegal (hle.trans_eq hlen.symm) hk),
    fun b1 sec b3 fmt chk hle hd => ?_⟩
  rw [finish_fieldEnd_ok (decode35Addr_ok hP (hle.trans_eq hlen.symm) hd), Engine.setField, afaOf_fieldOf35]
  rfl

/-- Settles O56: DD13 and DD35 end as their parameter answers on the bytes from OPA on. -/
theorem openDecodersFollowParameter : Obligations.OpenDecodersFollowParameter := by
  intro s
  refine ⟨fun c h => ?_, fun h => ?_⟩
  · rw [exec_dd13, exec_dd35]
    exact ⟨command_dbufError h, command_dbufError h⟩
  obtain ⟨e, he, hopa, hrun⟩ := command_dbufReady h
  refine ⟨e, he, ?_⟩
  have h13 := (exec_dd13 s).trans (hrun _)
  have h35 := (exec_dd35 s).trans (hrun _)
  rw [hopa] at h13 h35
  intro bytes stored raised
  refine ⟨fun hp => ?_, fun hp => ?_, fun hp => ?_, fun hp => ?_⟩
  · rw [decodeData13, hp] at h13
    exact h13
  · rw [decodeData13, if_pos hp] at h13
    cases hr : Config.decode13 bytes with
    | ok v =>
      show ∃ mem', _ = Host.Outcome.next _ ∧ _
      rw [h13]
      exact finish_payloadEnd_ok (congrArg _ hr)
    | error f =>
      rw [hr] at h13
      cases f <;> exact h13
  · rw [decodeData35, hp] at h35
    exact h35
  · rw [decodeData35, if_pos hp] at h35
    cases hr : Config.decode35 bytes with
    | ok v =>
      show ∃ mem', _ = Host.Outcome.next _ ∧ _
      rw [h35]
      exact finish_payloadEnd_ok (congrArg _ hr)
    | error f =>
      rw [hr] at h35
      cases f <;> exact h35

end Sys2Proof.Machine
end

section
/-! PROOFS. The 16-sector data field (R250 to R254): XORs of lists, the decoder's backward chain as the forward running
XOR, and the payload that DD16 stores. -/

namespace Sys2Proof.Machine

open Sys2Proof.Certificates

/-! ## XORs of lists -/

@[simp] theorem xorAll_nil {n : Nat} : xorAll ([] : List (BitVec n)) = 0 := rfl

@[simp] theorem xorAll_cons {n : Nat} (v : BitVec n) (vs : List (BitVec n)) : xorAll (v :: vs) = v ^^^ xorAll vs := by
  rw [xorAll, List.foldl_cons, BitVec.xor_comm, List.foldl_assoc]
  rfl

@[simp] theorem xorAll_append {n : Nat} (vs ws : List (BitVec n)) :
    xorAll (vs ++ ws) = xorAll vs ^^^ xorAll ws := by
  induction vs with
  | nil => simp
  | cons v vs ih => rw [List.cons_append, xorAll_cons, xorAll_cons, ih, BitVec.xor_assoc]

/-- Where a list XORs to 0, what comes before a place XORs to what comes from it on. -/
theorem xorAll_drop {n : Nat} {vs : List (BitVec n)} (h : xorAll vs = 0) (i : Nat) :
    xorAll (vs.drop i) = xorAll (vs.take i) := by
  rw [← List.take_append_drop i vs, xorAll_append] at h
  exact (BitVec.xor_eq_zero_iff.1 h).symm

/-! ## The backward chain -/

/-- Entry `i` of the backward chain is the XOR of the values from `i` on (R251 step 2). -/
theorem backChain_getD : ∀ (ts : List Byte) (i : Nat), (backChain ts).getD i 0 = xorAll (ts.drop i)
  | [], i => by simp [backChain]
  | t :: ts, 0 => by
    have hhead : (backChain ts).head?.getD 0#8 = xorAll ts := by
      rw [List.head?_eq_getElem?, ← List.getD_eq_getElem?_getD]
      exact backChain_getD ts 0
    simp [backChain, hhead]
  | t :: ts, i + 1 => backChain_getD ts i

/-- The check of the backward chain passes exactly where all values XOR to 0 (R252, R254). -/
theorem backChain_check (t : List Byte) : (backChain t.tail).headD 0 = t.headD 0 ↔ xorAll t = 0 := by
  rw [List.headD_eq_head?_getD, List.head?_eq_getElem?, ← List.getD_eq_getElem?_getD, backChain_getD]
  cases t with
  | nil => simp
  | cons t ts =>
    rw [xorAll_cons]
    exact (BitVec.xor_eq_zero_iff.trans eq_comm).symm

/-- Where the check passes the backward chain is the forward running XOR (R254). -/
theorem backChain_forward {t : List Byte} (h : xorAll t = 0) (i : Nat) :
    (backChain t.tail).getD i 0 = xorAll (t.take (i + 1)) := by
  rw [backChain_getD, List.drop_tail, xorAll_drop h]

/-! ## Translated values -/

theorem translatedByte_eq_zero : ∀ v : BitVec 6, translatedByte v = 0 ↔ v = 0 := by decide

/-- Two bits of a value stand two places higher in its translated byte (R251 step 1). -/
theorem translatedByte_extract : ∀ (v : BitVec 6) (j : Nat), j < 3 →
    (translatedByte v).extractLsb' (2 * j + 2) 2 = v.extractLsb' (2 * j) 2 := by
  intro v j hj
  interval_cases j <;> revert v <;> decide

theorem xorAll_map_translatedByte (vs : List (BitVec 6)) :
    xorAll (vs.map translatedByte) = translatedByte (xorAll vs) := by
  induction vs with
  | nil => rfl
  | cons v vs ih =>
    rw [List.map_cons, xorAll_cons, xorAll_cons, ih]
    simp only [translatedByte, BitVec.setWidth_xor, BitVec.shiftLeft_xor_distrib]

/-- REV2 swaps its two bits (R245). -/
theorem rev2_eq_swapBits : ∀ g : BitVec 2, rev2 g = swapBits g := by decide

/-- The two low bits of payload byte `c` stand in auxiliary byte `c mod 86`, pair `c / 86` (R253). -/
theorem auxBits_eq (r : List Byte) {c : Nat} (hc : c < 256) :
    auxBits r c = (r.getD (c % 86) 0).extractLsb' (2 * (c / 86) + 2) 2 := by
  unfold auxBits
  split
  · rw [Nat.mod_eq_of_lt ‹_›, Nat.div_eq_of_lt ‹_›]
  · split
    · rw [show c % 86 = c - 86 by omega, show c / 86 = 1 by omega]
    · rw [show c % 86 = c - 172 by omega, show c / 86 = 2 by omega]

/-- A payload byte of the decoder is that of the forward form (R253, R254). -/
theorem payloadByte_eq {vs : List (BitVec 6)} (h : xorAll vs = 0) {c : Nat} (hc : c < 256) :
    payloadByte (backChain (vs.map translatedByte).tail) c = payloadFrom (forwardAt vs) c := by
  have hchain : ∀ i, (backChain (vs.map translatedByte).tail).getD i 0 = translatedByte (forwardAt vs i) := by
    intro i
    rw [backChain_forward (by rw [xorAll_map_translatedByte, h]; rfl), ← List.map_take, xorAll_map_translatedByte]
    rfl
  rw [payloadByte, auxBits_eq _ hc, hchain, hchain, translatedByte_extract _ _ (by omega), rev2_eq_swapBits]
  rfl

/-! ## The decoder -/

/-- Disk bytes that carry values are read back as them (R218, R251 step 1). -/
theorem unx62All_map {P : Params} (hP : P.Ok) (vs : List (BitVec 6)) : unx62All P (vs.map (x62f P)) = .ok vs := by
  induction vs with
  | nil => rfl
  | cons v vs ih => rw [List.map_cons, unx62All, unx62_x62f hP, ih]

/-- One byte outside L62 fails the field (R251 step 1). -/
theorem unx62All_illegal {P : Params} {bs : List Byte} (h : ∃ b ∈ bs, legal62 P b = false) :
    unx62All P bs = .error .illegalNibble := by
  induction bs with
  | nil => simp at h
  | cons x bs ih =>
    rw [unx62All]
    cases hx : unx62 P x with
    | error f => rw [unx62_error hx]
    | ok v =>
      obtain ⟨b, hb, hl⟩ := h
      rcases List.mem_cons.1 hb with rfl | hb
      · cases hx.symm.trans (unx62_of_illegal hl)
      · rw [ih ⟨b, hb, hl⟩]

/-- An array that ends inside the field (R250, R251). -/
theorem decodeData16_short {P : Params} {d : List Byte} {a : Nat} (h : ((d.drop (a + 3)).take 343).length < 343) :
    decodeData16 P d a = .error .readPastEnd := by
  simp only [List.length_take, List.length_drop] at h
  exact if_pos (show d.length < a + 3 + 343 by omega)

section
variable {P : Params} {d : List Byte} {a : Nat} (h : ((d.drop (a + 3)).take 343).length = 343)
include h

/-- With all 343 bytes there, the field is their translation and then the chain (R251). -/
theorem decodeData16_bind {r : Except FieldError (List (BitVec 6))}
    (hu : unx62All P ((d.drop (a + 3)).take 343) = r) :
    decodeData16 P d a = r.bind fun vs => payloadOf (vs.map translatedByte) := by
  simp only [List.length_take, List.length_drop] at h
  unfold decodeData16 data16Nibbles
  rw [if_neg (by omega), hu]
  cases r <;> rfl

/-- A byte outside L62 among the 343 (R251 step 1). -/
theorem decodeData16_illegal (hb : ∃ b ∈ (d.drop (a + 3)).take 343, legal62 P b = false) :
    decodeData16 P d a = .error .illegalNibble :=
  decodeData16_bind h (unx62All_illegal hb)

/-- The 343 bytes carry the values `vs` (R252 to R254). -/
theorem decodeData16_values (hP : P.Ok) {vs : List (BitVec 6)}
    (hvs : vs.map (x62f P) = (d.drop (a + 3)).take 343) :
    decodeData16 P d a =
      if xorAll vs = 0 then .ok ((List.range 256).map (payloadFrom (forwardAt vs))) else .error .sectorChecksum := by
  have hrun : decodeData16 P d a = payloadOf (vs.map translatedByte) :=
    decodeData16_bind h (hvs ▸ unx62All_map hP vs)
  simp only [hrun, payloadOf, backChain_check, xorAll_map_translatedByte, translatedByte_eq_zero]
  split
  · exact congrArg _ (List.map_congr_left fun c hc => payloadByte_eq ‹_› (List.mem_range.1 hc))
  · rfl

end

/-! ## The obligation -/

/-- Settles O52: DD16 ends as the field decoder does on the array at OPA, in the forward form of its chain. -/
theorem dd16DecodesDataField : Obligations.Dd16DecodesDataField := by
  intro s hP
  rw [exec_dd16]
  refine ⟨fun c h => command_dbufError h, fun h => ?_⟩
  obtain ⟨e, he, hopa, hrun⟩ := command_dbufReady h
  refine ⟨e, he, ?_⟩
  rw [hrun, hopa]
  intro field
  refine ⟨fun hlen => finish_payloadEnd_error (decodeData16_short hlen),
    fun hlen hb => finish_payloadEnd_error (decodeData16_illegal hlen hb), fun vs hlen hvs => ?_⟩
  have hdec := decodeData16_values ((congrArg List.length hvs).symm.trans (by simpa using hlen)) hP hvs
  refine ⟨fun hx => finish_payloadEnd_error (hdec.trans (if_neg hx)), fun hx => ?_⟩
  obtain ⟨mem', hend, hin, hout⟩ := finish_payloadEnd_ok (s := s) (e := e) (hdec.trans (if_pos hx))
  simp only [List.length_map, List.length_range] at hin hout
  refine ⟨mem', hend, fun c hc => ?_, hout⟩
  rw [hin c hc]
  simp [hc]

end Sys2Proof.Machine
end

section
/-! PROOFS. The TrackParser's SCAN (R170, R175 to R182): a scan without a legal CFG or without a track, its frame, its
walk over the array, what it records of each address field, and where it looks for the data field. -/

namespace Sys2Proof.Machine

open Sys2Proof.Certificates

/-! ## A scan that does not search -/

section
variable {s : State}

/-- SELV with an illegal CFG raises BadConfig before it writes (R170, R171). -/
theorem execSelv_badConfig (h : ¬CfgLegal s.cur) : EndsInError (exec .selv s) s .badConfig :=
  congrArg s.finish (if_neg fun hc => h (cfgOk_iff.1 hc))

/-- SCAN with an illegal CFG raises BadConfig after its start (R170, R175). -/
theorem execScan_badConfig (h : ¬CfgLegal s.cur) :
    exec .scan s = .next { s with cur := (startScan s.cur).raise .badConfig } :=
  congrArg s.finish (if_neg fun hc => h (cfgOk_iff.1 hc))

/-- SCAN of an absent track completes after its start (R175). -/
theorem execScan_noTrack (h : CfgLegal s.cur) (h0 : s.cur.bitcount = 0) :
    exec .scan s = .next { s with cur := ((startScan s.cur.clearErr).setVariant none).setStop .noTrack } :=
  congrArg s.finish ((if_pos (cfgOk_iff.2 (show CfgLegal (startScan s.cur.clearErr) from h))).trans (if_pos h0))

end

/-- Settles O36: SELV checks CFG before it writes, and SCAN after its start. -/
theorem badConfigStopsSelvAndScan : Obligations.BadConfigStopsSelvAndScan := by
  intro s h
  obtain ⟨hsect, hpbuf⟩ := startScan_zeroFrom s.cur
  exact ⟨execSelv_badConfig h, (startScan s.cur).mem, execScan_badConfig h, fun k hk => hsect k hk (by omega),
    fun k hk => hpbuf k hk (by omega), fun _ => startScan_read_outside s.cur⟩

/-- Settles O38: the table is the empty one of SCAN's start. -/
theorem scanOfAbsentTrackIsNoError : Obligations.ScanOfAbsentTrackIsNoError := by
  intro s h h0
  obtain ⟨hsect, hpbuf⟩ := startScan_zeroFrom s.cur
  exact ⟨(startScan s.cur).mem, execScan_noTrack h h0, fun k hk => hsect k hk (by omega),
    fun k hk => hpbuf k hk (by omega)⟩

/-! ## The frame -/

/-- SCAN of a present track is a command over DBUF, run after SCAN's start (R175). -/
theorem execScan_started {s : State} (hcfg : CfgLegal s.cur) (h0 : s.cur.bitcount ≠ 0) :
    exec .scan s = State.command { s with cur := startScan s.cur } fun P e => withDbuf P e (scanTrack P) :=
  (execScan_present hcfg h0).trans rfl

/-- A scan's search ends without a prologue, or with the table of some entries (R175). -/
theorem scanTrack_ends (P : Params) (e : Engine) :
    (∃ v, ∀ s : State, s.finish (scanTrack P e) = .next { s with cur := endWithoutPrologue e v }) ∨
      ∃ v r, ∀ s : State, s.finish (scanTrack P e) =
        .next { s with cur := endScan ((e.setVariant (some v)).setFound true) r } := by
  cases hv : selectVariant P e (decodedArray e) with
  | none => exact .inl ⟨none, fun _ => scanTrack_none hv⟩
  | some v =>
    by_cases ho : Occurs (prologueOf P v) (decodedArray e)
    · exact .inr ⟨v, _, fun _ => scanTrack_found hv ho⟩
    · exact .inl ⟨some v, fun _ => scanTrack_absent hv ho⟩

/-- Settles O60: SCAN's start and end store in SECT and PBUF, and EnsureDBUF between them in DBUF. -/
theorem scanFrame : Obligations.ScanFrame := by
  intro s t h
  have hstart := fun x h1 h2 => startScan_read_outside s.cur (x := x) h1 h2
  by_cases hcfg : CfgLegal s.cur
  · by_cases h0 : s.cur.bitcount = 0
    · obtain rfl := Host.Outcome.next.inj ((execScan_noTrack hcfg h0).symm.trans h)
      exact ⟨rfl, fun x h1 h2 _ => hstart x h1 h2⟩
    · rcases command_dbufNext ((execScan_started hcfg h0).symm.trans h) with ⟨c, -, rfl⟩ | ⟨e, he, h⟩
      · exact ⟨rfl, fun x h1 h2 _ => hstart x h1 h2⟩
      · have hmem := fun x h1 h2 hx => (ensureDbuf_memory he x hx).trans (hstart x h1 h2)
        obtain ⟨v, l, m, rfl⟩ := ensureDbuf_frame he
        rcases scanTrack_ends s.params _ with ⟨v, hend⟩ | ⟨v, r, hend⟩ <;>
          obtain rfl := Host.Outcome.next.inj ((hend _).symm.trans h)
        · exact ⟨rfl, hmem⟩
        · exact ⟨rfl, fun x h1 h2 hx => (storeTable_read_outside _ r.1 h1 h2).trans (hmem x h1 h2 hx)⟩
  · obtain rfl := Host.Outcome.next.inj ((execScan_badConfig hcfg).symm.trans h)
    exact ⟨rfl, fun x h1 h2 _ => hstart x h1 h2⟩

/-! ## The walk over the array -/

section
variable {P : Params} {e : Engine} {v : Variant} {d : List Byte} {a : Nat} {es : List SectorEntry}

/-- The walk passes an offset at which the prologue does not stand. -/
theorem scanFrom_of_not_occursAt (h : ¬OccursAt (prologueOf P v) d a) :
    scanFrom P e v d a (d.drop a) es = scanFrom P e v d (a + 1) (d.drop (a + 1)) es := by
  cases hd : d.drop a with
  | nil =>
    have hd' : d.drop (a + 1) = [] := List.drop_eq_nil_iff.2 (by have := List.drop_eq_nil_iff.1 hd; omega)
    rw [hd']
    rfl
  | cons b rest =>
    rw [← patternAtHead_drop, hd] at h
    rw [scanFrom, if_neg h, drop_eq_cons hd]

/-- A prologue stands at the head of the rest of the array. -/
theorem OccursAt.drop_eq_cons {p : Pattern} (h : OccursAt p d a) :
    d.drop a = d[a]'(by have := h.lt; omega) :: d.drop (a + 1) :=
  List.drop_eq_getElem_cons _

/-- At a match the walk passes a field that does not decode (R177). -/
theorem scanFrom_of_error {x : FieldError} (h : OccursAt (prologueOf P v) d a) (hf : decodeAddr P v d a = .error x) :
    scanFrom P e v d a (d.drop a) es = scanFrom P e v d (a + 1) (d.drop (a + 1)) es := by
  have hd := h.drop_eq_cons
  rw [hd, scanFrom, ← hd, if_pos ((patternAtHead_drop _ d a).2 h), hf]

/-- At a match the walk ends with a duplicate or with the last sector, or records the field and goes on (R175). -/
theorem scanFrom_of_field {f : AddrField} (h : OccursAt (prologueOf P v) d a) (hf : decodeAddr P v d a = .ok f) :
    scanFrom P e v d a (d.drop a) es =
      if isDuplicate es f then (es, .duplicate)
      else if es.length + 1 = targetCount P e v then (es ++ [entryOf P e v d a f], .count)
      else scanFrom P e v d (a + 1) (d.drop (a + 1)) (es ++ [entryOf P e v d a f]) := by
  have hd := h.drop_eq_cons
  rw [hd, scanFrom, ← hd, if_pos ((patternAtHead_drop _ d a).2 h), hf]

/-- The walk passes offsets up to the next match. -/
theorem scanFrom_skip {o : Nat} (hle : a ≤ o) (h : ∀ x, a ≤ x → x < o → ¬OccursAt (prologueOf P v) d x) :
    scanFrom P e v d a (d.drop a) es = scanFrom P e v d o (d.drop o) es := by
  induction o, hle using Nat.le_induction with
  | base => rfl
  | succ o hle ih =>
    rw [ih fun x h1 h2 => h x h1 (by omega), scanFrom_of_not_occursAt (h o hle (by omega))]

/-- The walk goes to the match that FindFn finds. -/
theorem scanFrom_of_findFn_some {o : Nat} (h : findFn d a (prologueOf P v) = some o) :
    scanFrom P e v d a (d.drop a) es = scanFrom P e v d o (d.drop o) es := by
  obtain ⟨hle, -, hno⟩ := findFn_some h
  exact scanFrom_skip hle hno

/-- The walk ends where FindFn finds no match. -/
theorem scanFrom_of_findFn_none (h : findFn d a (prologueOf P v) = none) :
    scanFrom P e v d a (d.drop a) es = (es, .noMatch) := by
  rw [scanFrom_skip (Nat.le_max_left a d.length) fun x hx _ => findFn_none h x hx,
    List.drop_eq_nil_iff.2 (Nat.le_max_right a d.length), scanFrom]

end

/-- From a match on, the spec's loop goes on as the walk does; each match needs three bytes and stands after the one
before (R175, R184). -/
theorem scanLoop_eq_scanFrom (P : Params) (e : Engine) (v : Variant) (d : List Byte) :
    ∀ (fuel a : Nat) (es : List SectorEntry), OccursAt (prologueOf P v) d a → d.length ≤ fuel + a + 2 →
      scanLoop P e v d fuel a es = some (scanFrom P e v d a (d.drop a) es)
  | 0, a, _, ha, hfuel => by
    have := ha.lt
    omega
  | fuel + 1, a, es, ha, hfuel => by
    cases hn : findFn d (a + 1) (prologueOf P v) with
    | none =>
      cases hf : decodeAddr P v d a with
      | error x => simp only [scanLoop, hf, hn, scanFrom_of_error ha hf, scanFrom_of_findFn_none hn]
      | ok f => simp only [scanLoop, hf, hn, scanFrom_of_field ha hf, scanFrom_of_findFn_none hn, apply_ite some]
    | some o =>
      obtain ⟨hle, ho, -⟩ := findFn_some hn
      have ih := fun es => scanLoop_eq_scanFrom P e v d fuel o es ho (by omega)
      cases hf : decodeAddr P v d a with
      | error x => simp only [scanLoop, hf, hn, ih, scanFrom_of_error ha hf, scanFrom_of_findFn_some hn]
      | ok f => simp only [scanLoop, hf, hn, ih, scanFrom_of_field ha hf, scanFrom_of_findFn_some hn, apply_ite some]

/-- Settles O40: the walk goes from the first offset to the first match, and from there on as the loop does. -/
theorem scanWalkIsSpecLoop : Obligations.ScanWalkIsSpecLoop := by
  intro P e v d a h
  rw [scanLoop_eq_scanFrom P e v d _ a [] (findFn_some h).2.1 (by omega), ← scanFrom_of_findFn_some h, List.drop_zero]

/-! ## The recorded entries -/

/-- What a scan has recorded before it comes to offset `a`: the fields at offsets below `a` at which they decode, in
rising order, no sector number twice (R175, R177, R180). -/
structure RecordedBefore (P : Params) (e : Engine) (v : Variant) (d : List Byte) (a : Nat)
    (es : List SectorEntry) : Prop where
  fields : ∀ x ∈ es, OccursAt (prologueOf P v) d x.aoff ∧ decodeAddr P v d x.aoff = .ok x.field ∧
    x = entryOf P e v d x.aoff x.field
  below : ∀ x ∈ es, x.aoff < a
  rising : es.Pairwise fun x y => x.aoff < y.aoff ∧ x.field.sector ≠ y.field.sector

theorem isDuplicate_iff {es : List SectorEntry} {f : AddrField} :
    isDuplicate es f = true ↔ ∃ x ∈ es, x.field.sector = f.sector := by
  simp [isDuplicate]

section
variable {P : Params} {e : Engine} {v : Variant} {d : List Byte} {a : Nat} {es : List SectorEntry}

theorem RecordedBefore.nil : RecordedBefore P e v d a [] := ⟨by simp, by simp, .nil⟩

theorem RecordedBefore.succ (h : RecordedBefore P e v d a es) : RecordedBefore P e v d (a + 1) es :=
  ⟨h.fields, fun x hx => Nat.lt_succ_of_lt (h.below x hx), h.rising⟩

/-- The field at `a` recorded. -/
theorem RecordedBefore.append {f : AddrField} (h : RecordedBefore P e v d a es) (ha : OccursAt (prologueOf P v) d a)
    (hf : decodeAddr P v d a = .ok f) (hdup : ¬isDuplicate es f = true) :
    RecordedBefore P e v d (a + 1) (es ++ [entryOf P e v d a f]) where
  fields := List.forall_mem_append.2 ⟨h.fields, List.forall_mem_singleton.2 ⟨ha, hf, rfl⟩⟩
  below := List.forall_mem_append.2 ⟨h.succ.below, List.forall_mem_singleton.2 (Nat.lt_succ_self a)⟩
  rising := List.pairwise_append.2 ⟨h.rising, List.pairwise_singleton _ _, fun x hx y hy => by
    obtain rfl := List.mem_singleton.1 hy
    exact ⟨h.below x hx, fun hs => hdup (isDuplicate_iff.2 ⟨x, hx, hs⟩)⟩⟩

/-- A scan ends at an offset `b`, and with DUPLICATE where the field at `b` repeats a sector number. -/
theorem scanFrom_recordedBefore (h : RecordedBefore P e v d a es) :
    ∃ b, RecordedBefore P e v d b (scanFrom P e v d a (d.drop a) es).1 ∧
      ((scanFrom P e v d a (d.drop a) es).2 = .duplicate → ∃ f, OccursAt (prologueOf P v) d b ∧
        decodeAddr P v d b = .ok f ∧ isDuplicate (scanFrom P e v d a (d.drop a) es).1 f = true) := by
  induction hrest : d.drop a generalizing a es with
  | nil => exact ⟨a, h, nofun⟩
  | cons b rest ih =>
    have hnext := fun {es} (h : RecordedBefore P e v d (a + 1) es) => ih h (drop_eq_cons hrest)
    rw [← drop_eq_cons hrest] at hnext
    rw [← hrest]
    by_cases ha : OccursAt (prologueOf P v) d a
    · cases hf : decodeAddr P v d a with
      | error x =>
        rw [scanFrom_of_error ha hf]
        exact hnext h.succ
      | ok f =>
        rw [scanFrom_of_field ha hf]
        split
        · exact ⟨a, h, fun _ => ⟨f, ha, hf, ‹_›⟩⟩
        · have h' := h.append ha hf ‹_›
          split
          · exact ⟨a + 1, h', nofun⟩
          · exact hnext h'
    · rw [scanFrom_of_not_occursAt ha]
      exact hnext h.succ

end

/-- Settles O41: what has been recorded before each offset, up to the one where the scan ends. -/
theorem scanEntriesAreFields : Obligations.ScanEntriesAreFields := by
  intro P e v d es c h
  have hnil : RecordedBefore P e v d 0 [] := .nil
  obtain ⟨b, hrec, hdup⟩ := scanFrom_recordedBefore hnil
  rw [List.drop_zero, h] at hrec hdup
  refine ⟨hrec.fields, hrec.rising, fun hc => ?_⟩
  obtain ⟨f, hb, hf, hd⟩ := hdup hc
  exact ⟨b, f, hb, hf, hrec.below, isDuplicate_iff.1 hd⟩

/-! ## The data field -/

/-- The data search takes what FindFn finds from 11 bytes after the address offset on, up to 200 bytes after it
(R179). -/
theorem dataOffset_some_iff {d : List Byte} {a o : Nat} :
    dataOffset d a = some o ↔ findFn d (a + 11) dataPrologue = some o ∧ o - a ≤ 200 := by
  unfold dataOffset dataSkip dataWindow
  cases findFn d (a + 11) dataPrologue with
  | none => simp
  | some x =>
    simp only [Option.some.injEq]
    split
    · simp only [false_iff, reduceCtorEq]
      omega
    · simp only [Option.some.injEq]
      omega

/-- Settles O42: the first occurrence from the address offset + 11 on is the one taken, unless it is past the window;
then no later one is inside. -/
theorem dataSearchWindow : Obligations.DataSearchWindow := by
  intro d a here
  have hsome : ∀ o, dataOffset d a = some o ↔
      a + 11 ≤ o ∧ o - a ≤ 200 ∧ here o ∧ ∀ x, a + 11 ≤ x → x < o → ¬here x := fun o => by
    rw [dataOffset_some_iff, (findFnIsFirstOccurrence d (a + 11) dataPrologue).1 o]
    exact ⟨fun ⟨⟨h1, h3, h4⟩, h2⟩ => ⟨h1, h2, h3, h4⟩, fun ⟨h1, h2, h3, h4⟩ => ⟨⟨h1, h3, h4⟩, h2⟩⟩
  refine ⟨hsome, fun hnone o h1 h2 ho => ?_, fun hno => ?_⟩
  · cases hf : findFn d (a + 11) dataPrologue with
    | none => exact findFn_none hf o h1 ho
    | some x =>
      obtain ⟨-, -, hfirst⟩ := findFn_some hf
      have hxo : x ≤ o := Nat.not_lt.1 fun hlt => hfirst o h1 hlt ho
      exact absurd (dataOffset_some_iff.2 ⟨hf, by omega⟩) (by simp [hnone])
  · refine Option.eq_none_iff_forall_ne_some.2 fun o ho => ?_
    obtain ⟨h1, h2, h3, -⟩ := (hsome o).1 ho
    exact hno o h1 h2 h3

/-! ## What is recorded of a field -/

/-- The status and the payload of a data decode stand in the entry (R182). -/
theorem recordsDecode_of_statusOf {x : SectorEntry} {r : Except FieldError (List Byte)}
    (h : (x.status, x.payload) = statusOf r) : RecordsDecode x r := by
  cases r with
  | ok p => exact Prod.ext_iff.1 h
  | error f => cases f <;> exact Prod.ext_iff.1 h

section
variable {P : Params} {e : Engine} {v : Variant} {d : List Byte} {a : Nat} {f : AddrField}

/-- A field that the policy rejects is not decoded (R178). -/
theorem entryOf_rejected (h : addrRejected e v f = true) :
    (entryOf P e v d a f).status = .addrChecksumError ∧ (entryOf P e v d a f).payload = [] := by
  simp [entryOf, h]

/-- Every other field is decoded (R182). -/
theorem entryOf_decoded (h : addrRejected e v f = false) :
    ((entryOf P e v d a f).status, (entryOf P e v d a f).payload) = decodeEntry P v d (dataOffset d a) := by
  simp [entryOf, h]

theorem addrRejected_eq_false (h : v ≠ .gcr35 ∨ f.chkOk = true ∨ e.cfgA35pol = false) : addrRejected e v f = false := by
  rcases h with h | h | h <;> simp [addrRejected, h]

end

/-- Settles O43: the policy rejects the field, or its entry holds what the data decode of the variant answers. -/
theorem addressChecksumPolicy : Obligations.AddressChecksumPolicy := by
  intro P e v d a f x
  refine ⟨rfl, rfl, rfl, ?_, fun hpol => ?_⟩
  · rintro rfl hchk ha35
    exact entryOf_rejected (by simp [addrRejected, hchk, ha35])
  · have hx : (x.status, x.payload) = decodeEntry P v d (dataOffset d a) :=
      entryOf_decoded (addrRejected_eq_false hpol)
    refine ⟨fun ho => ?_, fun o ho => ?_⟩
    · rw [ho] at hx
      exact Prod.ext_iff.1 hx
    · rw [ho] at hx
      refine ⟨?_, ?_, ?_, ?_, ?_⟩
      · rintro rfl
        exact recordsDecode_of_statusOf hx
      · rintro rfl hp
        rw [decodeEntry, decodeData13, hp] at hx
        exact Prod.ext_iff.1 hx
      · rintro rfl hp
        rw [decodeEntry, decodeData13, hp] at hx
        exact recordsDecode_of_statusOf hx
      · rintro rfl hp
        rw [decodeEntry, decodeData35, hp] at hx
        exact Prod.ext_iff.1 hx
      · rintro rfl hp
        rw [decodeEntry, decodeData35, hp] at hx
        exact recordsDecode_of_statusOf hx

end Sys2Proof.Machine
end

section
/-! PROOFS. The NibbleTranslator (R210 to R218): words as their bytes at their shifts, L62 as the entries of the table,
the bits of the 4-and-4 bytes, the round trips, and the four commands. -/

namespace Sys2Proof

/-! ## Bytes at their shifts -/

theorem setWidth_append_byte {n : Nat} (x : BitVec n) (y : Byte) :
    (x ++ y).setWidth 32 = (x.setWidth 32 <<< 8) ||| y.setWidth 32 := by
  ext k hk
  by_cases h8 : k < 8
  · simp [BitVec.getLsbD_append, h8]
  · simp [BitVec.getLsbD_append, h8, BitVec.getLsbD_of_ge y k (by omega)]

/-- The opcode and the operand bytes of a word, each at its shift (R110, R112). -/
theorem wordOf_eq_or (o a b c : Byte) :
    wordOf o a b c =
      (o.setWidth 32 <<< 24) ||| (a.setWidth 32 <<< 16) ||| (b.setWidth 32 <<< 8) ||| c.setWidth 32 := by
  rw [← BitVec.setWidth_eq (wordOf o a b c), wordOf, setWidth_append_byte, setWidth_append_byte, setWidth_append_byte]
  simp only [BitVec.shiftLeft_or_distrib, ← BitVec.shiftLeft_add]

namespace Machine

open Sys2Proof.Certificates

/-! ## The 6-and-2 table -/

/-- L62 is the set of the table's entries (R210). -/
theorem legal62_iff {P : Params} {b : Byte} : legal62 P b = true ↔ ∃ v, x62f P v = b := by
  rw [legal62, List.contains_iff_mem, Vector.mem_toList_iff, Vector.mem_iff_getElem]
  constructor
  · rintro ⟨i, hi, rfl⟩
    exact ⟨BitVec.ofNatLT i hi, rfl⟩
  · rintro ⟨v, rfl⟩
    exact ⟨v.toNat, v.isLt, rfl⟩

/-- A legal table read backwards: the value of a byte is the one whose entry it is (R214, R218). -/
theorem unx62_eq_ok_iff {P : Params} (hP : P.Ok) {b : Byte} {v : BitVec 6} :
    unx62 P b = .ok v ↔ x62f P v = b := by
  refine ⟨fun h => ?_, fun h => h ▸ unx62_x62f hP v⟩
  cases hl : legal62 P b with
  | false => cases h.symm.trans (unx62_of_illegal hl)
  | true =>
    obtain ⟨w, rfl⟩ := legal62_iff.1 hl
    cases h.symm.trans (unx62_x62f hP w)
    rfl

/-- What a legal table keeps of its entries (R219 item 2). -/
theorem x62f_legal {P : Params} (hP : P.Ok) (v : BitVec 6) :
    (x62f P v).getLsbD 7 = true ∧ x62f P v ≠ 0xD5 ∧ x62f P v ≠ 0xAA := by
  obtain ⟨-, -, -, hentries, -⟩ := hP
  exact hentries _ (by simp [x62f])

/-! ## The bits of the 4-and-4 bytes -/

/-- 0xAA holds the odd bits of a byte. -/
theorem getLsbD_0xAA : ∀ {k : Nat}, k < 8 → (0xAA : Byte).getLsbD k = decide (k % 2 = 1) := by decide

/-- L44 is the set of the bytes whose odd bits are 1 (R210). -/
theorem legal44_iff {b : Byte} : legal44 b = true ↔ ∀ k < 8, k % 2 = 1 → b.getLsbD k = true := by
  rw [legal44, beq_iff_eq]
  refine ⟨fun h k hk hodd => ?_, fun h => BitVec.eq_of_getLsbD_eq fun k hk => ?_⟩
  · have hb := congrArg (BitVec.getLsbD · k) h
    simpa only [BitVec.getLsbD_and, getLsbD_0xAA hk, hodd, decide_true, Bool.and_true] using hb
  · rw [BitVec.getLsbD_and, getLsbD_0xAA hk]
    by_cases hodd : k % 2 = 1
    · rw [h k hk hodd, Bool.true_and]
    · simp [hodd]

theorem legal44_or_0xAA (b : Byte) : legal44 (b ||| 0xAA) = true := by
  refine legal44_iff.2 fun k hk hodd => ?_
  rw [BitVec.getLsbD_or, getLsbD_0xAA hk, decide_eq_true hodd, Bool.or_true]

section
variable (v o e b : Byte) (n : BitVec 4) {k : Nat}

theorem getLsbD_enc44Odds (hk : k < 8) :
    (enc44Odds v).getLsbD k = (v.getLsbD (k + 1) || decide (k % 2 = 1)) := by
  rw [enc44Odds, BitVec.getLsbD_or, BitVec.getLsbD_ushiftRight, getLsbD_0xAA hk, Nat.add_comm]

theorem getLsbD_enc44Evens (hk : k < 8) :
    (enc44Evens v).getLsbD k = (v.getLsbD k || decide (k % 2 = 1)) := by
  rw [enc44Evens, BitVec.getLsbD_or, getLsbD_0xAA hk]

theorem getLsbD_dec44_zero : (dec44 o e).getLsbD 0 = e.getLsbD 0 := by
  simp [dec44]

theorem getLsbD_dec44_succ : (dec44 o e).getLsbD (k + 1) = (o.getLsbD k && e.getLsbD (k + 1)) := by
  by_cases hk : k + 1 < 8
  · simp [dec44, hk, -BitVec.getLsbD_eq_getElem]
  · rw [BitVec.getLsbD_of_ge _ _ (Nat.le_of_not_lt hk), BitVec.getLsbD_of_ge _ _ (Nat.le_of_not_lt hk), Bool.and_false]

theorem getLsbD_gather4 (hk : k < 4) : (gather4 b).getLsbD k = b.getLsbD (2 * k) := by
  have hconcat : gather4 b =
      (((BitVec.ofBool (b.getLsbD 6)).concat (b.getLsbD 4)).concat (b.getLsbD 2)).concat (b.getLsbD 0) := rfl
  interval_cases k <;> simp [hconcat, BitVec.getElem_concat]

theorem getLsbD_spread4 (hk : k < 8) :
    (spread4 n).getLsbD k = (decide (k % 2 = 1) || n.getLsbD (k / 2)) := by
  have hconcat : spread4 n =
      (((((((1#1).concat (n.getLsbD 3)).concat true).concat (n.getLsbD 2)).concat true).concat
        (n.getLsbD 1)).concat true).concat (n.getLsbD 0) := rfl
  interval_cases k <;> simp [hconcat, BitVec.getElem_concat]

end

/-! ## The round trips of the 4-and-4 bytes -/

theorem spread4_gather4 {b : Byte} (h : legal44 b = true) : spread4 (gather4 b) = b := by
  refine BitVec.eq_of_getLsbD_eq fun k hk => ?_
  rw [getLsbD_spread4 _ hk, getLsbD_gather4 _ (by omega)]
  by_cases hodd : k % 2 = 1
  · rw [legal44_iff.1 h k hk hodd, decide_eq_true hodd, Bool.true_or]
  · rw [decide_eq_false hodd, Bool.false_or, show 2 * (k / 2) = k by omega]

theorem gather4_spread4 (n : BitVec 4) : gather4 (spread4 n) = n := by
  refine BitVec.eq_of_getLsbD_eq fun k hk => ?_
  rw [getLsbD_gather4 _ hk, getLsbD_spread4 _ (by omega), decide_eq_false (by omega), Bool.false_or,
    Nat.mul_div_cancel_left k (by decide)]

/-- Of the two bytes that the AND of a data bit reads, one repeats the bit and the other holds a 1 there. -/
theorem dec44_enc44 (v : Byte) : dec44 (enc44Odds v) (enc44Evens v) = v := by
  refine BitVec.eq_of_getLsbD_eq fun k hk => ?_
  cases k with
  | zero => rw [getLsbD_dec44_zero, getLsbD_enc44Evens _ hk, decide_eq_false (by decide), Bool.or_false]
  | succ k =>
    rw [getLsbD_dec44_succ, getLsbD_enc44Odds _ (by omega), getLsbD_enc44Evens _ hk]
    obtain hodd | hodd : k % 2 = 1 ∧ ¬(k + 1) % 2 = 1 ∨ ¬k % 2 = 1 ∧ (k + 1) % 2 = 1 := by omega
    all_goals simp [hodd]

section
variable {o e : Byte} (ho : legal44 o = true) (he : legal44 e = true)
include ho he

/-- Under an even bit of the odds byte stands an odd bit of the evens byte, which is 1. -/
theorem enc44Odds_dec44 : enc44Odds (dec44 o e) = o := by
  refine BitVec.eq_of_getLsbD_eq fun k hk => ?_
  rw [getLsbD_enc44Odds _ hk, getLsbD_dec44_succ]
  by_cases hodd : k % 2 = 1
  · rw [legal44_iff.1 ho k hk hodd, decide_eq_true hodd, Bool.or_true]
  · rw [legal44_iff.1 he (k + 1) (by omega) (by omega), Bool.and_true, decide_eq_false hodd, Bool.or_false]

/-- Under an even bit of the evens byte stands an odd bit of the odds byte, which is 1, or the 1 shifted in. -/
theorem enc44Evens_dec44 : enc44Evens (dec44 o e) = e := by
  refine BitVec.eq_of_getLsbD_eq fun k hk => ?_
  rw [getLsbD_enc44Evens _ hk]
  by_cases hodd : k % 2 = 1
  · rw [legal44_iff.1 he k hk hodd, decide_eq_true hodd, Bool.or_true]
  · rw [decide_eq_false hodd, Bool.or_false]
    cases k with
    | zero => exact getLsbD_dec44_zero o e
    | succ k => rw [getLsbD_dec44_succ, legal44_iff.1 ho k (by omega) (by omega), Bool.true_and]

end

/-! ## U62's two ends -/

section
variable {s : State} {b : Byte}

theorem exec_u62 : exec (.u62 b) s = execU62 b s := rfl

theorem exec_u62_ok {v : BitVec 6} (h : unx62 s.params b = .ok v) :
    exec (.u62 b) s = .next { s with cur := { s.cur with err := .noError, result := v.setWidth 32 } } := by
  simp only [exec_u62, execU62, State.command, h]
  rfl

theorem exec_u62_error {f : FieldError} (h : unx62 s.params b = .error f) :
    exec (.u62 b) s = .next { s with cur := withError { s.cur with result := 0xFFFFFFFF } (errOfField f) } := by
  simp only [exec_u62, execU62, State.command, h]
  rfl

end

/-! ## The obligations -/

/-- Settles O46: U62 reads the table backwards, and a byte that is no entry is outside L62. -/
theorem u62Untranslates : Obligations.U62Untranslates := by
  refine ⟨fun b => ?_, fun s b hP => ⟨fun v hv => exec_u62_ok ((unx62_eq_ok_iff hP).2 hv), fun hb => ?_⟩⟩
  · have hword : encode (.u62 b) = 0x0D000000 ||| b.setWidth 32 := by simp [encode, wordOf_eq_or]
    exact hword ▸ decode_encode rfl
  · have hl : legal62 s.params b = false := Bool.eq_false_iff.2 fun h => (legal62_iff.1 h).elim hb
    exact exec_u62_error (unx62_of_illegal hl)

/-- Settles O49: the table has each byte once, and the 4-and-4 functions agree with their inverses bit by bit. -/
theorem translatorRoundTrips : Obligations.TranslatorRoundTrips := by
  refine ⟨fun P hP => ⟨fun b v => (unx62_eq_ok_iff hP).1, fun b hb => ?_, unx62_x62f hP⟩,
    fun b => spread4_gather4, gather4_spread4, dec44_enc44,
    fun o e ho he => ⟨enc44Odds_dec44 ho he, enc44Evens_dec44 ho he⟩⟩
  obtain ⟨v, hv⟩ := legal62_iff.1 hb
  exact ⟨v, (unx62_eq_ok_iff hP).2 hv⟩

/-- Settles O45: RESULT is an entry of the table. -/
theorem x62Translates : Obligations.X62Translates := by
  refine ⟨fun v hv => ?_, fun s v hv => ⟨rfl, fun hP => x62f_legal hP _⟩⟩
  have hword : encode (.x62 v) = 0x0C000000 ||| v.setWidth 32 := by simp [encode, wordOf_eq_or]
  exact hword ▸ decode_encode (decide_eq_true hv)

/-- Settles O47: RESULT is the word of the two bytes, and the OR with 0xAA puts each in L44. -/
theorem x44Encodes : Obligations.X44Encodes := by
  refine ⟨fun b => ?_, fun s b => ⟨?_, legal44_or_0xAA _, legal44_or_0xAA _⟩⟩
  · have hword : encode (.x44 b) = 0x0E000000 ||| b.setWidth 32 := by simp [encode, wordOf_eq_or]
    exact hword ▸ decode_encode rfl
  · have hresult : wordOf 0 0 (enc44Odds b) (enc44Evens b) =
        (((b >>> 1) ||| 0xAA).setWidth 32 <<< 8) ||| (b ||| 0xAA).setWidth 32 := by
      simp [wordOf_eq_or, enc44Odds, enc44Evens]
    rw [← hresult]
    rfl

/-- Settles O48: the odds byte is the second operand byte of the word, and RESULT is the formula's value. -/
theorem u44Decodes : Obligations.U44Decodes := by
  refine ⟨fun bo be => ?_, fun s bo be => rfl⟩
  have hword : encode (.u44 bo be) = 0x0F000000 ||| (bo.setWidth 32 <<< 8) ||| be.setWidth 32 := by
    simp [encode, wordOf_eq_or]
  exact hword ▸ decode_encode rfl

end Machine

end Sys2Proof
end

section
/-! PROOFS. The 16-sector encoder (R254 to R257): the forward chain and its checksum, the 342 values of a payload and
the payload they give back, and what ED16 stores. -/

namespace Sys2Proof.Machine

open Sys2Proof.Certificates

/-! ## The decoder's check -/

/-- The decoder answers a payload exactly where the translated values XOR to 0 (R252, R254). -/
theorem payloadOf_ok_iff (t : List Byte) : (∃ p, payloadOf t = .ok p) ↔ xorAll t = 0 := by
  simp only [payloadOf, backChain_check]
  split
  · exact iff_of_true ⟨_, rfl⟩ ‹_›
  · exact iff_of_false (fun ⟨_, h⟩ => by cases h) ‹_›

/-! ## The forward chain -/

/-- Each byte of the chain carries the XOR of a value with the one before it, and the last the last value (R256). -/
theorem forwardChain_getElem? : ∀ (u : BitVec 6) (vs : List (BitVec 6)) {k : Nat}, k ≤ vs.length →
    (forwardChain u vs)[k]? = some (vs.getD k 0 ^^^ (u :: vs).getD k 0)
  | _, [], 0, _ => by simp [forwardChain]
  | _, _ :: _, 0, _ => rfl
  | _, v :: vs, _ + 1, h => forwardChain_getElem? v vs (Nat.le_of_succ_le_succ h)

/-- The chain telescopes: its running XOR gives the values back, and 0 after the last of them (R254, R257). -/
theorem xorAll_take_forwardChain : ∀ (u : BitVec 6) (vs : List (BitVec 6)) (k : Nat),
    xorAll ((forwardChain u vs).take (k + 1)) = u ^^^ vs.getD k 0
  | u, [], k => by simp [forwardChain]
  | u, v :: vs, 0 => by simp [forwardChain, BitVec.xor_comm]
  | u, v :: vs, k + 1 => by
    rw [forwardChain, List.take_succ_cons, xorAll_cons, xorAll_take_forwardChain v vs k, BitVec.xor_comm v u,
      BitVec.xor_assoc, ← BitVec.xor_assoc v v, BitVec.xor_self, BitVec.zero_xor, List.getD_cons_succ]

/-- The appended checksum makes the XOR of the whole chain its start (R256). -/
theorem xorAll_forwardChain (u : BitVec 6) (vs : List (BitVec 6)) : xorAll (forwardChain u vs) = u := by
  have h := xorAll_take_forwardChain u vs vs.length
  rw [List.take_of_length_le (by simp), List.getD_eq_default _ _ le_rfl] at h
  exact h.trans BitVec.xor_zero

/-! ## The values of a payload -/

/-- Three bit pairs at their places, the first lowest (R256). -/
theorem or_shift_eq_append : ∀ x y z : BitVec 2,
    x.setWidth 6 ||| (y.setWidth 6 <<< 2) ||| (z.setWidth 6 <<< 4) = z ++ y ++ x := by decide

/-- The auxiliary values are the first of `splitValue` (R256). -/
theorem auxValue_eq_splitValue {p : List Byte} {q : Nat → Byte} (hq : ∀ c < 256, p.getD c 0 = q c) {k : Nat}
    (hk : k < 86) : auxValue p k = splitValue q k := by
  have hthird : (if k + 172 < 256 then (rev2 ((p.getD (k + 172) 0).setWidth 2)).setWidth 6 <<< 4 else 0) =
      (if k + 172 < 256 then swapBits ((q (k + 172)).setWidth 2) else 0).setWidth 6 <<< 4 := by
    split
    · rw [hq _ ‹_›, rev2_eq_swapBits]
    · rfl
  rw [auxValue, hthird, hq k (by omega), hq (k + 86) (by omega), rev2_eq_swapBits, rev2_eq_swapBits,
    or_shift_eq_append, splitValue, if_pos hk]

/-- The values of a payload are those of `splitValue` on its bytes (R256). -/
theorem splitPayload_getD {p : List Byte} {q : Nat → Byte} (hq : ∀ c < 256, p.getD c 0 = q c) {k : Nat}
    (hk : k < 342) : (splitPayload p).getD k 0 = splitValue q k := by
  unfold splitPayload aux16 payload525
  rw [List.getD_eq_getElem?_getD]
  by_cases h : k < 86
  · rw [List.getElem?_append_left (by simpa using h)]
    simpa [h] using auxValue_eq_splitValue hq h
  · rw [List.getElem?_append_right (by simpa using h), splitValue, if_neg h, ← hq (k - 86) (by omega)]
    simp [show k - 86 < 256 by omega]

/-- Payload byte `c` has its low bits, reversed, in pair `c / 86` of auxiliary value `c mod 86` (R253, R256). -/
theorem splitValue_extract (q : Nat → Byte) {c : Nat} (hc : c < 256) :
    (splitValue q (c % 86)).extractLsb' (2 * (c / 86)) 2 = swapBits ((q c).setWidth 2) := by
  have hpair : ∀ x y z : BitVec 2, (z ++ y ++ x).extractLsb' 0 2 = x ∧ (z ++ y ++ x).extractLsb' 2 2 = y ∧
      (z ++ y ++ x).extractLsb' 4 2 = z := by decide
  obtain ⟨k, hk, rfl | rfl | rfl⟩ : ∃ k < 86, c = k ∨ c = k + 86 ∨ c = k + 172 := ⟨c % 86, by omega, by omega⟩
  · rw [show c % 86 = c by omega, show c / 86 = 0 by omega, splitValue, if_pos hk]
    exact (hpair _ _ _).1
  · rw [show (k + 86) % 86 = k by omega, show (k + 86) / 86 = 1 by omega, splitValue, if_pos hk]
    exact (hpair _ _ _).2.1
  · rw [show (k + 172) % 86 = k by omega, show (k + 172) / 86 = 2 by omega, splitValue, if_pos hk, if_pos hc]
    exact (hpair _ _ _).2.2

/-- A byte is its six high bits and its two low bits, reversed twice (R253, R256). -/
theorem high_or_swapBits_swapBits : ∀ b : Byte,
    ((b.extractLsb' 2 6).setWidth 8 <<< 2) ||| (swapBits (swapBits (b.setWidth 2))).setWidth 8 = b := by decide

/-- The values of a payload give its bytes back (R257). -/
theorem payloadFrom_splitValue {q : Nat → Byte} {r : Nat → BitVec 6} (h : ∀ k < 342, r k = splitValue q k) {c : Nat}
    (hc : c < 256) : payloadFrom r c = q c := by
  rw [payloadFrom, h (86 + c) (by omega), h (c % 86) (by omega), splitValue_extract q hc, splitValue,
    if_neg (by omega), Nat.add_sub_cancel_left, high_or_swapBits_swapBits]

/-- The forward running XOR of an encoded payload is its values (R254, R256). -/
theorem forwardAt_forwardChain {p : List Byte} {k : Nat} (hk : k < 342) :
    forwardAt (forwardChain 0 (splitPayload p)) k = splitValue (p.getD · 0) k := by
  rw [forwardAt, xorAll_take_forwardChain]
  exact BitVec.zero_xor.trans (splitPayload_getD (fun _ _ => rfl) hk)

/-! ## The encoder's bytes -/

/-- A byte of the encoding is the entry of its link of the chain (R256). -/
theorem encodeData16_getElem? (P : Params) (p : List Byte) {k : Nat} (hk : k ≤ 342) :
    (encodeData16 P p)[k]? = some (x62f P ((splitPayload p).getD k 0 ^^^ (0 :: splitPayload p).getD k 0)) := by
  rw [encodeData16, List.getElem?_map, forwardChain_getElem? _ _ (by simpa using hk), Option.map_some]

/-- The encoder writes entries of the table alone (R210, R256). -/
theorem encodeData16_legal {P : Params} {p : List Byte} {b : Byte} (h : b ∈ encodeData16 P p) :
    legal62 P b = true ∧ (P.Ok → b ≠ 0xD5 ∧ b ≠ 0xAA) := by
  obtain ⟨v, -, rfl⟩ := List.mem_map.1 h
  exact ⟨legal62_iff.2 ⟨v, rfl⟩, fun hP => (x62f_legal hP v).2⟩

/-- ED16 ends with the encoding of the payload in NBUF, whatever the state (R255). -/
theorem exec_ed16 (s : State) : exec .ed16 s =
    .next { s with cur := storeNibbles s.cur.clearErr (encodeData16 s.params (payloadIn s.cur)) } := rfl

/-! ## The obligations -/

/-- Settles O53: the bytes of the encoding are the chain's, and a store puts them into NBUF and nowhere else. -/
theorem ed16EncodesPayload : Obligations.Ed16EncodesPayload := by
  intro s
  have hvalue {k : Nat} : k < 342 → (splitPayload (payloadIn s.cur)).getD k 0 = splitValue _ k :=
    splitPayload_getD fun _ => Memory.getD_bytes s.cur.mem wbufBase
  have hlen := encodeData16_length s.params (payloadIn s.cur)
  refine ⟨_, _, hlen, exec_ed16 s, fun k hk => ?_, fun x hx => Memory.read_store_outside _ _ _ _ _ (hlen ▸ hx),
    fun b => encodeData16_legal, ?_, fun k hk => ?_, ?_⟩
  · exact (Memory.read_store_self _ _ _ _ (hlen ▸ hk)).trans (by simp [hlen, hk])
  · rw [encodeData16_getElem? _ _ (by omega), hvalue (by omega)]
    simp
  · rw [encodeData16_getElem? _ _ (by omega), hvalue (by omega), List.getD_cons_succ, hvalue (by omega)]
  · rw [encodeData16_getElem? _ _ le_rfl, List.getD_eq_default _ _ (by simp), List.getD_cons_succ, hvalue (by omega)]
    simp

/-- Settles O54: the chain of an encoded payload XORs to 0, and its running XOR is the payload's values. -/
theorem sectorCodecRoundTrip : Obligations.SectorCodecRoundTrip := by
  intro P d p a hP hp hd
  rw [decodeData16_values (hd ▸ encodeData16_length P p) hP hd.symm, if_pos (xorAll_forwardChain 0 _)]
  refine congrArg _ (List.ext_getElem (by simp [hp]) fun c hc hcp => ?_)
  rw [List.getElem_map, List.getElem_range,
    payloadFrom_splitValue (fun _ => forwardAt_forwardChain) (by omega), List.getD_eq_getElem _ _ hcp]

/-- Settles O55: the check of the backward chain passes exactly on a XOR of 0, and then the chain is the forward one. -/
theorem backwardChainIsForwardChain : Obligations.BackwardChainIsForwardChain :=
  fun t _ => ⟨payloadOf_ok_iff t, fun h i _ => backChain_forward h i⟩

end Sys2Proof.Machine
end

section
/-! PROOFS. What a command's outcome depends on (60_exceptions.md R293 and R310): the parameters and the
addressed engine, and not the error code in it. -/

namespace Sys2Proof.Machine

open Sys2Proof.Certificates

/-! ## The end of a command -/

/-- The addressed engine is the command's to write: the one before it leaves no trace in the outcome. -/
@[simp] theorem State.finish_setCur (s : State) (e : Engine) (x : CmdEnd) :
    State.finish { s with cur := e } x = s.finish x := by
  cases x <;> rfl

/-- An end of a command puts one engine in place, or is one fault, in whatever block it ends. -/
theorem State.finish_uniform (x : CmdEnd) :
    (∃ e, ∀ s : State, s.finish x = .next { s with cur := e }) ∨ ∃ f, ∀ s : State, s.finish x = .fault f := by
  cases x with
  | done e => exact .inl ⟨e, fun _ => rfl⟩
  | raised c e => exact .inl ⟨e.raise c, fun _ => rfl⟩
  | fault f => exact .inr ⟨f, fun _ => rfl⟩

/-! ## The obligations -/

/-- Settles O9: both blocks run the same pseudocode on the same arguments, so the command ends alike in both. -/
theorem commandsReadTheirEngineAlone : Obligations.CommandsReadTheirEngineAlone := by
  intro i s r hparams hcur
  obtain ⟨body, hbody⟩ := exec_command i
  have hr : exec i r = r.finish (body s.params s.cur.clearErr) := by
    rw [hbody, State.command, hparams, hcur]
  rw [hr, hbody, State.command]
  obtain ⟨e, he⟩ | ⟨f, hf⟩ := State.finish_uniform (body s.params s.cur.clearErr)
  · exact .inl ⟨e, he s, he r⟩
  · exact .inr ⟨f, hf s, hf r⟩

/-- Settles O7: a command's pseudocode runs on the engine with ERR cleared, whatever code it held. -/
theorem commandIgnoresEarlierErr : Obligations.CommandIgnoresEarlierErr := by
  intro i s c
  obtain ⟨body, hbody⟩ := exec_command i
  have hclear : Engine.clearErr { s.cur with err := c } = s.cur.clearErr := rfl
  rw [hbody, hbody, State.command, State.command, State.finish_setCur, hclear]

end Sys2Proof.Machine
end

section
/-! PROOFS. The reset input (70_reset_and_hazards.md R330): every engine of the block as after reset. -/

namespace Sys2Proof.Machine

/-- Reset looks at no engine's contents: it maps each to the reset state. -/
theorem State.assertReset_engines (s : State) : s.assertReset.engines = s.engines.map fun _ => Engine.reset := by
  simp only [State.engines, State.assertReset, List.map_append, List.map_cons]

/-- The step of the reset input: the assertion is taken off the list and reset is asserted (R330). -/
theorem step_resetInput {s : State} {ops : List HostOp} (hi : s.inbox = .reset :: ops) :
    step s = .next (State.assertReset { s with inbox := ops }) := by
  rw [step, hi]
  rfl

/-- Settles O19: reset maps every engine to the reset state and keeps the parameters and the later accesses. -/
theorem resetInputResetsEveryEngine : Obligations.ResetInputResetsEveryEngine := by
  intro s ops hi
  have hengines : (State.assertReset { s with inbox := ops }).engines =
      List.replicate s.engines.length State.reset.cur :=
    (State.assertReset_engines _).trans (List.map_const' ..)
  exact ⟨_, step_resetInput hi, hengines, State.assertReset_params _, State.assertReset_inbox _⟩

end Sys2Proof.Machine
end
